-- ==== Sys2Proof/Word.lean ====
section
/-! DEFINITION. The word, byte and address types of the WUT-4 (`00_scope.md` R8, R10, R11). -/

namespace Sys2Proof

/-- A register value: a 16-bit pattern (`00_scope.md` R8, R11). -/
abbrev Word := BitVec 16

/-- One byte of memory. -/
abbrev Byte := BitVec 8

/-- A physical address: 24 bits (`20_memory.md` R204). -/
abbrev PhysAddr := BitVec 24

/-- A register field of an instruction word, 0 to 7 (`30_encoding.md` R315). -/
abbrev RegField := BitVec 3

end Sys2Proof
end

