-- ==== Sys2Proof/Syntax.lean ====
section
/-! DEFINITION. The instructions: one constructor per row of spec/opcode_table.json, the fields of the word
(`30_encoding.md` R302 to R309) as operands. -/

namespace Sys2Proof

/-- An instruction of the WUT-4. Operands stand in assembler order (`47_assembler_aliases.md` R520): rA, rB, rC or
immediate. -/
inductive Instr where
  | ldw (rA rB : RegField) (imm7 : BitVec 7)
  | ldb (rA rB : RegField) (imm7 : BitVec 7)
  | stw (rA rB : RegField) (imm7 : BitVec 7)
  | stb (rA rB : RegField) (imm7 : BitVec 7)
  | adi (rA rB : RegField) (imm7 : BitVec 7)
  | lui (rA : RegField) (imm10 : BitVec 10)
  | br (imm10 : BitVec 10)
  | brl (imm10 : BitVec 10)
  | brz (imm10 : BitVec 10)
  | brnz (imm10 : BitVec 10)
  | brc (imm10 : BitVec 10)
  | brnc (imm10 : BitVec 10)
  | brsge (imm10 : BitVec 10)
  | brslt (imm10 : BitVec 10)
  | jal (rA rB : RegField) (imm6 : BitVec 6)
  | sbb (rA rB rC : RegField)
  | adc (rA rB rC : RegField)
  | sub (rA rB rC : RegField)
  | add (rA rB rC : RegField)
  | xor (rA rB rC : RegField)
  | or (rA rB rC : RegField)
  | and (rA rB rC : RegField)
  | lsp (rA rB : RegField)
  | lsi (rA rB : RegField)
  | ssp (rA rB : RegField)
  | ssi (rA rB : RegField)
  | lcw (rA rB : RegField)
  | sys (n : BitVec 3)
  | tst (rA rB : RegField)
  | not (rA : RegField)
  | neg (rA : RegField)
  | dub (rA : RegField)
  | sxt (rA : RegField)
  | sra (rA : RegField)
  | srl (rA : RegField)
  | ji (rA : RegField)
  | ccf
  | scf
  | di
  | ei
  | hlt
  | brk
  | rti
  | die
  /-- the word 0x0000 (`30_encoding.md` R321 (a)) -/
  | illegalZero
  /-- SYS with a nonzero rB field (`30_encoding.md` R321 (c)) -/
  | illegalSysRb (rA rB : RegField)
  deriving DecidableEq, Repr, Inhabited

end Sys2Proof
end

