-- ==== Sys2Proof/WellFormed.lean ====
section
/-! DEFINITION. Which terms of Instr stand for an instruction word. Every operand's range is its type; two operand
combinations are excluded. -/

namespace Sys2Proof

/-- LDW with all fields 0 would be the word 0x0000, which is illegal (`30_encoding.md` R321 (a)), and the illegal SYS
words have a nonzero rB field (R321 (c)). Every other term is an instruction. -/
def Instr.wellFormed (i : Instr) : Bool :=
  match i with
  | .ldw rA rB imm7 => !(rA == 0 && rB == 0 && imm7 == 0)
  | .illegalSysRb _ rB => rB != 0
  | .ldb _ _ _ | .stw _ _ _ | .stb _ _ _ | .adi _ _ _ | .lui _ _ | .br _ | .brl _ | .brz _ | .brnz _ | .brc _
  | .brnc _ | .brsge _ | .brslt _ | .jal _ _ _ | .sbb _ _ _ | .adc _ _ _ | .sub _ _ _ | .add _ _ _ | .xor _ _ _
  | .or _ _ _ | .and _ _ _ | .lsp _ _ | .lsi _ _ | .ssp _ _ | .ssi _ _ | .lcw _ _ | .sys _ | .tst _ _ | .not _
  | .neg _ | .dub _ | .sxt _ | .sra _ | .srl _ | .ji _ | .ccf | .scf | .di | .ei | .hlt | .brk | .rti | .die
  | .illegalZero => true

end Sys2Proof
end

