-- ==== Sys2Proof/Decode.lean ====
section
/-! DEFINITION. Decoding and encoding (`30_encoding.md`). Decoding a 16-bit word is total (R310); decoding bytes
rejects by name when fewer than two are given. -/

namespace Sys2Proof

/-- The XOP opened by `x` (`30_encoding.md` R317); `none` for `x = 7`, which opens format Y. -/
def decodeXop (x : BitVec 3) (rA rB rC : RegField) : Option Instr :=
  match x.toNat with
  | 0 => some (.sbb rA rB rC)
  | 1 => some (.adc rA rB rC)
  | 2 => some (.sub rA rB rC)
  | 3 => some (.add rA rB rC)
  | 4 => some (.xor rA rB rC)
  | 5 => some (.or rA rB rC)
  | 6 => some (.and rA rB rC)
  | _ => none

/-- The YOP opened by `y` (`30_encoding.md` R318); SYS with a nonzero rB field is illegal (R310 step 5); `none` for
`y = 7`, which opens format Z. -/
def decodeYop (y : BitVec 3) (rA rB : RegField) : Option Instr :=
  match y.toNat with
  | 0 => some (.lsp rA rB)
  | 1 => some (.lsi rA rB)
  | 2 => some (.ssp rA rB)
  | 3 => some (.ssi rA rB)
  | 4 => some (.lcw rA rB)
  | 5 => if rB = 0 then some (.sys rA) else some (.illegalSysRb rA rB)
  | 6 => some (.tst rA rB)
  | _ => none

/-- The ZOP opened by `z` (`30_encoding.md` R319); `none` for `z = 7`, which opens format V. -/
def decodeZop (z : BitVec 3) (rA : RegField) : Option Instr :=
  match z.toNat with
  | 0 => some (.not rA)
  | 1 => some (.neg rA)
  | 2 => some (.dub rA)
  | 3 => some (.sxt rA)
  | 4 => some (.sra rA)
  | 5 => some (.srl rA)
  | 6 => some (.ji rA)
  | _ => none

/-- The VOP `v` (`30_encoding.md` R320). -/
def decodeVop (v : BitVec 3) : Instr :=
  match v.toNat with
  | 0 => .ccf
  | 1 => .scf
  | 2 => .di
  | 3 => .ei
  | 4 => .hlt
  | 5 => .brk
  | 6 => .rti
  | _ => .die

/-- The branch of condition `cond` (`30_encoding.md` R325). -/
def decodeBranch (cond : BitVec 3) (imm10 : BitVec 10) : Instr :=
  match cond.toNat with
  | 0 => .br imm10
  | 1 => .brl imm10
  | 2 => .brz imm10
  | 3 => .brnz imm10
  | 4 => .brc imm10
  | 5 => .brnc imm10
  | 6 => .brsge imm10
  | _ => .brslt imm10

/-- The extended instructions, `w[15:12] = 0xF` (`30_encoding.md` R310 steps 4 to 7). -/
def decodeExtended (w : Word) : Instr :=
  let rA := w.extractLsb' 0 3
  let rB := w.extractLsb' 3 3
  let rC := w.extractLsb' 6 3
  ((decodeXop (w.extractLsb' 9 3) rA rB rC).or
    ((decodeYop rC rA rB).or (decodeZop rB rA))).getD (decodeVop rA)

/-- Decoding a word (`30_encoding.md` R310): total, exactly one answer. -/
def decode (w : Word) : Instr :=
  let rA := w.extractLsb' 0 3
  let rB := w.extractLsb' 3 3
  let imm7 := w.extractLsb' 6 7
  let imm10 := w.extractLsb' 3 10
  if w = 0 then .illegalZero
  else match (w.extractLsb' 13 3).toNat with
    | 0 => .ldw rA rB imm7
    | 1 => .ldb rA rB imm7
    | 2 => .stw rA rB imm7
    | 3 => .stb rA rB imm7
    | 4 => .adi rA rB imm7
    | 5 => .lui rA imm10
    | 6 => decodeBranch rA imm10
    | _ => if w.extractLsb' 12 1 = 0 then .jal rA rB (w.extractLsb' 6 6) else decodeExtended w

/-- A word from its two bytes in memory, little-endian (`20_memory.md` R210, R211). -/
def wordOfBytes (lo hi : Byte) : Word := hi ++ lo

/-- Bits 7:0 of a word, the byte at the lower address (`20_memory.md` R210). -/
def lowByte (w : Word) : Byte := w.extractLsb' 0 8

/-- Bits 15:8 of a word, the byte at the higher address (`20_memory.md` R210). -/
def highByte (w : Word) : Byte := w.extractLsb' 8 8

/-- Why bytes do not decode: an instruction is one word of two bytes (`30_encoding.md` R300). -/
inductive DecodeError where
  | truncated
  deriving DecidableEq, Repr

/-- Decode the instruction at the head of `bytes`, lowest address first, and give the bytes after it. -/
def decodeBytes (bytes : List Byte) : Except DecodeError (Instr × List Byte) :=
  match bytes with
  | lo :: hi :: rest => .ok (decode (wordOfBytes lo hi), rest)
  | _ => .error .truncated

/-- Format M (`30_encoding.md` R302). -/
def wordM (op3 : BitVec 3) (imm7 : BitVec 7) (rB rA : RegField) : Word := op3 ++ imm7 ++ rB ++ rA

/-- Format B (`30_encoding.md` R304); format U (R303) has the same fields with another opcode. -/
def wordB (op3 : BitVec 3) (imm10 : BitVec 10) (low : BitVec 3) : Word := op3 ++ imm10 ++ low

/-- Format J (`30_encoding.md` R305). -/
def wordJ (imm6 : BitVec 6) (rB rA : RegField) : Word := 0xE#4 ++ imm6 ++ rB ++ rA

/-- Format X (`30_encoding.md` R306). Formats Y, Z and V are its words with `x = 7`, then `rC = 7`, then `rB = 7`
(R307 to R309). -/
def wordX (x : BitVec 3) (rC rB rA : RegField) : Word := 0xF#4 ++ x ++ rC ++ rB ++ rA

/-- The word of an instruction, written from the format table (`30_encoding.md` R301 to R309, R316 to R320, R325). -/
def encode (i : Instr) : Word :=
  match i with
  | .ldw rA rB imm7 => wordM 0 imm7 rB rA
  | .ldb rA rB imm7 => wordM 1 imm7 rB rA
  | .stw rA rB imm7 => wordM 2 imm7 rB rA
  | .stb rA rB imm7 => wordM 3 imm7 rB rA
  | .adi rA rB imm7 => wordM 4 imm7 rB rA
  | .lui rA imm10 => wordB 5 imm10 rA
  | .br imm10 => wordB 6 imm10 0
  | .brl imm10 => wordB 6 imm10 1
  | .brz imm10 => wordB 6 imm10 2
  | .brnz imm10 => wordB 6 imm10 3
  | .brc imm10 => wordB 6 imm10 4
  | .brnc imm10 => wordB 6 imm10 5
  | .brsge imm10 => wordB 6 imm10 6
  | .brslt imm10 => wordB 6 imm10 7
  | .jal rA rB imm6 => wordJ imm6 rB rA
  | .sbb rA rB rC => wordX 0 rC rB rA
  | .adc rA rB rC => wordX 1 rC rB rA
  | .sub rA rB rC => wordX 2 rC rB rA
  | .add rA rB rC => wordX 3 rC rB rA
  | .xor rA rB rC => wordX 4 rC rB rA
  | .or rA rB rC => wordX 5 rC rB rA
  | .and rA rB rC => wordX 6 rC rB rA
  | .lsp rA rB => wordX 7 0 rB rA
  | .lsi rA rB => wordX 7 1 rB rA
  | .ssp rA rB => wordX 7 2 rB rA
  | .ssi rA rB => wordX 7 3 rB rA
  | .lcw rA rB => wordX 7 4 rB rA
  | .sys n => wordX 7 5 0 n
  | .tst rA rB => wordX 7 6 rB rA
  | .not rA => wordX 7 7 0 rA
  | .neg rA => wordX 7 7 1 rA
  | .dub rA => wordX 7 7 2 rA
  | .sxt rA => wordX 7 7 3 rA
  | .sra rA => wordX 7 7 4 rA
  | .srl rA => wordX 7 7 5 rA
  | .ji rA => wordX 7 7 6 rA
  | .ccf => wordX 7 7 7 0
  | .scf => wordX 7 7 7 1
  | .di => wordX 7 7 7 2
  | .ei => wordX 7 7 7 3
  | .hlt => wordX 7 7 7 4
  | .brk => wordX 7 7 7 5
  | .rti => wordX 7 7 7 6
  | .die => wordX 7 7 7 7
  | .illegalZero => 0
  | .illegalSysRb rA rB => wordX 7 5 rB rA

/-- The bytes of an instruction in memory, lowest address first. -/
def encodeBytes (i : Instr) : List Byte := [lowByte (encode i), highByte (encode i)]

/-- The mask and match of the instruction's row in spec/opcode_table.json. -/
def Instr.tableRow (i : Instr) : Word × Word :=
  match i with
  | .ldw _ _ _ => (0xE000, 0x0000)
  | .ldb _ _ _ => (0xE000, 0x2000)
  | .stw _ _ _ => (0xE000, 0x4000)
  | .stb _ _ _ => (0xE000, 0x6000)
  | .adi _ _ _ => (0xE000, 0x8000)
  | .lui _ _ => (0xE000, 0xA000)
  | .br _ => (0xE007, 0xC000)
  | .brl _ => (0xE007, 0xC001)
  | .brz _ => (0xE007, 0xC002)
  | .brnz _ => (0xE007, 0xC003)
  | .brc _ => (0xE007, 0xC004)
  | .brnc _ => (0xE007, 0xC005)
  | .brsge _ => (0xE007, 0xC006)
  | .brslt _ => (0xE007, 0xC007)
  | .jal _ _ _ => (0xF000, 0xE000)
  | .sbb _ _ _ => (0xFE00, 0xF000)
  | .adc _ _ _ => (0xFE00, 0xF200)
  | .sub _ _ _ => (0xFE00, 0xF400)
  | .add _ _ _ => (0xFE00, 0xF600)
  | .xor _ _ _ => (0xFE00, 0xF800)
  | .or _ _ _ => (0xFE00, 0xFA00)
  | .and _ _ _ => (0xFE00, 0xFC00)
  | .lsp _ _ => (0xFFC0, 0xFE00)
  | .lsi _ _ => (0xFFC0, 0xFE40)
  | .ssp _ _ => (0xFFC0, 0xFE80)
  | .ssi _ _ => (0xFFC0, 0xFEC0)
  | .lcw _ _ => (0xFFC0, 0xFF00)
  | .sys _ => (0xFFF8, 0xFF40)
  | .tst _ _ => (0xFFC0, 0xFF80)
  | .not _ => (0xFFF8, 0xFFC0)
  | .neg _ => (0xFFF8, 0xFFC8)
  | .dub _ => (0xFFF8, 0xFFD0)
  | .sxt _ => (0xFFF8, 0xFFD8)
  | .sra _ => (0xFFF8, 0xFFE0)
  | .srl _ => (0xFFF8, 0xFFE8)
  | .ji _ => (0xFFF8, 0xFFF0)
  | .ccf => (0xFFFF, 0xFFF8)
  | .scf => (0xFFFF, 0xFFF9)
  | .di => (0xFFFF, 0xFFFA)
  | .ei => (0xFFFF, 0xFFFB)
  | .hlt => (0xFFFF, 0xFFFC)
  | .brk => (0xFFFF, 0xFFFD)
  | .rti => (0xFFFF, 0xFFFE)
  | .die => (0xFFFF, 0xFFFF)
  | .illegalZero => (0xFFFF, 0x0000)
  | .illegalSysRb _ _ => (0xFFC0, 0xFF40)

/-- The bytes a table word stands for, lowest address first: bits above `nbits` are 0, and an instruction is one
word, little-endian (`30_encoding.md` R300). -/
def tableBytes (nbits w : Nat) : List Byte :=
  let word := BitVec.ofNat 16 (w % 2 ^ nbits)
  [lowByte word, highByte word]

/-- The instruction the decoder reads from a table word, or `none` where it refuses the bytes. -/
def decodeTableWord (nbits w : Nat) : Option Instr :=
  match decodeBytes (tableBytes nbits w) with
  | .ok (i, _) => some i
  | .error _ => none

end Sys2Proof
end

