-- ==== Sys2Proof/Machine/Types.lean ====
section
/-! DEFINITION. The names the spec gives to modes, spaces, accesses, causes, flags and devices: plain types,
no behaviour. -/

namespace Sys2Proof.Machine

/-- The two privilege modes (`10_state.md` R113, `60_exceptions.md` R635). -/
inductive Mode where
  | kernel
  | user
  deriving DecidableEq, Repr, Inhabited

/-- The two virtual spaces of a context (`20_memory.md` R200). -/
inductive Space where
  | code
  | data
  deriving DecidableEq, Repr

/-- The four kinds of access the permission check tells apart (`20_memory.md` R223). -/
inductive Access where
  | fetch
  | codeRead
  | load
  | store
  deriving DecidableEq, Repr

/-- The permission field `PP` of an MMU register (`20_memory.md` R221): 00, 01, 10, 11. -/
inductive Permission where
  | all
  | readOnly
  | reserved
  | invalid
  deriving DecidableEq, Repr

/-- The outcome of the permission check (`20_memory.md` R223). -/
inductive Verdict where
  | allowed
  | pageFault
  | unspecified
  deriving DecidableEq, Repr

/-- The two candidate layouts of an MMU register (`20_memory.md` R221, parameter `MMU_LAYOUT`). -/
inductive MmuLayout where
  | frameLow
  | frameHigh
  deriving DecidableEq, Repr, Inhabited

/-- The fields of an MMU register that take part in translation (`20_memory.md` R221, R222). -/
structure MmuEntry where
  frame : BitVec 12
  perm  : Permission
  deriving DecidableEq, Repr

/-- The four arithmetic flags of a context (`10_state.md` R108). -/
structure Flags where
  c : Bool
  z : Bool
  n : Bool
  v : Bool
  deriving DecidableEq, Repr, Inhabited

/-- The record `add16` answers: the 16-bit result and the four flags (`00_scope.md` R16). -/
structure AddResult where
  r     : Word
  flags : Flags
  deriving DecidableEq, Repr

/-- The five causes of an illegal instruction, (a) to (e) of `60_exceptions.md` R602. -/
inductive IllegalReason where
  | zeroWord
  | die
  | sysField
  | privileged
  | userSpr
  deriving DecidableEq, Repr

/-- What enters kernel mode (`60_exceptions.md` R601): the TFEs of `00_scope.md` R18 (b) and the UART interrupt. -/
inductive Cause where
  | illegal   (reason : IllegalReason)
  | pageFault (space : Space) (va : Word) (access : Access)
  | sys       (n : BitVec 3)
  | traceTrap
  | uart
  deriving DecidableEq, Repr

/-- The kinds of event `60_exceptions.md` R601 lists. -/
inductive EventKind where
  | illegal
  | pageFault
  | sys
  | traceTrap
  | uart
  deriving DecidableEq, Repr

/-- The TFEs whose vector the spec leaves to the parameter `VEC` (`60_exceptions.md` R622). -/
inductive OpenVector where
  | illegal
  | pageFault
  | traceTrap
  deriving DecidableEq, Repr

/-- The logical XOPs (`43_xop_alu.md` R445 to R447). -/
inductive LogicOp where
  | xor
  | or
  | and
  deriving DecidableEq, Repr

/-- The arithmetic ZOPs (`45_zop.md` R481 to R486). -/
inductive ZopOp where
  | not
  | neg
  | dub
  | sxt
  | sra
  | srl
  deriving DecidableEq, Repr

/-- How a trace trap combines with another TFE of the same instruction, when the instruction runs first
(left open by `60_exceptions.md` R605): the other TFE alone, the trace trap alone (the instruction and its TFE
undone), or both at once, which is a TFE in kernel mode with interrupts disabled. -/
inductive TraceWithTfe where
  | otherOnly
  | traceOnly
  | doubleFault
  deriving DecidableEq, Repr, Inhabited

/-- A value of the parameter `TRAP_BIT`: the three points `60_exceptions.md` R605 lists as not stated. -/
structure TrapBit where
  /-- the trap replaces the instruction (IRR = its pc); else it follows it (IRR = the next pc) -/
  replaces : Bool
  /-- trap entry clears T -/
  clearsT  : Bool
  withTfe  : TraceWithTfe
  deriving DecidableEq, Repr, Inhabited

/-- What a range of physical addresses holds (`20_memory.md` R204, parameter `PHYS_MAP`). -/
inductive PhysKind where
  | ram
  | rom
  | device
  | nothing
  deriving DecidableEq, Repr

/-- A range of physical addresses that is not RAM (`20_memory.md` R204). -/
structure Region where
  base : Nat
  size : Nat
  kind : PhysKind
  deriving DecidableEq, Repr

/-- The parameter `BRK_EFFECT` (`46_vop.md` R506, D29): not given, the spec's default, or the emulator's. -/
inductive BrkEffect where
  | notGiven
  | emulator
  deriving DecidableEq, Repr, Inhabited

/-- What the platform fixes and no step changes: the physical map (`PHYS_MAP`, `20_memory.md` R204) and what BRK does
(`BRK_EFFECT`, `46_vop.md` R506). -/
structure Platform where
  /-- the first region that holds an address says what is there; an address in no region holds RAM -/
  regions : List Region
  brk     : BrkEffect
  deriving DecidableEq, Repr, Inhabited

/-- The registers banked by context (`60_exceptions.md` R638): general registers 1 to 7 (index `i - 1`), the link
register, the flags, 16 code and 16 data MMU registers. -/
structure Bank where
  gpr   : Vector Word 7
  link  : Word
  flags : Flags
  cmmu  : Vector Word 16
  dmmu  : Vector Word 16
  deriving DecidableEq, Repr, Inhabited

/-- The console UART (`60_exceptions.md` R650), FIFOs oldest byte first. `console` is the model's own: the bytes the
host has shown (`60_exceptions.md` R656). -/
structure Uart where
  txq     : List Byte
  rxq     : List Byte
  txovf   : Bool
  rxunf   : Bool
  txie    : Bool
  rxie    : Bool
  console : List Byte
  deriving DecidableEq, Repr, Inhabited

/-- The SD commands the spec names (`60_exceptions.md` R666), and any other. -/
inductive SdName where
  | cmd0
  | cmd8
  | cmd58
  | cmd55
  | acmd41
  | cmd17
  | cmd24
  | other
  deriving DecidableEq, Repr

/-- A command recognised in the bytes sent to the card: which one, and where in those bytes its four argument bytes and,
for CMD24, its 512 data bytes begin. -/
structure SdFrame where
  name       : SdName
  argumentAt : Nat
  dataAt     : Nat
  deriving DecidableEq, Repr

/-- An SD command with what it carries: CMD17 and CMD24 the byte address of a sector (`60_exceptions.md` R663), CMD24
the sector's 512 bytes (R666). -/
inductive SdCommand where
  | cmd0
  | cmd8
  | cmd58
  | cmd55
  | acmd41
  | cmd17 (address : BitVec 32)
  | cmd24 (address : BitVec 32) (data : Vector Byte 512)
  | other
  deriving DecidableEq, Repr

/-- A register of a device's response, read a byte at a time, the most significant byte first (`60_exceptions.md`
R668). -/
inductive SdItem where
  | byte (v : Byte)
  | half (v : BitVec 16)
  | word (v : BitVec 32)
  deriving DecidableEq, Repr

/-- Where the card stands in the required initialisation sequence (`60_exceptions.md` R665). -/
inductive SdPhase where
  /-- `n` bytes of 0xFF have been sent with the card deselected; no byte yet with it selected -/
  | idle (n : Nat)
  | expectCmd0
  | expectCmd8
  | expectCmd58
  | expectCmd55
  | expectAcmd41
  | ready
  /-- the unrecoverable error state -/
  | failed
  deriving DecidableEq, Repr, Inhabited

/-- The SD card behind the SPI data register (`60_exceptions.md` R663 to R667). `received` holds every byte sent to
it while selected, oldest first; `reply` the response bytes not yet read; `store` the bytes of its file, sparse. -/
structure SdCard where
  present  : Bool
  sectors  : Nat
  phase    : SdPhase
  received : List Byte
  reply    : List Byte
  store    : List (Nat × Byte)
  deriving DecidableEq, Repr, Inhabited

/-- The SPI interface: the select register and the card (`60_exceptions.md` R660, R662). -/
structure Spi where
  sel  : Word
  card : SdCard
  deriving DecidableEq, Repr, Inhabited

/-- The special registers by number (`10_state.md` R142). The four windows on MMU registers carry the slot, the
window on user registers the register. -/
inductive Spr where
  | link
  | flags
  /-- 2 to 5, undefined -/
  | undefined
  | cycLo
  | cycHi
  | irr
  | icr
  | idr
  | isr
  /-- 12 to 14, reserved -/
  | reserved
  | context
  | userGen  (i : BitVec 3)
  /-- 24 to 31, reserved; among the registers 16 to 63 that want a CONTEXT other than 0 (`44_yop.md` R461) -/
  | userReserved
  | userCode (slot : BitVec 4)
  | userData (slot : BitVec 4)
  | kernCode (slot : BitVec 4)
  | kernData (slot : BitVec 4)
  | uartTx
  | uartRx
  | uartTxStatus
  | uartRxStatus
  | spiData
  | spiSelect
  /-- 102 to 127, no device -/
  | unassigned
  deriving DecidableEq, Repr

end Sys2Proof.Machine
end

