-- ==== Sys2Proof/Config.lean ====
section
/-! DEFINITION. What the spec leaves to the implementation (`00_scope.md` R9) and the free values (R19): opaque
constants without a body, so that nothing can be proved of their value. The layout-independent parts built from them
stand in Machine/. -/

namespace Sys2Proof.Config

open Sys2Proof.Machine

/-- Free values (`00_scope.md` R19): the `n`-th draw of the run. DESIGN CHOICE, entry 20. -/
opaque draw : Nat → Word

/-- Contexts beyond the guaranteed 256 (`00_scope.md` R9, `NCTX`). Entry 9. -/
opaque extraContexts : Nat

/-- `MMU_LAYOUT` (`20_memory.md` R221). Entry 10. -/
opaque mmuLayout : MmuLayout

/-- `VEC`: the vector number of a TFE whose vector is not stated (`60_exceptions.md` R622). Entry 11. -/
opaque vec : OpenVector → BitVec 14

/-- `ISR_ENC`: the values ISR takes for the two modes, distinct constants (`60_exceptions.md` R626). The defaults only
show that such a pair exists; the constant below is opaque. -/
structure IsrEncoding where
  kernel   : Word := 0
  user     : Word := 1
  distinct : kernel ≠ user := by decide
  deriving Inhabited

/-- `ISR_ENC` (`60_exceptions.md` R626). Entry 13. -/
opaque isrEncoding : IsrEncoding

/-- `LOGIC_CV`: C and V after a logical XOP on two operands, given the flags before (`43_xop_alu.md` R445).
Entry 14. -/
opaque logicCV : LogicOp → Word → Word → Flags → Bool × Bool

/-- `ZOP_FLAGS`: the flags a ZOP leaves on an operand, given the flags before (`45_zop.md` R480); only those the spec
does not state are taken from it. Entry 15. -/
opaque zopFlags : ZopOp → Word → Flags → Flags

/-- `TRAP_BIT` (`60_exceptions.md` R605); `none` is "not given". Entry 16. -/
opaque trapBit : Option TrapBit

/-- `DOUBLE_FAULT_RESETS` (`60_exceptions.md` R629). Entry 17. -/
opaque doubleFaultResets : Bool

/-- `IFETCH_COHERENT` (`20_memory.md` R240). Entry 18. -/
opaque ifetchCoherent : Bool

/-- Machine cycles of the `n`-th step beyond the one every step takes (`60_exceptions.md` R645). Entry 23. -/
opaque extraCycles : Nat → Nat

/-- Whether LSI's special-register read has happened when its store faults (`10_state.md` R151). Entry 25. -/
opaque lsiReadHappened : Nat → Bool

/-- Bytes typed at the console before the `n`-th step (`60_exceptions.md` R656). Entry 24. -/
opaque typed : Nat → List Byte

/-- How many transmitted bytes the host shows before the `n`-th step (`60_exceptions.md` R656). Entry 24. -/
opaque shown : Nat → Nat

/-- What an access at the `t`-th step finds in a byte of a memory-mapped device: "a value left to the device"
(`00_scope.md` R19, `60_exceptions.md` R669), free for each step, use of free values, kind of access and address.
Entry 49. -/
opaque deviceByte (t draws : Nat) (access : Access) (a : PhysAddr) : Byte

/-- The command that the last of the bytes sent to the card completes, if it completes one, and where its parts stand
(the formats are not in the source, `00_scope.md` R7 (a)). Entry 26. -/
opaque sdFrame : List Byte → Option SdFrame

/-- The response the card holds ready after a byte sent to it (`60_exceptions.md` R665; the formats are not in the
source); for a CMD17 of a sector the card has, what comes before the sector's bytes. Entry 26. -/
opaque sdReply : SdCard → Option SdCommand → Byte → List SdItem

/-- What follows the sector's bytes in the response to CMD17. Entry 26. -/
opaque sdReadTail : SdCard → List SdItem

end Sys2Proof.Config
end

