-- ==== Sys2Proof/Machine/Causes.lean ====
section
/-! DEFINITION. What a cause stands for at trap entry: its kind, its vector and its code in ICR
(`60_exceptions.md` R601, R621 to R624). -/

namespace Sys2Proof.Machine

/-- The kind of a cause (`60_exceptions.md` R601). -/
def Cause.kind (c : Cause) : EventKind :=
  match c with
  | .illegal _ => .illegal
  | .pageFault _ _ _ => .pageFault
  | .sys _ => .sys
  | .traceTrap => .traceTrap
  | .uart => .uart

/-- Every cause but the UART interrupt is a TFE (`60_exceptions.md` R601). -/
def Cause.isTfe (c : Cause) : Bool :=
  match c with
  | .uart => false
  | .illegal _ | .pageFault _ _ _ | .sys _ | .traceTrap => true

/-- The vector number of a cause (`60_exceptions.md` R601, R622). -/
def vectorOf (c : Cause) : BitVec 14 :=
  match c with
  | .illegal _ => Config.vec .illegal
  | .pageFault _ _ _ => Config.vec .pageFault
  | .sys n => 8 + n.zeroExtend 14
  | .traceTrap => Config.vec .traceTrap
  | .uart => 3

/-- Vector `n` is at kernel code address `4n` (`60_exceptions.md` R621). -/
def vectorAddress (n : BitVec 14) : Word := n ++ 0#2

/-- The code of a cause's kind in the example that shows a lawful `ICR_CODE` exists. -/
def exampleIcrCode (c : Cause) : Word :=
  match c.kind with
  | .illegal => 0
  | .pageFault => 1
  | .sys => 2
  | .traceTrap => 3
  | .uart => 4

/-- The example tells every two kinds apart. -/
theorem exampleIcrCode_tells_kinds (c d : Cause) (h : c.kind ≠ d.kind) : exampleIcrCode c ≠ exampleIcrCode d := by
  unfold exampleIcrCode
  cases hc : c.kind <;> cases hd : d.kind <;> simp_all

/-- `ICR_CODE` with its one law: the kernel can tell the kinds apart when they share a vector (`60_exceptions.md` R624).
The defaults only show that such a function exists; the constant below is opaque. -/
structure IcrCoding where
  code : Cause → Word := exampleIcrCode
  law  : ∀ c d, c.kind ≠ d.kind → vectorOf c = vectorOf d → code c ≠ code d :=
    by exact fun c d h _ => exampleIcrCode_tells_kinds c d h
  deriving Inhabited

end Sys2Proof.Machine

namespace Sys2Proof.Config

/-- `ICR_CODE` (`60_exceptions.md` R624). Entry 12. -/
opaque icrCoding : Machine.IcrCoding

end Sys2Proof.Config
end

