-- ==== Sys2Proof/Machine/State.lean ====
section
/-! DEFINITION. The state of the machine (`10_state.md` R100), the reasons a step can stop, and the state after reset
(`10_state.md` R155, `70_reset_and_hazards.md` R700). -/

namespace Sys2Proof.Machine

/-- Why a step has no successor. Each is a thing the spec tells software not to do, or never considers, without saying
what the hardware does ("stuck" in `93_implementation_defined.md` Part 2). Every one is SAFE: the model stops where the
hardware goes on, so no claim about what the hardware then does can be proved. -/
inductive Fault where
  /-- a fetch at an odd pc (`10_state.md` R107, D12). Raised by the fetch; safe. -/
  | oddPc
  /-- a 16-bit data access or LCW at an odd address (`20_memory.md` R214, D11). Raised by LDW, STW, LSI, SSI, LCW;
  safe. -/
  | misaligned
  /-- an access through an MMU register with PP = 10 (`20_memory.md` R223). Raised by any access; safe. -/
  | reservedPp
  /-- an access where `PHYS_MAP` has nothing (`20_memory.md` R204). Raised by any access; safe. -/
  | noPhysical
  /-- a store where `PHYS_MAP` has ROM: "no stated effect" (`70_reset_and_hazards.md` R705). Raised by STW, STB, LSI;
  safe. -/
  | romStore
  /-- a fetch of a word a store of the run has written, `IFETCH_COHERENT` not asserted (`20_memory.md` R240). Raised by
  the fetch; safe. -/
  | staleFetch
  /-- a special-register number above 127 (`10_state.md` R123). Raised by LSP, LSI, SSP, SSI; safe. -/
  | sprRange
  /-- an access to SPR 16 (`10_state.md` R134, D23). Raised by LSP, LSI, SSP, SSI; safe. -/
  | userR0
  /-- user mode entered, or SPRs 16..63 accessed, with CONTEXT = 0 (`10_state.md` R116, R134, R136, R137). Raised by
  RTI, LSP, LSI, SSP, SSI; safe. -/
  | contextZero
  /-- CONTEXT written with a value of NCTX or more (`10_state.md` R115). Raised by SSP, SSI; safe. -/
  | contextRange
  /-- RTI while ISR encodes neither mode (`60_exceptions.md` R626, `46_vop.md` R507). Raised by RTI; safe. -/
  | isrValue
  /-- a user-mode step with T = 1 while `TRAP_BIT` is not given (`60_exceptions.md` R605). Raised by the step; safe. -/
  | trapBit
  /-- a kernel write of a different value to the code MMU register of the executing page
  (`70_reset_and_hazards.md` R720). Raised by SSP, SSI; safe. -/
  | remapExecuting
  /-- BRK while `BRK_EFFECT` is not given: the spec's default refuses it (`46_vop.md` R506, D29). Raised by BRK;
  safe. -/
  | brkEffect
  deriving DecidableEq, Repr

/-- Why the model gives an instruction no meaning. -/
inductive Refusal where
  /-- an arm of exec that has no meaning yet. Raised by exec only; safe. No arm of this model raises it. -/
  | notModelled (mnemonic : String)
  deriving DecidableEq, Repr

/-- The state of a WUT-4 (`10_state.md` R100). -/
structure State where
  /-- program counter, a code address in the current mode's space (`10_state.md` R105) -/
  pc      : Word
  /-- privilege mode (`10_state.md` R113) -/
  mode    : Mode
  /-- the processor has stopped (`10_state.md` R114) -/
  halted  : Bool
  /-- T, FLAGS bit 8 in kernel mode (`10_state.md` R111) -/
  t       : Bool
  /-- IE, FLAGS bit 9 in kernel mode (`10_state.md` R111) -/
  ie      : Bool
  /-- CONTEXT, SPR 15 (`10_state.md` R115) -/
  context : Word
  /-- interrupt return register, SPR 8 (`10_state.md` R128) -/
  irr     : Word
  /-- interrupt cause register, SPR 9 (`10_state.md` R129) -/
  icr     : Word
  /-- interrupt data register, SPR 10 (`10_state.md` R130) -/
  idr     : Word
  /-- interrupt state register, SPR 11 (`10_state.md` R131) -/
  isr     : Word
  /-- machine cycle counter, SPRs 6 and 7 (`10_state.md` R127) -/
  cyc     : BitVec 32
  /-- the register banks by context number, sparse (`60_exceptions.md` R638); an unlisted context holds `Bank.reset` -/
  banks   : List (Nat × Bank)
  /-- physical memory, sparse (`20_memory.md` R204); an unlisted byte reads 0 (entry 6) -/
  mem     : List Host.Cell
  /-- the platform, fixed for the machine: `PHYS_MAP` (`20_memory.md` R204, entry 7) and `BRK_EFFECT`
  (`46_vop.md` R506, entry 19) -/
  platform : Platform
  /-- the console UART (`60_exceptions.md` R650) -/
  uart    : Uart
  /-- the SPI interface and its card (`60_exceptions.md` R660) -/
  spi     : Spi
  /-- the model's own: the physical addresses stores of the run have written (`20_memory.md` R240, entry 18) -/
  stored  : List (Nat × Bool)
  /-- the model's own: the physical addresses whose byte is the one the loader put there, no store since
  (`10_state.md` R155, `70_reset_and_hazards.md` R703, R705; entry 17) -/
  loaded  : List (Nat × Bool)
  /-- the model's own: selects the next free value (entry 20) -/
  draws   : Nat
  /-- the model's own: selects the next step's external inputs (entry 24) -/
  ticks   : Nat
  /-- the model's own: how often BRK invoked the debugger (entry 19) -/
  debugEvents : Nat
  deriving DecidableEq, Repr, Inhabited

/-- A context's registers after reset. `CMMU[0][0]` and `DMMU[0][0]` are 0 (`70_reset_and_hazards.md` R700); every
other value is a DESIGN CHOICE (entries 1 and 2). -/
def Bank.reset : Bank where
  gpr   := Vector.replicate 7 0
  link  := 0
  flags := ⟨false, false, false, false⟩
  cmmu  := Vector.replicate 16 0
  dmmu  := Vector.replicate 16 0

/-- The UART after reset: DESIGN CHOICE (entry 4). -/
def Uart.reset : Uart where
  txq     := []
  rxq     := []
  txovf   := false
  rxunf   := false
  txie    := false
  rxie    := false
  console := []

/-- The SPI interface after reset, no card attached: DESIGN CHOICE (entry 5). -/
def Spi.reset : Spi where
  sel  := 0
  card := { present := false, sectors := 0, phase := .idle 0, received := [], reply := [], store := [] }

/-- The platform the model starts with, all RAM and the emulator's BRK: DESIGN CHOICE (entries 7 and 19). -/
def Platform.reset : Platform where
  regions := []
  brk     := .emulator

/-- The machine right after hardware initialisation (`70_reset_and_hazards.md` R700): kernel mode, pc 0, kernel MMU
slots 0 holding 0, not halted, the cycle counter 0 (R702). The other values are the model's (entries 1 to 7). -/
def State.reset : State where
  pc      := 0
  mode    := .kernel
  halted  := false
  t       := false
  ie      := false
  context := 0
  irr     := 0
  icr     := 0
  idr     := 0
  isr     := 0
  cyc     := 0
  banks   := []
  mem     := []
  platform := Platform.reset
  uart    := Uart.reset
  spi     := Spi.reset
  stored  := []
  loaded  := []
  draws   := 0
  ticks   := 0
  debugEvents := 0

end Sys2Proof.Machine

namespace Sys2Proof.Config

/-- What the state holds after a double-fault reset where `70_reset_and_hazards.md` R704 leaves it unspecified.
Entry 17. -/
opaque afterDoubleFaultReset : Machine.State → Machine.State

end Sys2Proof.Config
end

