-- ==== Sys2Proof/Machine/Memory.lean ====
section
/-! DEFINITION. Sparse data by number in one canonical form (rising keys, no entry equal to what an unlisted key reads
as), physical memory as its main use (`20_memory.md` R204), and sets of physical addresses. -/

namespace Sys2Proof.Machine

variable {β : Type}

/-- The value at key `a`; `d` where `a` is not listed. -/
def sparseGet (d : β) (m : List (Nat × β)) (a : Nat) : β :=
  match m with
  | [] => d
  | (k, v) :: rest => if k = a then v else sparseGet d rest a

/-- `m` with `(a, v)` put before the first key above `a`. -/
def sparseInsert (m : List (Nat × β)) (a : Nat) (v : β) : List (Nat × β) :=
  match m with
  | [] => [(a, v)]
  | (k, w) :: rest => if a < k then (a, v) :: (k, w) :: rest else (k, w) :: sparseInsert rest a v

/-- `m` with key `a` holding `v`; a value equal to what an unlisted key reads as removes the entry. -/
def sparsePut [DecidableEq β] (d : β) (m : List (Nat × β)) (a : Nat) (v : β) : List (Nat × β) :=
  let rest := m.filter (fun p => p.1 != a)
  if v = d then rest else sparseInsert rest a v

/-- The canonical form: keys strictly rising and below `bound`, no value equal to `d`. -/
def sparseWf [DecidableEq β] (d : β) (bound : Nat) (m : List (Nat × β)) : Bool :=
  match m with
  | [] => true
  | (k, v) :: rest =>
    decide (k < bound) && decide (v ≠ d) && rest.all (fun p => decide (k < p.1)) && sparseWf d bound rest

/-- The canonical form of the same readings: every entry of `m` whose key lies below `bound`, put one by one; the
first entry of a key is the one that counts, as in `sparseGet`. -/
def sparseNormal [DecidableEq β] (d : β) (bound : Nat) (m : List (Nat × β)) : List (Nat × β) :=
  match m with
  | [] => []
  | (k, v) :: rest =>
    if k < bound then sparsePut d (sparseNormal d bound rest) k v else sparseNormal d bound rest

/-- What a byte nothing has written reads as: DESIGN CHOICE (entry 6). -/
def unlistedByte : Byte := 0

/-- The number of physical addresses (`20_memory.md` R204). -/
def physBound : Nat := 2 ^ 24

/-- The byte of physical memory at `a`. -/
def memRead (m : List Host.Cell) (a : PhysAddr) : Byte := sparseGet unlistedByte m a.toNat

/-- Physical memory with the byte at `a` set. -/
def memWrite (m : List Host.Cell) (a : PhysAddr) (b : Byte) : List Host.Cell := sparsePut unlistedByte m a.toNat b

/-- Memory is in canonical form. -/
def memWf (m : List Host.Cell) : Bool := sparseWf unlistedByte physBound m

/-- The set of addresses `m` has `a`. -/
def isMarked (m : List (Nat × Bool)) (a : PhysAddr) : Bool := sparseGet false m a.toNat

/-- The set of addresses `m` with `a` put in, or taken out. -/
def setMark (m : List (Nat × Bool)) (a : PhysAddr) (mark : Bool) : List (Nat × Bool) :=
  sparsePut false m a.toNat mark

/-- A set of addresses is in canonical form. -/
def marksWf (m : List (Nat × Bool)) : Bool := sparseWf false physBound m

end Sys2Proof.Machine
end

