-- ==== Sys2Proof/Machine/Devices.lean ====
section
/-! DEFINITION. The emulated console UART (`60_exceptions.md` R650 to R656) and the SPI interface with its SD card
(R660 to R668). -/

namespace Sys2Proof.Machine

/-- The FIFOs hold at most 64 bytes (`60_exceptions.md` R650). -/
def fifoSize : Nat := 64

/-- Bits from `known` where `mask` is 1, from `free` elsewhere: how a register with undefined bits reads. -/
def mixBits (mask known free : Word) : Word := (known &&& mask) ||| (free &&& ~~~mask)

/-- A status word of the UART: bit 0 the sticky bit, bit 7 the enable, bit 15 the FIFO state
(`60_exceptions.md` R653, R654). -/
def statusWord (sticky enable fifo : Bool) : Word :=
  BitVec.ofBool fifo ++ 0#7 ++ BitVec.ofBool enable ++ 0#6 ++ BitVec.ofBool sticky

/-- The bits of a status word that are stated: 0, 7 and 15 (`60_exceptions.md` R653, R654). -/
def statusMask : Word := 0x8081

/-- Writing u0: queue the byte, or lose it and set the overflow bit when the FIFO is full (`60_exceptions.md` R651). -/
def Uart.transmit (u : Uart) (b : Byte) : Uart :=
  if u.txq.length < fifoSize then { u with txq := u.txq ++ [b] } else { u with txovf := true }

/-- Reading u1: the oldest byte, or none and the underflow bit set when the FIFO is empty (`60_exceptions.md` R652). -/
def Uart.receive (u : Uart) : Option Byte × Uart :=
  match u.rxq with
  | [] => (none, { u with rxunf := true })
  | b :: rest => (some b, { u with rxq := rest })

/-- What u2 reads in its stated bits (`60_exceptions.md` R653). -/
def Uart.txStatus (u : Uart) : Word := statusWord u.txovf u.txie u.txq.isEmpty

/-- What u3 reads in its stated bits (`60_exceptions.md` R654). -/
def Uart.rxStatus (u : Uart) : Word := statusWord u.rxunf u.rxie (!u.rxq.isEmpty)

/-- The level of the UART interrupt (`60_exceptions.md` R611). -/
def Uart.pending (u : Uart) : Bool := (u.txie && u.txq.isEmpty) || (u.rxie && !u.rxq.isEmpty)

/-- What the host does between two steps (`60_exceptions.md` R656): it appends typed bytes while there is room, and
shows the oldest transmitted bytes in order. -/
def Uart.hostMoves (u : Uart) (typed : List Byte) (shown : Nat) : Uart :=
  { u with
    rxq := u.rxq ++ typed.take (fifoSize - u.rxq.length)
    txq := u.txq.drop shown
    console := u.console ++ u.txq.take shown }

/-- The card is selected exactly when bit 0 of the select register is 0 (`60_exceptions.md` R662). -/
def Spi.selected (p : Spi) : Bool := !p.sel.getLsbD 0

/-- How the initialisation sequence goes on after a byte that completes `cmd`, if any (`60_exceptions.md` R665): CMD0,
CMD8, CMD58, CMD55, ACMD41 in that order; a departure puts the card in the error state for good. What an initialisation
command sent again, or a command the spec does not list, does to an initialised card is not stated (R666): DESIGN CHOICE,
the card stays initialised (entry 48). -/
def SdPhase.after (p : SdPhase) (cmd : Option SdCommand) : SdPhase :=
  match p, cmd with
  | p, none => p
  | .expectCmd0, some .cmd0 => .expectCmd8
  | .expectCmd8, some .cmd8 => .expectCmd58
  | .expectCmd58, some .cmd58 => .expectCmd55
  | .expectCmd55, some .cmd55 => .expectAcmd41
  | .expectAcmd41, some .acmd41 => .ready
  | .ready, some _ => .ready
  | _, some _ => .failed

/-- The phase in which the first byte after selection is taken: fewer than 10 bytes of 0xFF with the card deselected
are a departure from the required sequence (`60_exceptions.md` R665). -/
def SdPhase.onSelected (p : SdPhase) : SdPhase :=
  match p with
  | .idle n => if n < 10 then .failed else .expectCmd0
  | p => p

/-- The number that bytes sent one after the other stand for, the most significant byte first
(`60_exceptions.md` R668). -/
def msbFirst (bytes : List Byte) : Nat := bytes.foldl (fun n b => 256 * n + b.toNat) 0

/-- The 32-bit argument of a command recognised in the bytes received (`60_exceptions.md` R668); none where its four
bytes are not all there. -/
def SdFrame.argument (f : SdFrame) (received : List Byte) : Option (BitVec 32) :=
  let bytes := (received.drop f.argumentAt).take 4
  if bytes.length = 4 then some (BitVec.ofNat 32 (msbFirst bytes)) else none

/-- The 512 data bytes of a CMD24 recognised in the bytes received; none where they are not all there. -/
def SdFrame.data (f : SdFrame) (received : List Byte) : Option (Vector Byte 512) :=
  let bytes := (received.drop f.dataAt).take 512
  if h : bytes.length = 512 then some ⟨bytes.toArray, by simpa using h⟩ else none

/-- The command recognised in the bytes received, with what it carries (`60_exceptions.md` R663, R666, R668); none where
its parts are not all there. -/
def SdFrame.command (f : SdFrame) (received : List Byte) : Option SdCommand :=
  match f.name with
  | .cmd0 => some .cmd0
  | .cmd8 => some .cmd8
  | .cmd58 => some .cmd58
  | .cmd55 => some .cmd55
  | .acmd41 => some .acmd41
  | .other => some .other
  | .cmd17 => (f.argument received).map .cmd17
  | .cmd24 => match f.argument received, f.data received with
    | some address, some data => some (.cmd24 address data)
    | _, _ => none

/-- The command that the last of the bytes received completes, if any. -/
def sdCommand (received : List Byte) : Option SdCommand := (Config.sdFrame received).bind (·.command received)

/-- The bytes of a response register, the most significant first (`60_exceptions.md` R668). -/
def SdItem.bytes (i : SdItem) : List Byte :=
  match i with
  | .byte v => [v]
  | .half v => [v.extractLsb' 8 8, v.extractLsb' 0 8]
  | .word v => [v.extractLsb' 24 8, v.extractLsb' 16 8, v.extractLsb' 8 8, v.extractLsb' 0 8]

/-- The card's file is at least one sector of 512 bytes and at most 2 GB, read as 2^31 bytes (`60_exceptions.md` R667,
entry 26). -/
def SdCard.sizeWf (k : SdCard) : Bool := !k.present || (decide (1 ≤ k.sectors) && decide (512 * k.sectors ≤ 2 ^ 31))

/-- The byte address is that of a sector of the card: a multiple of 512 with 512 bytes of the file from it on
(`60_exceptions.md` R663, R667). -/
def SdCard.hasSector (k : SdCard) (address : BitVec 32) : Bool :=
  address.toNat % 512 == 0 && decide (address.toNat + 512 ≤ 512 * k.sectors)

/-- The 512 bytes of the sector at a byte address (`60_exceptions.md` R663, R666). -/
def SdCard.sector (k : SdCard) (address : BitVec 32) : List Byte :=
  (List.range 512).map fun i => sparseGet unlistedByte k.store (address.toNat + i)

/-- The card's store with bytes replaced from `base` on (`60_exceptions.md` R663, R667). -/
def sdWriteBytes (store : List (Nat × Byte)) (base : Nat) (bytes : List Byte) : List (Nat × Byte) :=
  match bytes with
  | [] => store
  | b :: rest => sdWriteBytes (sparsePut unlistedByte store base b) (base + 1) rest

/-- The store after a command: only CMD24 changes it, the whole sector at its byte address
(`60_exceptions.md` R663, R666, R667). An address that is no sector's changes nothing: DESIGN CHOICE (entry 26). -/
def SdCard.storeAfter (k : SdCard) (cmd : Option SdCommand) : List (Nat × Byte) :=
  match cmd with
  | some (.cmd24 address data) =>
    if k.hasSector address then sdWriteBytes k.store address.toNat data.toList else k.store
  | _ => k.store

/-- The response bytes after a byte sent: none to a command the spec does not list, so that reads time out ("returning
0xFF to all unexpected commands", `93_implementation_defined.md` U23); the sector's bytes within the response to CMD17
(`60_exceptions.md` R666); else the card's own (entry 26). -/
def SdCard.replyAfter (k : SdCard) (cmd : Option SdCommand) (b : Byte) : List Byte :=
  let items := (Config.sdReply k cmd b).flatMap SdItem.bytes
  match cmd with
  | some .other => []
  | some (.cmd17 address) =>
    if k.hasSector address then items ++ k.sector address ++ (Config.sdReadTail k).flatMap SdItem.bytes else items
  | _ => items

/-- The card's store is in canonical form: only bytes of its sectors, of 512 bytes each (`60_exceptions.md` R663). -/
def SdCard.storeWf (k : SdCard) : Bool := sparseWf unlistedByte (512 * k.sectors) k.store

/-- A byte sent while the card is deselected counts only as one of the leading bytes of 0xFF
(`60_exceptions.md` R665). -/
def SdCard.idleByte (k : SdCard) (b : Byte) : SdCard :=
  match k.phase with
  | .idle n => if b = 0xFF then { k with phase := .idle (n + 1) } else k
  | _ => k

/-- A byte sent to the selected card (`60_exceptions.md` R665, R666). In the error state it is ignored. -/
def SdCard.accept (k : SdCard) (b : Byte) : SdCard :=
  match k.phase.onSelected with
  | .failed => { k with phase := .failed }
  | phase =>
    let received := k.received ++ [b]
    let cmd := sdCommand received
    let store := if phase = .ready then k.storeAfter cmd else k.store
    let moved := { k with phase := phase.after cmd, received := received, store := store }
    { moved with reply := moved.replyAfter cmd b }

/-- Writing s1 (`60_exceptions.md` R662). What deselecting the card does in the middle of a command or with response
bytes unread is not stated: DESIGN CHOICE, the card keeps the bytes it has received and its response (entry 47). -/
def Spi.select (p : Spi) (v : Word) : Spi := { p with sel := v }

/-- Writing s0: one byte to the devices on the bus (`60_exceptions.md` R661). Without a card nothing takes it. -/
def Spi.send (p : Spi) (b : Byte) : Spi :=
  if !p.card.present then p
  else if p.selected then { p with card := p.card.accept b }
  else { p with card := p.card.idleByte b }

/-- Reading s0 (`60_exceptions.md` R661, R664, R665): 0xFF from a card that has no response byte or is in the error
state, selected or not; else the next response byte if the card is selected. `none` where no value is stated: no card is
attached (R667, entry 27), or the card holds response bytes but is not selected (entry 47); nothing is then consumed. -/
def Spi.fetchByte (p : Spi) : Option Byte × Spi :=
  if !p.card.present then (none, p)
  else match p.card.phase, p.card.reply with
    | .failed, _ => (some 0xFF, p)
    | _, [] => (some 0xFF, p)
    | _, b :: rest =>
      if p.selected then (some b, { p with card := { p.card with reply := rest } }) else (none, p)

end Sys2Proof.Machine
end

