-- ==== Sys2Proof/Machine/Flags.lean ====
section
/-! DEFINITION. Every flag computation of the spec: `add16` (`00_scope.md` R16), Z and N from a result (R17), the
logical XOPs (`43_xop_alu.md` R445), the ZOPs (`45_zop.md` R480 to R486), the branch conditions
(`42_base_control.md` R423 to R428). -/

namespace Sys2Proof.Machine

/-- `add16(a, b, cin)` (`00_scope.md` R16): the sum as naturals, narrowed; C the carry out of bit 15, V signed
overflow, Z and N of the result. -/
def add16 (a b : Word) (cin : Bool) : AddResult :=
  let sum := a.toNat + b.toNat + cin.toNat
  let r := BitVec.ofNat 16 sum
  { r := r
    flags :=
      { c := decide (2 ^ 16 ≤ sum)
        z := r == 0
        n := r.msb
        v := a.msb == b.msb && r.msb != a.msb } }

/-- Subtraction `a - b` is `add16(a, ~b, 1)` (`00_scope.md` R16). -/
def sub16 (a b : Word) : AddResult := add16 a (~~~b) true

/-- `setZN`: Z and N from a result, C and V as given (`00_scope.md` R17). -/
def flagsZN (r : Word) (c v : Bool) : Flags := { c := c, z := r == 0, n := r.msb, v := v }

/-- The result of a logical XOP (`43_xop_alu.md` R445 to R447). -/
def logicResult (op : LogicOp) (a b : Word) : Word :=
  match op with
  | .xor => a ^^^ b
  | .or => a ||| b
  | .and => a &&& b

/-- The flags a logical XOP leaves: Z and N from the result, C and V by `LOGIC_CV` (`43_xop_alu.md` R445, D6, D7). -/
def logicFlags (op : LogicOp) (a b : Word) (old : Flags) : Flags :=
  let cv := Config.logicCV op a b old
  flagsZN (logicResult op a b) cv.1 cv.2

/-- The result of an arithmetic ZOP (`45_zop.md` R481 to R486). -/
def zopResult (op : ZopOp) (a : Word) : Word :=
  match op with
  | .not => ~~~a
  | .neg => 0 - a
  | .dub => a.extractLsb' 8 8 ++ a.extractLsb' 8 8
  | .sxt => (a.extractLsb' 0 8).signExtend 16
  | .sra => a.sshiftRight 1
  | .srl => a >>> 1

/-- The flags an arithmetic ZOP leaves: SXT clears C and sets Z from the result (`45_zop.md` R484), SRA and SRL set C
to the bit shifted out (R485, R486); every other one is `ZOP_FLAGS` (R480, D8). -/
def zopFlags (op : ZopOp) (a : Word) (old : Flags) : Flags :=
  let free := Config.zopFlags op a old
  match op with
  | .not | .neg | .dub => free
  | .sxt => { free with c := false, z := zopResult .sxt a == 0 }
  | .sra | .srl => { free with c := a.getLsbD 0 }

/-- The condition of BRSGE (`42_base_control.md` R427). -/
def Flags.signedGe (f : Flags) : Bool := f.n == f.v

/-- The four flags as FLAGS shows them: C in bit 0, Z, N, V in bit 3 (`10_state.md` R108, R125). -/
def Flags.toBits (f : Flags) : BitVec 4 :=
  BitVec.ofBool f.v ++ BitVec.ofBool f.n ++ BitVec.ofBool f.z ++ BitVec.ofBool f.c

/-- The four flags from bits 3:0 of a value written to FLAGS (`10_state.md` R125). -/
def Flags.ofWord (w : Word) : Flags :=
  { c := w.getLsbD 0, z := w.getLsbD 1, n := w.getLsbD 2, v := w.getLsbD 3 }

end Sys2Proof.Machine
end

