-- ==== Sys2Proof/Machine/Operands.lean ====
section
/-! DEFINITION. Every operand form: the current context's registers with field 0 as zero and black hole (`x`) or as the
link register (`xl`) (`00_scope.md` R14, `10_state.md` R104), the flags, and the addresses instructions form. -/

namespace Sys2Proof.Machine

/-- `NCTX` (`10_state.md` R115): at least 256. -/
def nctx : Nat := Config.extraContexts + 256

/-- The current context: 0 in kernel mode, CONTEXT in user mode (`10_state.md` R116). -/
def State.cur (s : State) : Nat :=
  match s.mode with
  | .kernel => 0
  | .user => s.context.toNat

/-- The registers of context `c` (`10_state.md` R102). -/
def State.bankOf (s : State) (c : Nat) : Bank := sparseGet Bank.reset s.banks c

/-- The state with the registers of context `c` replaced. -/
def State.setBankOf (s : State) (c : Nat) (b : Bank) : State :=
  { s with banks := sparsePut Bank.reset s.banks c b }

/-- The register banks are in canonical form: only contexts that exist, none listed that holds its reset value. -/
def banksWf (banks : List (Nat × Bank)) : Bool := sparseWf Bank.reset nctx banks

/-- The registers of the current context. -/
def State.bank (s : State) : Bank := s.bankOf s.cur

/-- The state with the registers of the current context replaced. -/
def State.setBank (s : State) (b : Bank) : State := s.setBankOf s.cur b

/-- General register `i` of a bank; register 0 is not storage and reads 0 (`10_state.md` R101). -/
def Bank.get (b : Bank) (i : RegField) : Word :=
  if i = 0#3 then 0 else b.gpr[i.toNat - 1]'(by have := i.isLt; omega)

/-- A bank with general register `i` set; a write to register 0 is discarded (`10_state.md` R101). -/
def Bank.set (b : Bank) (i : RegField) (v : Word) : Bank :=
  if i = 0#3 then b else { b with gpr := b.gpr.set (i.toNat - 1) v (by have := i.isLt; omega) }

/-- `x[i]` as a source (`00_scope.md` R14). -/
def State.reg (s : State) (i : RegField) : Word := s.bank.get i

/-- `x[i] <- v` (`00_scope.md` R14). -/
def State.setReg (s : State) (i : RegField) (v : Word) : State := s.setBank (s.bank.set i v)

/-- LINK of the current context (`10_state.md` R112). -/
def State.link (s : State) : Word := s.bank.link

/-- LINK of the current context set. -/
def State.setLink (s : State) (v : Word) : State := s.setBank { s.bank with link := v }

/-- `xl[i]` as a source: field 0 is LINK (`00_scope.md` R14). -/
def State.regL (s : State) (i : RegField) : Word := if i = 0#3 then s.link else s.reg i

/-- `xl[i] <- v`: field 0 is LINK (`00_scope.md` R14). -/
def State.setRegL (s : State) (i : RegField) (v : Word) : State := if i = 0#3 then s.setLink v else s.setReg i v

/-- The flags of the current context (`10_state.md` R108). -/
def State.flags (s : State) : Flags := s.bank.flags

/-- `setflags` (`00_scope.md` R17). -/
def State.setFlags (s : State) (f : Flags) : State := s.setBank { s.bank with flags := f }

/-- `pc <- pc + 2`, modulo 2^16 (`10_state.md` R106, R107). -/
def State.advance (s : State) : State := { s with pc := s.pc + 2 }

/-- `pc <- t`. -/
def State.jump (s : State) (t : Word) : State := { s with pc := t }

/-- The effective address `x[rB] + sext_16(imm7)`, modulo 2^16 (`40_base_memory.md` R400). -/
def State.effectiveAddress (s : State) (rB : RegField) (imm7 : BitVec 7) : Word := s.reg rB + imm7.signExtend 16

/-- Bit 0 of an address is 1 (`20_memory.md` R213, R214). -/
def oddAddress (va : Word) : Bool := va.getLsbD 0

/-- The branch target `pc + 2 + sext_16(imm10)`, modulo 2^16 (`42_base_control.md` R420). -/
def State.branchTarget (s : State) (imm10 : BitVec 10) : Word := s.pc + 2 + imm10.signExtend 16

/-- The JAL target: bits 15:6 of the register, then the 6-bit immediate (`42_base_control.md` R429). -/
def jalTarget (source : Word) (imm6 : BitVec 6) : Word := source.extractLsb' 6 10 ++ imm6

/-- The LUI value: the 10-bit immediate in bits 15:6, zeros below (`41_base_alu_imm.md` R411). -/
def luiValue (imm10 : BitVec 10) : Word := imm10 ++ 0#6

end Sys2Proof.Machine
end

