-- ==== Sys2Proof/Machine/Ops.lean ====
section
/-! DEFINITION. The shared operations: free values, the outcome of an operation, translation and memory access
(`20_memory.md` R222 to R226), taking an exception and returning from one (`60_exceptions.md` R620 to R630), the
interrupt, and what time and the host do between steps. -/

namespace Sys2Proof.Machine

/-- The outcome of a step (Host/Core.lean) on this machine. -/
abbrev Out := Host.Outcome State Fault Refusal

/-- What an operation inside an instruction answers (`00_scope.md` R18): a value, a TFE raised, or an outcome the spec
leaves without a successor. -/
inductive Action (α : Type) where
  | ok (a : α)
  | trap (c : Cause)
  | stuck (f : Fault)
  deriving DecidableEq, Repr

/-- Go on with the value; a TFE or a stop ends the instruction (`60_exceptions.md` R615). -/
def Action.bind {α β : Type} (x : Action α) (f : α → Action β) : Action β :=
  match x with
  | .ok a => f a
  | .trap c => .trap c
  | .stuck r => .stuck r

/-! ### Free values -/

/-- The next free value (`00_scope.md` R19). -/
def State.free (s : State) : Word := Config.draw s.draws

/-- The state after a free value has been used: two draws need not agree. -/
def State.drawn (s : State) : State := { s with draws := s.draws + 1 }

/-! ### Translation -/

/-- The permission a two-bit `PP` field stands for (`20_memory.md` R221). -/
def permissionOf (pp : BitVec 2) : Permission :=
  match pp.toNat with
  | 0 => .all
  | 1 => .readOnly
  | 2 => .reserved
  | _ => .invalid

/-- The fields of an MMU register under a layout (`20_memory.md` R221). -/
def mmuFields (l : MmuLayout) (m : Word) : MmuEntry :=
  match l with
  | .frameLow => { frame := m.extractLsb' 0 12, perm := permissionOf (m.extractLsb' 12 2) }
  | .frameHigh => { frame := m.extractLsb' 4 12, perm := permissionOf (m.extractLsb' 0 2) }

/-- The fields of an MMU register. "The value 0x0000 means F = 0, PP = 00 under both" layouts (`20_memory.md` R221), so
that value is read without asking which layout it is. -/
def mmuEntry (m : Word) : MmuEntry :=
  if m = 0#16 then { frame := 0, perm := .all } else mmuFields Config.mmuLayout m

/-- The permission check (`20_memory.md` R223). -/
def verdict (p : Permission) (a : Access) : Verdict :=
  match p, a with
  | .all, _ => .allowed
  | .readOnly, .store => .pageFault
  | .readOnly, _ => .allowed
  | .reserved, _ => .unspecified
  | .invalid, _ => .pageFault

/-- The MMU register that maps `va` in the current context (`20_memory.md` R222). -/
def State.mmuRegister (s : State) (space : Space) (va : Word) : Word :=
  let slot := va.extractLsb' 12 4
  match space with
  | .code => s.bank.cmmu[slot.toNat]'(slot.isLt)
  | .data => s.bank.dmmu[slot.toNat]'(slot.isLt)

/-- The physical address `va` maps to, permission aside (`20_memory.md` R222). -/
def State.physical (s : State) (space : Space) (va : Word) : PhysAddr :=
  (mmuEntry (s.mmuRegister space va)).frame ++ va.extractLsb' 0 12

/-- Translation with its permission check (`20_memory.md` R222, R223). -/
def State.translate (s : State) (space : Space) (va : Word) (access : Access) : Action PhysAddr :=
  match verdict (mmuEntry (s.mmuRegister space va)).perm access with
  | .allowed => .ok (s.physical space va)
  | .pageFault => .trap (.pageFault space va access)
  | .unspecified => .stuck .reservedPp

/-! ### Physical memory -/

/-- What the first region that holds the address says is there; RAM where none does (`20_memory.md` R204, entry 7). -/
def physKind (regions : List Region) (a : PhysAddr) : PhysKind :=
  match regions with
  | [] => .ram
  | r :: rest => if r.base ≤ a.toNat ∧ a.toNat < r.base + r.size then r.kind else physKind rest a

/-- The byte an access finds at a physical address: memory's, or what a memory-mapped device gives, which is a free
value (`60_exceptions.md` R669, `00_scope.md` R19, entry 49). -/
def State.byteThere (s : State) (access : Access) (a : PhysAddr) : Byte :=
  match physKind s.platform.regions a with
  | .device => Config.deviceByte s.ticks s.draws access a
  | .ram | .rom | .nothing => memRead s.mem a

/-- A byte read at a physical address, where `PHYS_MAP` has something (`20_memory.md` R204, R224). -/
def State.physRead (s : State) (access : Access) (a : PhysAddr) : Action Byte :=
  match physKind s.platform.regions a with
  | .ram | .rom | .device => .ok (s.byteThere access a)
  | .nothing => .stuck .noPhysical

/-- The state after a byte has been stored at a physical address: RAM holds it; a memory-mapped device has taken it, and
no memory has changed (`60_exceptions.md` R669, entry 49). The address is marked as stored to
(`20_memory.md` R240), and its byte is no longer the loader's (`70_reset_and_hazards.md` R703). -/
def State.putByte (s : State) (a : PhysAddr) (b : Byte) : State :=
  { s with
    mem := if physKind s.platform.regions a = .ram then memWrite s.mem a b else s.mem
    stored := setMark s.stored a true
    loaded := setMark s.loaded a false }

/-- A byte stored at a physical address, where `PHYS_MAP` has RAM or a device (`20_memory.md` R204, R225). -/
def State.physWrite (s : State) (a : PhysAddr) (b : Byte) : Action State :=
  match physKind s.platform.regions a with
  | .ram | .device => .ok (s.putByte a b)
  | .rom => .stuck .romStore
  | .nothing => .stuck .noPhysical

/-- The word at an even physical address, little-endian (`20_memory.md` R210, R224). -/
def State.physReadWord (s : State) (access : Access) (a : PhysAddr) : Action Word :=
  (s.physRead access a).bind fun lo => (s.physRead access (a + 1#24)).bind fun hi => .ok (wordOfBytes lo hi)

/-- The word at an even physical address stored, little-endian (`20_memory.md` R210, R225). -/
def State.physWriteWord (s : State) (a : PhysAddr) (v : Word) : Action State :=
  (s.physWrite a (lowByte v)).bind fun s' => s'.physWrite (a + 1#24) (highByte v)

/-- `MemRead(space, va, 1)` for a load (`20_memory.md` R224). -/
def State.loadByte (s : State) (va : Word) : Action Byte :=
  (s.translate .data va .load).bind (s.physRead .load)

/-- `MemRead(space, va, 2)` (`20_memory.md` R224); `access` is `load` for data, `codeRead` for code. -/
def State.loadWord (s : State) (space : Space) (va : Word) (access : Access) : Action Word :=
  if oddAddress va then .stuck .misaligned else (s.translate space va access).bind (s.physReadWord access)

/-- `MemWrite(Data, va, 1, b)` (`20_memory.md` R225). -/
def State.storeByte (s : State) (va : Word) (b : Byte) : Action State :=
  (s.translate .data va .store).bind fun a => s.physWrite a b

/-- `MemWrite(Data, va, 2, v)` (`20_memory.md` R225). -/
def State.storeWord (s : State) (va : Word) (v : Word) : Action State :=
  if oddAddress va then .stuck .misaligned else (s.translate .data va .store).bind fun a => s.physWriteWord a v

/-- The fetch of a word a store of the run has written has no stated result unless `IFETCH_COHERENT`
(`20_memory.md` R240). -/
def State.fetchIsStale (s : State) (a : PhysAddr) : Bool :=
  (isMarked s.stored a || isMarked s.stored (a + 1#24)) && !Config.ifetchCoherent

/-- `Fetch(va)` (`20_memory.md` R226, R240). -/
def State.fetch (s : State) (va : Word) : Action Word :=
  if oddAddress va then .stuck .oddPc
  else (s.translate .code va .fetch).bind fun a =>
    if s.fetchIsStale a then .stuck .staleFetch else s.physReadWord .fetch a

/-! ### Taking an exception -/

/-- `ISR_ENC` (`60_exceptions.md` R626). -/
def isrEnc (m : Mode) : Word :=
  match m with
  | .kernel => Config.isrEncoding.kernel
  | .user => Config.isrEncoding.user

/-- `ICR_CODE` (`60_exceptions.md` R624). -/
def icrCode (c : Cause) : Word := Config.icrCoding.code c

/-- What IRR receives: the address after a SYS, else the pc (`60_exceptions.md` R623). -/
def State.returnPc (s : State) (c : Cause) : Word :=
  match c with
  | .sys _ => s.pc + 2
  | .illegal _ | .pageFault _ _ _ | .traceTrap | .uart => s.pc

/-- What IDR receives: the faulting virtual address, else a draw (`60_exceptions.md` R625). -/
def State.faultData (s : State) (c : Cause) : Word :=
  match c with
  | .pageFault _ va _ => va
  | .illegal _ | .sys _ | .traceTrap | .uart => s.free

/-- A state halted by a double fault: the trap registers hold no known value afterwards, nor is the pc of the halted
state stated (`60_exceptions.md` R629, R640). -/
def State.haltDouble (s : State) : State :=
  { s with
    halted := true
    irr := Config.draw s.draws
    icr := Config.draw (s.draws + 1)
    idr := Config.draw (s.draws + 2)
    isr := Config.draw (s.draws + 3)
    pc := Config.draw (s.draws + 4)
    draws := s.draws + 5 }

/-- A bank with both MMU slots 0 holding 0 (`70_reset_and_hazards.md` R700). -/
def Bank.withSlotsZero (b : Bank) : Bank := { b with cmmu := b.cmmu.set 0 0, dmmu := b.dmmu.set 0 0 }

/-- The byte at `a` is one that a ROM provides or the loader put there (`70_reset_and_hazards.md` R703). -/
def State.isProvided (s : State) (a : PhysAddr) : Bool :=
  decide (physKind s.platform.regions a = .rom) || isMarked s.loaded a

/-- Physical memory after a reset that leaves `anything` in it: what a ROM or the loader put there stands as before
(`10_state.md` R155, `70_reset_and_hazards.md` R703). -/
def State.memAfterReset (s : State) (anything : List Host.Cell) : List Host.Cell :=
  let kept (c : Host.Cell) : Bool := s.isProvided (BitVec.ofNat 24 c.1)
  sparseNormal unlistedByte physBound (s.mem.filter kept ++ anything.filter fun c => !kept c)

/-- The reset a double fault makes (`70_reset_and_hazards.md` R700, R704): the items R700 names take its values,
everything R703 lists is unspecified again, and what R703 excepts or no reset can change stays: the bytes a ROM or the
loader provided, the platform, the card's file, what the host has already seen. -/
def State.resetAgain (s : State) : State :=
  let u := Config.afterDoubleFaultReset s
  let banks := sparseNormal Bank.reset nctx u.banks
  { u with
    mode := .kernel
    pc := 0
    halted := false
    context := if u.context.toNat < nctx then u.context else 0
    banks := sparsePut Bank.reset banks 0 (sparseGet Bank.reset banks 0).withSlotsZero
    mem := s.memAfterReset u.mem
    platform := s.platform
    uart := { u.uart with txq := u.uart.txq.take fifoSize, rxq := u.uart.rxq.take fifoSize, console := s.uart.console }
    spi := { u.spi with card := { u.spi.card with present := s.spi.card.present, sectors := s.spi.card.sectors, store := s.spi.card.store } }
    stored := []
    loaded := s.loaded
    draws := s.draws + 1
    ticks := s.ticks
    debugEvents := s.debugEvents }

/-- A double fault (`60_exceptions.md` R629). -/
def State.doubleFault (s : State) : State :=
  if Config.doubleFaultResets then s.resetAgain else s.haltDouble

/-- A TFE in kernel mode with interrupts disabled is a double fault (`60_exceptions.md` R629). -/
def State.isDoubleFault (s : State) (c : Cause) : Bool := c.isTfe && s.mode == .kernel && !s.ie

/-- Trap entry without the double-fault test (`60_exceptions.md` R620). -/
def State.enterKernel (s : State) (c : Cause) : State :=
  { s with
    isr := isrEnc s.mode
    irr := s.returnPc c
    icr := icrCode c
    idr := s.faultData c
    mode := .kernel
    ie := false
    pc := vectorAddress (vectorOf c)
    draws := s.draws + 1 }

/-- Taking an exception, for every cause (`60_exceptions.md` R620): the one entry that interrupts, faults, SYS and trace
traps share. -/
def State.raise (s : State) (c : Cause) : State :=
  if s.isDoubleFault c then s.doubleFault else s.enterKernel c

/-- The mode a value of ISR encodes (`46_vop.md` R507). -/
def modeOfIsr (w : Word) : Option Mode :=
  if w = isrEnc .user then some .user else if w = isrEnc .kernel then some .kernel else none

/-- Return from an exception (`60_exceptions.md` R630, `46_vop.md` R507). -/
def State.returnFromTrap (s : State) : Action State :=
  match modeOfIsr s.isr with
  | none => .stuck .isrValue
  | some m =>
    if m = .user ∧ s.context = 0#16 then .stuck .contextZero
    else .ok { s with pc := s.irr, mode := m, ie := true }

/-- How an instruction ends (`00_scope.md` R18): it completes, raises a TFE with none of its writes done, or has no
successor. -/
def State.finish (s : State) (x : Action State) : Out :=
  match x with
  | .ok t => .next t
  | .trap c => .next (s.raise c)
  | .stuck f => .fault f

/-! ### Interrupts, time and the host -/

/-- A pending interrupt is taken when IE = 1 (`60_exceptions.md` R612, R613). -/
def State.interruptDue (s : State) : Bool := s.ie && s.uart.pending

/-- What happens before a step: the host's moves (`60_exceptions.md` R656) and the cycle counter's advance by at least
one (R645). -/
def State.tick (s : State) : State :=
  { s with
    uart := s.uart.hostMoves (Config.typed s.ticks) (Config.shown s.ticks)
    cyc := s.cyc + BitVec.ofNat 32 (Config.extraCycles s.ticks + 1)
    ticks := s.ticks + 1 }

/-- A step of a halted machine (`60_exceptions.md` R640): nothing of the processor changes; the devices' host side goes
on, and whether the cycle counter runs is not stated. -/
def State.idle (s : State) : State :=
  { s with
    uart := s.uart.hostMoves (Config.typed s.ticks) (Config.shown s.ticks)
    cyc := s.cyc + BitVec.ofNat 32 (Config.extraCycles s.ticks)
    ticks := s.ticks + 1 }

end Sys2Proof.Machine
end

