-- ==== Sys2Proof/Machine/Base.lean ====
section
/-! DEFINITION. The base instructions: loads and stores (`40_base_memory.md`), ADI and LUI (`41_base_alu_imm.md`),
branches and JAL (`42_base_control.md`). -/

namespace Sys2Proof.Machine

/-- LDW rA, rB, imm7 (`40_base_memory.md` R401). -/
def execLdw (rA rB : RegField) (imm7 : BitVec 7) (s : State) : Out :=
  s.finish ((s.loadWord .data (s.effectiveAddress rB imm7) .load).bind fun v => .ok (s.setReg rA v).advance)

/-- LDB rA, rB, imm7: the byte sign-extended (`40_base_memory.md` R402). -/
def execLdb (rA rB : RegField) (imm7 : BitVec 7) (s : State) : Out :=
  s.finish ((s.loadByte (s.effectiveAddress rB imm7)).bind fun b => .ok (s.setReg rA (b.signExtend 16)).advance)

/-- STW rA, rB, imm7 (`40_base_memory.md` R403). -/
def execStw (rA rB : RegField) (imm7 : BitVec 7) (s : State) : Out :=
  s.finish ((s.storeWord (s.effectiveAddress rB imm7) (s.reg rA)).bind fun t => .ok t.advance)

/-- STB rA, rB, imm7: the low byte (`40_base_memory.md` R404). -/
def execStb (rA rB : RegField) (imm7 : BitVec 7) (s : State) : Out :=
  s.finish ((s.storeByte (s.effectiveAddress rB imm7) (lowByte (s.reg rA))).bind fun t => .ok t.advance)

/-- ADI rA, rB, imm7: rA 0 is LINK, rB 0 is zero; all four flags (`41_base_alu_imm.md` R410). -/
def execAdi (rA rB : RegField) (imm7 : BitVec 7) (s : State) : Out :=
  let f := add16 (s.reg rB) (imm7.signExtend 16) false
  .next ((s.setRegL rA f.r).setFlags f.flags).advance

/-- LUI rA, imm10: rA 0 is LINK (`41_base_alu_imm.md` R411). -/
def execLui (rA : RegField) (imm10 : BitVec 10) (s : State) : Out := .next (s.setRegL rA (luiValue imm10)).advance

/-- A branch: to its target if the condition holds, else to the next instruction (`42_base_control.md` R420). -/
def State.branchIf (s : State) (taken : Bool) (imm10 : BitVec 10) : State :=
  if taken then s.jump (s.branchTarget imm10) else s.advance

/-- BR imm10 (`42_base_control.md` R421). -/
def execBr (imm10 : BitVec 10) (s : State) : Out := .next (s.branchIf true imm10)

/-- BRL imm10: LINK receives the address of the next instruction (`42_base_control.md` R422). -/
def execBrl (imm10 : BitVec 10) (s : State) : Out := .next ((s.setLink (s.pc + 2)).branchIf true imm10)

/-- BRZ imm10 (`42_base_control.md` R423). -/
def execBrz (imm10 : BitVec 10) (s : State) : Out := .next (s.branchIf s.flags.z imm10)

/-- BRNZ imm10 (`42_base_control.md` R424). -/
def execBrnz (imm10 : BitVec 10) (s : State) : Out := .next (s.branchIf (!s.flags.z) imm10)

/-- BRC imm10 (`42_base_control.md` R425). -/
def execBrc (imm10 : BitVec 10) (s : State) : Out := .next (s.branchIf s.flags.c imm10)

/-- BRNC imm10 (`42_base_control.md` R426). -/
def execBrnc (imm10 : BitVec 10) (s : State) : Out := .next (s.branchIf (!s.flags.c) imm10)

/-- BRSGE imm10 (`42_base_control.md` R427). -/
def execBrsge (imm10 : BitVec 10) (s : State) : Out := .next (s.branchIf s.flags.signedGe imm10)

/-- BRSLT imm10 (`42_base_control.md` R428). -/
def execBrslt (imm10 : BitVec 10) (s : State) : Out := .next (s.branchIf (!s.flags.signedGe) imm10)

/-- JAL rA, rB, imm6: fields 0 are LINK; the source is read before the return address is written
(`42_base_control.md` R429). -/
def execJal (rA rB : RegField) (imm6 : BitVec 6) (s : State) : Out :=
  .next ((s.setRegL rA (s.pc + 2)).jump (jalTarget (s.regL rB) imm6))

end Sys2Proof.Machine
end

