-- ==== Sys2Proof/Machine/Vop.lean ====
section
/-! DEFINITION. The zero-operand instructions (`46_vop.md`) and the all-zero word (`30_encoding.md` R321 (a)). -/

namespace Sys2Proof.Machine

/-- An instruction only kernel mode may execute; the privilege check comes first (`46_vop.md` R500). -/
def State.privileged (s : State) (x : Action State) : Out :=
  match s.mode with
  | .user => .next (s.raise (.illegal .privileged))
  | .kernel => s.finish x

/-- CCF: clear carry (`46_vop.md` R501). -/
def execCcf (s : State) : Out := .next (s.setFlags { s.flags with c := false }).advance

/-- SCF: set carry (`46_vop.md` R502). -/
def execScf (s : State) : Out := .next (s.setFlags { s.flags with c := true }).advance

/-- DI: disable interrupts (`46_vop.md` R503). -/
def execDi (s : State) : Out := s.privileged (.ok { s.advance with ie := false })

/-- EI: enable interrupts (`46_vop.md` R504). -/
def execEi (s : State) : Out := s.privileged (.ok { s.advance with ie := true })

/-- HLT: the processor stops; the pc of the halted state is not stated (`46_vop.md` R505). -/
def execHlt (s : State) : Out := s.privileged (.ok { s.drawn with halted := true, pc := s.free })

/-- BRK by `BRK_EFFECT`: the emulator's invokes the debugger and goes on; not given, the spec's default, it has no
effect the spec states (`46_vop.md` R506, D29; entry 19). -/
def execBrk (s : State) : Out :=
  match s.platform.brk with
  | .emulator => .next { s.advance with debugEvents := s.debugEvents + 1 }
  | .notGiven => .fault .brkEffect

/-- RTI: return to the mode ISR encodes, the address IRR holds, interrupts enabled (`46_vop.md` R507). -/
def execRti (s : State) : Out := s.privileged s.returnFromTrap

/-- DIE: always illegal (`46_vop.md` R508). -/
def execDie (s : State) : Out := .next (s.raise (.illegal .die))

/-- The word 0x0000: always illegal (`30_encoding.md` R321 (a)). -/
def execIllegalZero (s : State) : Out := .next (s.raise (.illegal .zeroWord))

end Sys2Proof.Machine
end

