-- ==== Sys2Proof/Machine/Xop.lean ====
section
/-! DEFINITION. The three-operand ALU instructions (`43_xop_alu.md`). Field 0 is zero as a source and discards as a
destination; the flags are written all the same (R440). -/

namespace Sys2Proof.Machine

/-- An adder's result to rA and its flags (`43_xop_alu.md` R440 to R444). -/
def State.writeSum (s : State) (rA : RegField) (f : AddResult) : State := ((s.setReg rA f.r).setFlags f.flags).advance

/-- SBB: `rB - rC - (1 - C)` (`43_xop_alu.md` R441). -/
def execSbb (rA rB rC : RegField) (s : State) : Out := .next (s.writeSum rA (add16 (s.reg rB) (~~~(s.reg rC)) s.flags.c))

/-- ADC: add with carry (`43_xop_alu.md` R442). -/
def execAdc (rA rB rC : RegField) (s : State) : Out := .next (s.writeSum rA (add16 (s.reg rB) (s.reg rC) s.flags.c))

/-- SUB: `rB - rC` (`43_xop_alu.md` R443). -/
def execSub (rA rB rC : RegField) (s : State) : Out := .next (s.writeSum rA (sub16 (s.reg rB) (s.reg rC)))

/-- ADD (`43_xop_alu.md` R444). -/
def execAdd (rA rB rC : RegField) (s : State) : Out := .next (s.writeSum rA (add16 (s.reg rB) (s.reg rC) false))

/-- A logical XOP: result, Z and N stated, C and V by `LOGIC_CV` (`43_xop_alu.md` R445 to R447). -/
def State.logic (s : State) (op : LogicOp) (rA rB rC : RegField) : State :=
  let a := s.reg rB
  let b := s.reg rC
  ((s.setReg rA (logicResult op a b)).setFlags (logicFlags op a b s.flags)).advance

/-- XOR (`43_xop_alu.md` R445). -/
def execXor (rA rB rC : RegField) (s : State) : Out := .next (s.logic .xor rA rB rC)

/-- OR (`43_xop_alu.md` R446). -/
def execOr (rA rB rC : RegField) (s : State) : Out := .next (s.logic .or rA rB rC)

/-- AND (`43_xop_alu.md` R447). -/
def execAnd (rA rB rC : RegField) (s : State) : Out := .next (s.logic .and rA rB rC)

end Sys2Proof.Machine
end

