-- ==== Sys2Proof/Machine/Special.lean ====
section
/-! DEFINITION. The special registers: number to register, `SPRRead` and `SPRWrite` (`10_state.md` R120 to R142,
`60_exceptions.md` R651 to R654, R661, R662). -/

namespace Sys2Proof.Machine

/-- The special register of a number 0 to 127 (`10_state.md` R142). -/
def Spr.ofNumber (k : BitVec 7) : Spr :=
  let n := k.toNat
  let slot := k.extractLsb' 0 4
  if n = 0 then .link
  else if n = 1 then .flags
  else if n < 6 then .undefined
  else if n = 6 then .cycLo
  else if n = 7 then .cycHi
  else if n = 8 then .irr
  else if n = 9 then .icr
  else if n = 10 then .idr
  else if n = 11 then .isr
  else if n < 15 then .reserved
  else if n = 15 then .context
  else if n < 24 then .userGen (k.extractLsb' 0 3)
  else if n < 32 then .userReserved
  else if n < 48 then .userCode slot
  else if n < 64 then .userData slot
  else if n < 80 then .kernCode slot
  else if n < 96 then .kernData slot
  else if n = 96 then .uartTx
  else if n = 97 then .uartRx
  else if n = 98 then .uartTxStatus
  else if n = 99 then .uartRxStatus
  else if n = 100 then .spiData
  else if n = 101 then .spiSelect
  else .unassigned

/-- The special-register number an instruction gives (`10_state.md` R121, R122): above 127 nothing is stated; in user
mode 8 to 127 are illegal. This check comes before any memory access (`60_exceptions.md` R615). -/
def State.sprNumber (s : State) (k : Word) : Action Spr :=
  if 127 < k.toNat then .stuck .sprRange
  else if s.mode = .user ∧ 8 ≤ k.toNat then .trap (.illegal .userSpr)
  else .ok (Spr.ofNumber (k.extractLsb' 0 7))

/-- The bits of FLAGS the current mode sees (`10_state.md` R125): 3:0, in kernel mode also T and IE. -/
def State.flagsMask (s : State) : Word :=
  match s.mode with
  | .kernel => 0x030F
  | .user => 0x000F

/-- FLAGS as kernel mode sees it, undefined bits aside (`10_state.md` R125). -/
def State.flagsWord (s : State) : Word :=
  0#6 ++ BitVec.ofBool s.ie ++ BitVec.ofBool s.t ++ 0#4 ++ s.flags.toBits

/-- A write of FLAGS (`10_state.md` R125): bits 3:0 set the flags; bit 8 sets T in kernel mode; bit 9 and the undefined
bits are ignored. -/
def State.writeFlags (s : State) (v : Word) : State :=
  let s' := s.setFlags (Flags.ofWord v)
  match s.mode with
  | .kernel => { s' with t := v.getLsbD 8 }
  | .user => s'

/-- A read that answers `known` in the bits of `mask` and a draw elsewhere. -/
def State.readMixed (s : State) (mask known : Word) : Word × State := (mixBits mask known s.free, s.drawn)

/-- The bank of the user context CONTEXT names. With CONTEXT = 0 nothing is stated of the registers 16 to 63
(`10_state.md` R134, R136, R137, `44_yop.md` R461, D24). -/
def State.userBank (s : State) : Action Bank :=
  if s.context = 0#16 then .stuck .contextZero else .ok (s.bankOf s.context.toNat)

/-- `SPRRead` past the number check (`10_state.md` R124 to R140): the value and the state after it. -/
def State.readSpr (s : State) (r : Spr) : Action (Word × State) :=
  match r with
  | .link => .ok (s.link, s)
  | .flags => .ok (s.readMixed s.flagsMask s.flagsWord)
  | .undefined => .ok (s.free, s.drawn)
  | .cycLo => .ok (s.cyc.extractLsb' 0 16, s)
  | .cycHi => .ok (s.cyc.extractLsb' 16 16, s)
  | .irr => .ok (s.irr, s)
  | .icr => .ok (s.icr, s)
  | .idr => .ok (s.idr, s)
  | .isr => .ok (s.isr, s)
  | .reserved => .ok (s.free, s.drawn)
  | .context => .ok (s.context, s)
  | .userGen i => if i = 0#3 then .stuck .userR0 else s.userBank.bind fun b => .ok (b.get i, s)
  | .userReserved => s.userBank.bind fun _ => .ok (s.free, s.drawn)
  | .userCode slot => s.userBank.bind fun b => .ok (b.cmmu[slot.toNat]'(slot.isLt), s)
  | .userData slot => s.userBank.bind fun b => .ok (b.dmmu[slot.toNat]'(slot.isLt), s)
  | .kernCode slot => .ok ((s.bankOf 0).cmmu[slot.toNat]'(slot.isLt), s)
  | .kernData slot => .ok ((s.bankOf 0).dmmu[slot.toNat]'(slot.isLt), s)
  | .uartTx => .ok (s.free, s.drawn)
  | .uartRx =>
    match s.uart.receive with
    | (none, u) => .ok (0, { s with uart := u })
    | (some b, u) => .ok (mixBits 0x00FF (b.zeroExtend 16) s.free, { s.drawn with uart := u })
  | .uartTxStatus =>
    .ok (mixBits statusMask s.uart.txStatus s.free, { s.drawn with uart := { s.uart with txovf := false } })
  | .uartRxStatus =>
    .ok (mixBits statusMask s.uart.rxStatus s.free, { s.drawn with uart := { s.uart with rxunf := false } })
  | .spiData =>
    match s.spi.fetchByte with
    | (none, p) => .ok (s.free, { s.drawn with spi := p })
    | (some b, p) => .ok (mixBits 0x00FF (b.zeroExtend 16) s.free, { s.drawn with spi := p })
  | .spiSelect => .ok (s.free, s.drawn)
  | .unassigned => .ok (s.free, s.drawn)

/-- `SPRWrite` past the number check (`10_state.md` R124 to R140). "Writes are ignored" completes and changes
nothing. -/
def State.writeSpr (s : State) (r : Spr) (v : Word) : Action State :=
  match r with
  | .link => .ok (s.setLink v)
  | .flags => .ok (s.writeFlags v)
  | .irr => .ok { s with irr := v }
  | .isr => .ok { s with isr := v }
  | .context => if v.toNat < nctx then .ok { s with context := v } else .stuck .contextRange
  | .userGen i =>
    if i = 0#3 then .stuck .userR0 else s.userBank.bind fun b => .ok (s.setBankOf s.context.toNat (b.set i v))
  | .userReserved => s.userBank.bind fun _ => .ok s
  | .userCode slot =>
    s.userBank.bind fun b =>
      .ok (s.setBankOf s.context.toNat { b with cmmu := b.cmmu.set slot.toNat v slot.isLt })
  | .userData slot =>
    s.userBank.bind fun b =>
      .ok (s.setBankOf s.context.toNat { b with dmmu := b.dmmu.set slot.toNat v slot.isLt })
  | .kernCode slot =>
    let b := s.bankOf 0
    if slot = s.pc.extractLsb' 12 4 ∧ v ≠ b.cmmu[slot.toNat]'(slot.isLt) then .stuck .remapExecuting
    else .ok (s.setBankOf 0 { b with cmmu := b.cmmu.set slot.toNat v slot.isLt })
  | .kernData slot =>
    let b := s.bankOf 0
    .ok (s.setBankOf 0 { b with dmmu := b.dmmu.set slot.toNat v slot.isLt })
  | .uartTx => .ok { s with uart := s.uart.transmit (lowByte v) }
  | .uartTxStatus => .ok { s with uart := { s.uart with txie := v.getLsbD 7 } }
  | .uartRxStatus => .ok { s with uart := { s.uart with rxie := v.getLsbD 7 } }
  | .spiData => .ok { s with spi := s.spi.send (lowByte v) }
  | .spiSelect => .ok { s with spi := s.spi.select v }
  | .undefined | .cycLo | .cycHi | .icr | .idr | .reserved | .uartRx | .unassigned => .ok s

/-- `SPRRead(k)` (`10_state.md` R121). -/
def State.sprRead (s : State) (k : Word) : Action (Word × State) := (s.sprNumber k).bind s.readSpr

/-- `SPRWrite(k, v)` (`10_state.md` R122). -/
def State.sprWrite (s : State) (k v : Word) : Action State := (s.sprNumber k).bind fun r => s.writeSpr r v

end Sys2Proof.Machine
end

