-- ==== Sys2Proof/Machine/Yop.lean ====
section
/-! DEFINITION. The two-operand instructions (`44_yop.md`): special-register transfers, LCW, SYS, TST. -/

namespace Sys2Proof.Machine

/-- LSP rA, rB: rA gets special register number `x[rB]` (`44_yop.md` R461). -/
def execLsp (rA rB : RegField) (s : State) : Out :=
  s.finish ((s.sprRead (s.reg rB)).bind fun (v, s') => .ok (s'.setReg rA v).advance)

/-- The state in which LSI's page fault is taken: the special register's read effect has happened, or has not
(`10_state.md` R151). -/
def State.afterFaultingRead (s read : State) : State :=
  { (if Config.lsiReadHappened s.draws then read else s) with draws := read.draws + 1 }

/-- LSI rA, rB: the word at data address `x[rA]` gets special register number `x[rB]` (`44_yop.md` R462). -/
def execLsi (rA rB : RegField) (s : State) : Out :=
  match s.sprRead (s.reg rB) with
  | .ok (v, read) =>
    match read.storeWord (s.reg rA) v with
    | .ok t => .next t.advance
    | .trap c => .next ((s.afterFaultingRead read).raise c)
    | .stuck f => .fault f
  | .trap c => .next (s.raise c)
  | .stuck f => .fault f

/-- SSP rA, rB: special register number `x[rB]` gets `x[rA]` (`44_yop.md` R463). -/
def execSsp (rA rB : RegField) (s : State) : Out :=
  s.finish ((s.sprWrite (s.reg rB) (s.reg rA)).bind fun t => .ok t.advance)

/-- SSI rA, rB: special register number `x[rA]` gets the word at data address `x[rB]`; the number is checked before the
memory is read (`44_yop.md` R464). -/
def execSsi (rA rB : RegField) (s : State) : Out :=
  s.finish ((s.sprNumber (s.reg rA)).bind fun r =>
    (s.loadWord .data (s.reg rB) .load).bind fun v => (s.writeSpr r v).bind fun t => .ok t.advance)

/-- LCW rA, rB: the word at code address `x[rB]` (`44_yop.md` R465). -/
def execLcw (rA rB : RegField) (s : State) : Out :=
  s.finish ((s.loadWord .code (s.reg rB) .codeRead).bind fun v => .ok (s.setReg rA v).advance)

/-- SYS n: a TFE is its effect (`44_yop.md` R466). -/
def execSys (n : BitVec 3) (s : State) : Out := .next (s.raise (.sys n))

/-- SYS with a nonzero rB field (`44_yop.md` R466, `30_encoding.md` R321 (c)). -/
def execIllegalSysRb (s : State) : Out := .next (s.raise (.illegal .sysField))

/-- TST rA, rB: the flags of `rA - rB` (`44_yop.md` R467). -/
def execTst (rA rB : RegField) (s : State) : Out := .next (s.setFlags (sub16 (s.reg rA) (s.reg rB)).flags).advance

end Sys2Proof.Machine
end

