-- ==== Sys2Proof/Machine/Zop.lean ====
section
/-! DEFINITION. The one-operand instructions (`45_zop.md`). -/

namespace Sys2Proof.Machine

/-- An arithmetic ZOP on rA, source and destination (`45_zop.md` R480). -/
def State.zop (s : State) (op : ZopOp) (rA : RegField) : State :=
  let a := s.reg rA
  ((s.setReg rA (zopResult op a)).setFlags (zopFlags op a s.flags)).advance

/-- NOT rA (`45_zop.md` R481). -/
def execNot (rA : RegField) (s : State) : Out := .next (s.zop .not rA)

/-- NEG rA (`45_zop.md` R482). -/
def execNeg (rA : RegField) (s : State) : Out := .next (s.zop .neg rA)

/-- DUB rA (`45_zop.md` R483). -/
def execDub (rA : RegField) (s : State) : Out := .next (s.zop .dub rA)

/-- SXT rA (`45_zop.md` R484). -/
def execSxt (rA : RegField) (s : State) : Out := .next (s.zop .sxt rA)

/-- SRA rA (`45_zop.md` R485). -/
def execSra (rA : RegField) (s : State) : Out := .next (s.zop .sra rA)

/-- SRL rA (`45_zop.md` R486). -/
def execSrl (rA : RegField) (s : State) : Out := .next (s.zop .srl rA)

/-- JI rA: all 16 bits of the pc; field 0 is LINK (`45_zop.md` R487). -/
def execJi (rA : RegField) (s : State) : Out := .next (s.jump (s.regL rA))

end Sys2Proof.Machine
end

