-- ==== Sys2Proof/Machine/Dispatch.lean ====
section
/-! DEFINITION. One arm per instruction, each a direct call of its meaning. -/

namespace Sys2Proof.Machine

def exec (i : Instr) (s : State) : Host.Outcome State Fault Refusal :=
  match i with
  | .ldw rA rB imm7 => Sys2Proof.Machine.execLdw rA rB imm7 s
  | .ldb rA rB imm7 => Sys2Proof.Machine.execLdb rA rB imm7 s
  | .stw rA rB imm7 => Sys2Proof.Machine.execStw rA rB imm7 s
  | .stb rA rB imm7 => Sys2Proof.Machine.execStb rA rB imm7 s
  | .adi rA rB imm7 => Sys2Proof.Machine.execAdi rA rB imm7 s
  | .lui rA imm10 => Sys2Proof.Machine.execLui rA imm10 s
  | .br imm10 => Sys2Proof.Machine.execBr imm10 s
  | .brl imm10 => Sys2Proof.Machine.execBrl imm10 s
  | .brz imm10 => Sys2Proof.Machine.execBrz imm10 s
  | .brnz imm10 => Sys2Proof.Machine.execBrnz imm10 s
  | .brc imm10 => Sys2Proof.Machine.execBrc imm10 s
  | .brnc imm10 => Sys2Proof.Machine.execBrnc imm10 s
  | .brsge imm10 => Sys2Proof.Machine.execBrsge imm10 s
  | .brslt imm10 => Sys2Proof.Machine.execBrslt imm10 s
  | .jal rA rB imm6 => Sys2Proof.Machine.execJal rA rB imm6 s
  | .sbb rA rB rC => Sys2Proof.Machine.execSbb rA rB rC s
  | .adc rA rB rC => Sys2Proof.Machine.execAdc rA rB rC s
  | .sub rA rB rC => Sys2Proof.Machine.execSub rA rB rC s
  | .add rA rB rC => Sys2Proof.Machine.execAdd rA rB rC s
  | .xor rA rB rC => Sys2Proof.Machine.execXor rA rB rC s
  | .or rA rB rC => Sys2Proof.Machine.execOr rA rB rC s
  | .and rA rB rC => Sys2Proof.Machine.execAnd rA rB rC s
  | .lsp rA rB => Sys2Proof.Machine.execLsp rA rB s
  | .lsi rA rB => Sys2Proof.Machine.execLsi rA rB s
  | .ssp rA rB => Sys2Proof.Machine.execSsp rA rB s
  | .ssi rA rB => Sys2Proof.Machine.execSsi rA rB s
  | .lcw rA rB => Sys2Proof.Machine.execLcw rA rB s
  | .sys n => Sys2Proof.Machine.execSys n s
  | .tst rA rB => Sys2Proof.Machine.execTst rA rB s
  | .not rA => Sys2Proof.Machine.execNot rA s
  | .neg rA => Sys2Proof.Machine.execNeg rA s
  | .dub rA => Sys2Proof.Machine.execDub rA s
  | .sxt rA => Sys2Proof.Machine.execSxt rA s
  | .sra rA => Sys2Proof.Machine.execSra rA s
  | .srl rA => Sys2Proof.Machine.execSrl rA s
  | .ji rA => Sys2Proof.Machine.execJi rA s
  | .ccf => Sys2Proof.Machine.execCcf s
  | .scf => Sys2Proof.Machine.execScf s
  | .di => Sys2Proof.Machine.execDi s
  | .ei => Sys2Proof.Machine.execEi s
  | .hlt => Sys2Proof.Machine.execHlt s
  | .brk => Sys2Proof.Machine.execBrk s
  | .rti => Sys2Proof.Machine.execRti s
  | .die => Sys2Proof.Machine.execDie s
  | .illegalZero => Sys2Proof.Machine.execIllegalZero s
  | .illegalSysRb _ _ => Sys2Proof.Machine.execIllegalSysRb s

end Sys2Proof.Machine
end

