-- ==== Sys2Proof/Machine/Run.lean ====
section
/-! DEFINITION. What a step does around exec: the trap bit (`60_exceptions.md` R605), the order of checks (R615), and
the placing of an instruction where the next fetch reads it. -/

namespace Sys2Proof.Machine

/-- T after a trace trap has been taken (left open by `60_exceptions.md` R605). -/
def State.traceCleared (s : State) (r : TrapBit) : State := { s with t := s.t && !r.clearsT }

/-- A user-mode instruction with T = 1 under a given `TRAP_BIT` (`60_exceptions.md` R605): the trace trap replaces it,
or follows it; an instruction that has itself entered kernel mode has raised a TFE of its own. -/
def State.runTraced (s : State) (r : TrapBit) (i : Instr) : Out :=
  if r.replaces then .next ((s.traceCleared r).raise .traceTrap)
  else match exec i s with
    | .next s' =>
      if s'.mode = .user then .next ((s'.traceCleared r).raise .traceTrap)
      else match r.withTfe with
        | .otherOnly => .next s'
        | .traceOnly => .next ((s.traceCleared r).raise .traceTrap)
        | .doubleFault => .next s'.doubleFault
    | .fault f => .fault f
    | .refused x => .refused x

/-- The fetched word is executed (`60_exceptions.md` R615 (4) to (9)). -/
def State.runWord (s : State) (w : Word) : Out :=
  if s.mode = .user ∧ s.t = true then
    match Config.trapBit with
    | none => .fault .trapBit
    | some r => s.runTraced r (decode w)
  else exec (decode w) s

/-- One step of a machine that is not halted, after the host and the clock have moved (`00_scope.md` R20,
`60_exceptions.md` R615): interrupt, fetch, execution. -/
def State.runStep (s : State) : Out :=
  if s.interruptDue then .next (s.raise .uart)
  else match s.fetch s.pc with
    | .ok w => s.runWord w
    | .trap c => .next (s.raise c)
    | .stuck f => .fault f

/-- Two bytes placed at the physical address the next fetch reads, as a loader would (`70_reset_and_hazards.md` R705):
they count as loaded, not as stored by the run. The fetch must be permitted there, as it is after reset. -/
def State.placeWord (s : State) (lo hi : Byte) : State :=
  let a := s.physical .code s.pc
  { s with
    mem := memWrite (memWrite s.mem a lo) (a + 1#24) hi
    stored := setMark (setMark s.stored a false) (a + 1#24) false
    loaded := setMark (setMark s.loaded a true) (a + 1#24) true }

/-- The bytes of a table word placed where the next fetch reads. -/
def State.placeBytes (s : State) (bytes : List Byte) : State :=
  match bytes with
  | lo :: hi :: _ => s.placeWord lo hi
  | _ => s

end Sys2Proof.Machine
end

