-- ==== Sys2Proof/Machine/Step.lean ====
section
/-! DEFINITION. One step of the machine (`00_scope.md` R20). -/

namespace Sys2Proof.Machine

/-- One step: a halted machine stays halted (`60_exceptions.md` R640); else the host and the clock move, and then an
interrupt is taken or one instruction is fetched and executed. -/
def step (s : State) : Host.Outcome State Fault Refusal :=
  if s.halted then .next s.idle else s.tick.runStep

/-- `s` with the instruction of a table word stored where `step` fetches next. -/
def State.withFetchWord (s : State) (nbits w : Nat) : State := s.placeBytes (tableBytes nbits w)

end Sys2Proof.Machine
end

