-- ==== Sys2Proof/Machine/Aliases.lean ====
section
/-! DEFINITION. The assembler's aliases (`47_assembler_aliases.md`): each expands to core instructions, whose meanings
stand in the instruction files. Nothing of the processor rests on this file. -/

namespace Sys2Proof.Machine

/-- The alias instructions the source lists (`47_assembler_aliases.md` R525 to R534). Register 0 is LINK where the
expansion's instruction says so. -/
inductive Alias where
  /-- `ldi rT, imm16` (R525) -/
  | ldi (rT : RegField) (imm16 : Word)
  /-- `jal rT, rS, label` (R528); `jal rT, label` has rS = rT (R527), `jal label` has both 0, LINK (R526) -/
  | jal (rT rS : RegField) (label : Word)
  /-- `mv rT, rS` (R529) -/
  | mv  (rT rS : RegField)
  /-- `srr rA, rB, imm7` (R530) -/
  | srr (rA rB : RegField) (number : BitVec 7)
  /-- `srw rA, rB, imm7` (R531) -/
  | srw (rA rB : RegField) (number : BitVec 7)
  /-- `ret rN`; without an argument rN is 0, LINK (R532) -/
  | ret (rN : RegField)
  /-- `sla rN` (R533) -/
  | sla (rN : RegField)
  /-- `sll rN` (R534) -/
  | sll (rN : RegField)
  deriving DecidableEq, Repr

/-- Bits 15:6 of a constant, as LUI takes them (`47_assembler_aliases.md` R525). -/
def upperPart (k : Word) : BitVec 10 := k.extractLsb' 6 10

/-- Bits 5:0 of a constant, as a positive ADI immediate (`47_assembler_aliases.md` R525). -/
def lowerPart (k : Word) : BitVec 7 := (k.extractLsb' 0 6).zeroExtend 7

/-- The three cases of `ldi`, in their order, the third in its corrected form (`47_assembler_aliases.md` R525,
`90_conflicts.md` C1). -/
def expandLdi (rT : RegField) (k : Word) : List Instr :=
  if k.toNat < 0x40 then [.adi rT 0 (lowerPart k)]
  else if k &&& 0xFFC0 = k then [.lui rT (upperPart k)]
  else [.lui rT (upperPart k), .adi rT rT (lowerPart k)]

/-- The instructions an alias stands for (`47_assembler_aliases.md` R525 to R534). -/
def Alias.expand (a : Alias) : List Instr :=
  match a with
  | .ldi rT k => expandLdi rT k
  | .jal rT rS label => [.lui rT (upperPart label), .jal rT rS (label.extractLsb' 0 6)]
  | .mv rT rS => [.adi rT rS 0]
  | .srr rA rB k => expandLdi rB (k.zeroExtend 16) ++ [.lsp rA rB]
  | .srw rA rB k => expandLdi rB (k.zeroExtend 16) ++ [.ssp rA rB]
  | .ret rN => [.ji rN]
  | .sla rN => [.adc rN rN rN]
  | .sll rN => [.add rN rN rN]

/-- The meanings of several instructions one after the other, whatever the pc: what straight-line code does. -/
def execAll (is : List Instr) (s : State) : Out :=
  match is with
  | [] => .next s
  | i :: rest => match exec i s with
    | .next t => execAll rest t
    | .fault f => .fault f
    | .refused x => .refused x

end Sys2Proof.Machine
end

