-- ==== Sys2Proof/Safety.lean ====
section
/-! DEFINITION. What claims about the machine are stated in: the invariant of every state, the frames of the
instruction families, when an access goes through, and when a step is safe. -/

namespace Sys2Proof.Machine

/-! ### The invariant -/

/-- What holds of every state a run reaches: the sparse parts are canonical, the FIFOs hold at most 64 bytes
(`60_exceptions.md` R650), CONTEXT names a context (`10_state.md` R115), user mode runs with interrupts enabled
(`60_exceptions.md` R613) in a context other than the kernel's (`10_state.md` R116), and only kernel mode halts
(R114). A card that is attached has a size R667 allows. -/
structure State.Inv (s : State) : Prop where
  mem     : memWf s.mem = true
  banks   : banksWf s.banks = true
  stored  : marksWf s.stored = true
  loaded  : marksWf s.loaded = true
  store   : s.spi.card.storeWf = true
  size    : s.spi.card.sizeWf = true
  txq     : s.uart.txq.length ≤ fifoSize
  rxq     : s.uart.rxq.length ≤ fifoSize
  context : s.context.toNat < nctx
  user    : s.mode = .user → s.ie = true ∧ s.context ≠ 0#16
  halted  : s.halted = true → s.mode = .kernel

/-! ### Frames -/

/-- Every byte of physical memory reads as before. -/
def SameMemory (s t : State) : Prop := ∀ a : PhysAddr, memRead t.mem a = memRead s.mem a

/-- Every byte of physical memory outside `written` reads as before. -/
def SameMemoryOutside (s t : State) (written : List PhysAddr) : Prop :=
  ∀ a : PhysAddr, a ∉ written → memRead t.mem a = memRead s.mem a

/-- The processor's registers that are not banked by context, with the wiring and the counters, are as before: all but
the pc (`10_state.md` R100). -/
structure SameProcessor (s t : State) : Prop where
  mode        : t.mode = s.mode
  halted      : t.halted = s.halted
  trap        : t.t = s.t
  ie          : t.ie = s.ie
  context     : t.context = s.context
  irr         : t.irr = s.irr
  icr         : t.icr = s.icr
  idr         : t.idr = s.idr
  isr         : t.isr = s.isr
  cyc         : t.cyc = s.cyc
  platform     : t.platform = s.platform
  ticks       : t.ticks = s.ticks
  debugEvents : t.debugEvents = s.debugEvents

/-- Everything but the pc, the banks, memory and the free-value counter is as before. -/
structure SameControl (s t : State) : Prop where
  processor : SameProcessor s t
  uart      : t.uart = s.uart
  spi       : t.spi = s.spi

/-- The registers of every context but the current one are as before. -/
def SameOtherContexts (s t : State) : Prop := ∀ c, c ≠ s.cur → t.bankOf c = s.bankOf c

/-- The MMU registers of the current context are as before. -/
def SameMmu (s t : State) : Prop := t.bank.cmmu = s.bank.cmmu ∧ t.bank.dmmu = s.bank.dmmu

/-- The frame of an instruction that writes only registers, LINK, flags and the pc of the current context. -/
structure RegisterFrame (s t : State) : Prop where
  control : SameControl s t
  memory  : SameMemory s t
  stored  : t.stored = s.stored
  loaded  : t.loaded = s.loaded
  others  : SameOtherContexts s t
  mmu     : SameMmu s t

/-- Every general register but `i` is as before; register 0 reads 0 whatever `i` is. -/
def SameRegistersBut (s t : State) (i : RegField) : Prop := ∀ j : RegField, j ≠ i → t.reg j = s.reg j

/-- `t` is `s` with general register `i` of the current context holding `v`, the write discarded where `i` is 0
(`00_scope.md` R14), the flags holding `f`, and nothing else changed but the pc. -/
structure RegWritten (s : State) (i : RegField) (v : Word) (f : Flags) (t : State) : Prop where
  value  : i ≠ 0#3 → t.reg i = v
  others : SameRegistersBut s t i
  link   : t.link = s.link
  flags  : t.flags = f
  frame  : RegisterFrame s t

/-- The same for a destination whose field 0 is LINK (`00_scope.md` R14): the register of that field holds `v`, every
other general register and, unless it is the destination, LINK is as before. -/
structure RegLinkWritten (s : State) (i : RegField) (v : Word) (f : Flags) (t : State) : Prop where
  value  : i ≠ 0#3 → t.reg i = v
  others : SameRegistersBut s t i
  link   : t.link = if i = 0#3 then v else s.link
  flags  : t.flags = f
  frame  : RegisterFrame s t

/-- General registers, LINK and flags of the current context are as before. -/
def SameRegisters (s t : State) : Prop := (∀ j : RegField, t.reg j = s.reg j) ∧ t.link = s.link ∧ t.flags = s.flags

/-- `PHYS_MAP` has memory that can be read there. -/
def State.hasMemory (s : State) (a : PhysAddr) : Prop :=
  physKind s.platform.regions a = .ram ∨ physKind s.platform.regions a = .rom

/-- `PHYS_MAP` has RAM there. -/
def State.hasRam (s : State) (a : PhysAddr) : Prop := physKind s.platform.regions a = .ram

/-- `PHYS_MAP` has something there that a read reaches: RAM, ROM or a device. -/
def State.canRead (s : State) (a : PhysAddr) : Prop := physKind s.platform.regions a ≠ .nothing

/-- `PHYS_MAP` has something there that a store reaches: RAM or a device. -/
def State.canWrite (s : State) (a : PhysAddr) : Prop :=
  physKind s.platform.regions a = .ram ∨ physKind s.platform.regions a = .device

/-- The frame of an instruction that stores to memory: nothing but `written` bytes and the pc changes, and of those only
the ones that are RAM; the bytes the loader put in memory are afterwards the ones outside `written`. -/
structure StoreFrame (s t : State) (written : List PhysAddr) : Prop where
  control   : SameControl s t
  ramOnly   : ∀ a, ¬s.hasRam a → memRead t.mem a = memRead s.mem a
  memory    : SameMemoryOutside s t written
  loaded    : ∀ a, isMarked t.loaded a = (isMarked s.loaded a && decide (a ∉ written))
  registers : SameRegisters s t
  others    : SameOtherContexts s t
  mmu       : SameMmu s t

/-! ### Accesses that go through -/

/-- The permission of the MMU register that maps `va`. -/
def State.permission (s : State) (space : Space) (va : Word) : Permission := (mmuEntry (s.mmuRegister space va)).perm

/-- A byte load at `va` goes through (`20_memory.md` R224). -/
def State.CanLoadByte (s : State) (va : Word) : Prop :=
  verdict (s.permission .data va) .load = .allowed ∧ s.canRead (s.physical .data va)

/-- A 16-bit read at `va` goes through (`20_memory.md` R224, R226). -/
def State.CanReadWord (s : State) (space : Space) (va : Word) (access : Access) : Prop :=
  oddAddress va = false ∧ verdict (s.permission space va) access = .allowed ∧
    s.canRead (s.physical space va) ∧ s.canRead (s.physical space va + 1#24)

/-- A byte store at `va` goes through (`20_memory.md` R225). -/
def State.CanStoreByte (s : State) (va : Word) : Prop :=
  verdict (s.permission .data va) .store = .allowed ∧ s.canWrite (s.physical .data va)

/-- A 16-bit store at `va` goes through (`20_memory.md` R225). -/
def State.CanStoreWord (s : State) (va : Word) : Prop :=
  oddAddress va = false ∧ verdict (s.permission .data va) .store = .allowed ∧
    s.canWrite (s.physical .data va) ∧ s.canWrite (s.physical .data va + 1#24)

/-- The two bytes from `a` on are RAM: what a store leaves there can be read. -/
def State.wordInRam (s : State) (a : PhysAddr) : Prop := s.hasRam a ∧ s.hasRam (a + 1#24)

/-- The byte a load at `va` reads. -/
def State.byteAt (s : State) (va : Word) : Byte := s.byteThere .load (s.physical .data va)

/-- The word a 16-bit read at `va` reads, little-endian (`20_memory.md` R210). -/
def State.wordAt (s : State) (space : Space) (va : Word) (access : Access) : Word :=
  wordOfBytes (s.byteThere access (s.physical space va)) (s.byteThere access (s.physical space va + 1#24))

/-- `w` is what a 16-bit read at physical address `a` gives, as far as the spec states it: memory's bytes, the one at
the lower address in the low half (`20_memory.md` R210); a device's bytes are free (`60_exceptions.md` R669). -/
structure ReadsWord (s : State) (a : PhysAddr) (w : Word) : Prop where
  low  : s.hasMemory a → w.extractLsb' 0 8 = memRead s.mem a
  high : s.hasMemory (a + 1#24) → w.extractLsb' 8 8 = memRead s.mem (a + 1#24)

/-- `t` is `s` with the low byte of `v` at `a` and the high byte above it, where there is RAM, and no other byte of
memory changed (`20_memory.md` R210, R225). -/
structure WordPut (s : State) (a : PhysAddr) (v : Word) (t : State) : Prop where
  low    : s.hasRam a → memRead t.mem a = v.extractLsb' 0 8
  high   : s.hasRam (a + 1#24) → memRead t.mem (a + 1#24) = v.extractLsb' 8 8
  others : SameMemoryOutside s t [a, a + 1#24]
  ram    : ∀ c, ¬s.hasRam c → memRead t.mem c = memRead s.mem c

/-- The next fetch goes through and its two bytes, lowest address first, decode to `i` (`20_memory.md` R226, R240). -/
def State.FetchesInstr (s : State) (i : Instr) : Prop :=
  s.CanReadWord .code s.pc .fetch ∧ s.fetchIsStale (s.physical .code s.pc) = false ∧
    decodeBytes [s.byteThere .fetch (s.physical .code s.pc), s.byteThere .fetch (s.physical .code s.pc + 1#24)] =
      .ok (i, [])

/-- `t` is `s` after the host and the clock have moved for a step (`60_exceptions.md` R645, R656) with nothing else
changed: the cycle counter has advanced by at least one, the host has taken bytes from the front of the transmit FIFO to
the console and appended bytes to the receive FIFO while there is room. -/
structure Ticked (s t : State) : Prop where
  pc      : t.pc = s.pc
  mode    : t.mode = s.mode
  halted  : t.halted = s.halted
  trap    : t.t = s.t
  ie      : t.ie = s.ie
  context : t.context = s.context
  irr     : t.irr = s.irr
  icr     : t.icr = s.icr
  idr     : t.idr = s.idr
  isr     : t.isr = s.isr
  cyc     : t.cyc = s.cyc + BitVec.ofNat 32 (Config.extraCycles s.ticks + 1)
  banks   : ∀ n, t.bankOf n = s.bankOf n
  memory  : SameMemory s t
  stored  : t.stored = s.stored
  loaded  : t.loaded = s.loaded
  platform : t.platform = s.platform
  spi     : t.spi = s.spi
  debugEvents : t.debugEvents = s.debugEvents
  uart    : ∃ shown typed, t.uart =
    { s.uart with
      txq := s.uart.txq.drop shown
      rxq := s.uart.rxq ++ typed
      console := s.uart.console ++ s.uart.txq.take shown }
  room    : s.uart.rxq.length ≤ fifoSize → t.uart.rxq.length ≤ fifoSize

/-! ### Arithmetic seen from outside -/

/-- A signed result fits 16 bits (`43_xop_alu.md` R443, R448). -/
def fitsSigned (x : Int) : Bool := decide (-32768 ≤ x) && decide (x ≤ 32767)

/-- `f` and `r` are the flags and result of adding two words and a carry, said with numbers (`00_scope.md` R16,
`43_xop_alu.md` R448): C is a carry out of bit 15, V a signed sum that does not fit. -/
structure IsSum (a b : Word) (cin : Bool) (r : Word) (f : Flags) : Prop where
  result : r.toNat = (a.toNat + b.toNat + cin.toNat) % 65536
  carry  : f.c = decide (65536 ≤ a.toNat + b.toNat + cin.toNat)
  zero   : f.z = decide (r = 0#16)
  neg    : f.n = r.getLsbD 15
  overflow : f.v = !fitsSigned (a.toInt + b.toInt + cin.toNat)

/-- `f` and `r` are the flags and result of subtracting a word and a borrow, said with numbers (`43_xop_alu.md` R441,
R443): C is "no borrow", V a signed difference that does not fit. -/
structure IsDifference (a b : Word) (borrow : Bool) (r : Word) (f : Flags) : Prop where
  result  : r.toNat = (a.toNat + 65536 - b.toNat - borrow.toNat) % 65536
  carry   : f.c = decide (b.toNat + borrow.toNat ≤ a.toNat)
  zero    : f.z = decide (r = 0#16)
  neg     : f.n = r.getLsbD 15
  overflow : f.v = !fitsSigned (a.toInt - b.toInt - borrow.toNat)

/-! ### Special registers seen from outside -/

/-- Special register `k` may be accessed with a stated result (`10_state.md` R121, R142): in user mode 0 to 7; in kernel
mode 0 to 127 but 16, and the windows 16 to 63 only with CONTEXT nonzero. -/
def State.SprStated (s : State) (k : Word) : Prop :=
  (s.mode = .user → k.toNat ≤ 7) ∧
    (s.mode = .kernel → k.toNat ≤ 127 ∧ k ≠ 16#16 ∧ (16 ≤ k.toNat ∧ k.toNat ≤ 63 → s.context ≠ 0#16))

/-- A write of `v` to special register `k` has a stated result (`10_state.md` R115, `70_reset_and_hazards.md` R720):
CONTEXT takes numbers below NCTX, and the code MMU register of the executing kernel page only the value it holds. -/
def State.SprWriteStated (s : State) (k v : Word) : Prop :=
  s.SprStated k ∧ (k = 15#16 → v.toNat < nctx) ∧
    (∀ slot : BitVec 4, slot = s.pc.extractLsb' 12 4 → k.toNat = 64 + slot.toNat →
      v = (s.bankOf 0).cmmu[slot.toNat]'(slot.isLt))

/-- The special registers for which every read is a free value (`10_state.md` R126, R132, R135, R140,
`60_exceptions.md` R651, R662). -/
def undefinedSpr (k : Nat) : Prop :=
  (2 ≤ k ∧ k ≤ 5) ∨ (12 ≤ k ∧ k ≤ 14) ∨ (24 ≤ k ∧ k ≤ 31) ∨ k = 96 ∨ (101 ≤ k ∧ k ≤ 127)

/-- `v` is what a read of special register `k` gives, as far as the spec states it (`10_state.md` R124 to R140,
`60_exceptions.md` R651 to R654, R661 to R665). -/
structure SprReads (s : State) (k v : Word) : Prop where
  link      : k = 0#16 → v = s.link
  flags     : k = 1#16 → v.getLsbD 0 = s.flags.c ∧ v.getLsbD 1 = s.flags.z ∧ v.getLsbD 2 = s.flags.n ∧
                v.getLsbD 3 = s.flags.v
  trapBits  : k = 1#16 → s.mode = .kernel → v.getLsbD 8 = s.t ∧ v.getLsbD 9 = s.ie
  cycLo     : k = 6#16 → v = s.cyc.extractLsb' 0 16
  cycHi     : k = 7#16 → v = s.cyc.extractLsb' 16 16
  irr       : k = 8#16 → v = s.irr
  icr       : k = 9#16 → v = s.icr
  idr       : k = 10#16 → v = s.idr
  isr       : k = 11#16 → v = s.isr
  context   : k = 15#16 → v = s.context
  userGen   : ∀ i : RegField, k.toNat = 16 + i.toNat → v = (s.bankOf s.context.toNat).get i
  userCode  : ∀ slot : BitVec 4, k.toNat = 32 + slot.toNat →
                v = (s.bankOf s.context.toNat).cmmu[slot.toNat]'(slot.isLt)
  userData  : ∀ slot : BitVec 4, k.toNat = 48 + slot.toNat →
                v = (s.bankOf s.context.toNat).dmmu[slot.toNat]'(slot.isLt)
  kernCode  : ∀ slot : BitVec 4, k.toNat = 64 + slot.toNat → v = (s.bankOf 0).cmmu[slot.toNat]'(slot.isLt)
  kernData  : ∀ slot : BitVec 4, k.toNat = 80 + slot.toNat → v = (s.bankOf 0).dmmu[slot.toNat]'(slot.isLt)
  rxEmpty   : k = 97#16 → s.uart.rxq = [] → v = 0#16
  rxByte    : k = 97#16 → ∀ b rest, s.uart.rxq = b :: rest → lowByte v = b
  txStatus  : k = 98#16 → v.getLsbD 0 = s.uart.txovf ∧ v.getLsbD 7 = s.uart.txie ∧
                v.getLsbD 15 = decide (s.uart.txq = [])
  rxStatus  : k = 99#16 → v.getLsbD 0 = s.uart.rxunf ∧ v.getLsbD 7 = s.uart.rxie ∧
                v.getLsbD 15 = decide (s.uart.rxq ≠ [])
  timeOut   : k = 100#16 → s.spi.card.present = true →
                (s.spi.card.phase = .failed ∨ s.spi.card.reply = []) → lowByte v = 0xFF#8
  reply     : k = 100#16 → s.spi.card.present = true → s.spi.sel.getLsbD 0 = false → s.spi.card.phase ≠ .failed →
                ∀ b rest, s.spi.card.reply = b :: rest → lowByte v = b
  undefined : undefinedSpr k.toNat → v = Config.draw s.draws

/-- What a read of special register `k` does to the devices, and that it does nothing else (`10_state.md` R121,
`60_exceptions.md` R651 to R654, R661); memory, the pc and the destination of the value are the instruction's. -/
structure SprReadEffect (s : State) (k : Word) (t : State) : Prop where
  processor : SameProcessor s t
  banks     : ∀ c, c ≠ s.cur → t.bankOf c = s.bankOf c
  mmu       : SameMmu s t
  link      : t.link = s.link
  flags     : t.flags = s.flags
  uart      : k ≠ 97#16 → k ≠ 98#16 → k ≠ 99#16 → t.uart = s.uart
  receive   : k = 97#16 →
    t.uart = { s.uart with rxq := s.uart.rxq.tail, rxunf := s.uart.rxunf || s.uart.rxq.isEmpty }
  txStatus  : k = 98#16 → t.uart = { s.uart with txovf := false }
  rxStatus  : k = 99#16 → t.uart = { s.uart with rxunf := false }
  spi       : k ≠ 100#16 → t.spi = s.spi
  card      : k = 100#16 → t.spi.sel = s.spi.sel ∧ ∃ reply, t.spi.card = { s.spi.card with reply := reply } ∧
    (s.spi.card.present = true → s.spi.sel.getLsbD 0 = false → s.spi.card.phase ≠ .failed →
      reply = s.spi.card.reply.tail) ∧
    (s.spi.card.present = false ∨ s.spi.sel.getLsbD 0 = true ∨ s.spi.card.phase = .failed → reply = s.spi.card.reply)

/-- What a write of `v` to special register `k` leaves in every part of the state but the pc (`10_state.md` R124 to
R140, `60_exceptions.md` R651 to R654, R661, R662): every part is named, written or not. -/
structure SprWritten (s : State) (k v : Word) (t : State) : Prop where
  link    : ∀ c, (t.bankOf c).link = if c = s.cur ∧ k = 0#16 then v else (s.bankOf c).link
  flags   : ∀ c, (t.bankOf c).flags =
              if c = s.cur ∧ k = 1#16
              then { c := v.getLsbD 0, z := v.getLsbD 1, n := v.getLsbD 2, v := v.getLsbD 3 }
              else (s.bankOf c).flags
  trap    : t.t = if k = 1#16 ∧ s.mode = .kernel then v.getLsbD 8 else s.t
  irr     : t.irr = if k = 8#16 then v else s.irr
  isr     : t.isr = if k = 11#16 then v else s.isr
  context : t.context = if k = 15#16 then v else s.context
  regs    : ∀ c, ∀ i : RegField, i ≠ 0#3 →
              (t.bankOf c).get i = if c = s.context.toNat ∧ k.toNat = 16 + i.toNat then v else (s.bankOf c).get i
  cmmu    : ∀ c, ∀ slot : BitVec 4, (t.bankOf c).cmmu[slot.toNat]'(slot.isLt) =
              if (c = 0 ∧ k.toNat = 64 + slot.toNat) ∨ (c = s.context.toNat ∧ k.toNat = 32 + slot.toNat) then v
              else (s.bankOf c).cmmu[slot.toNat]'(slot.isLt)
  dmmu    : ∀ c, ∀ slot : BitVec 4, (t.bankOf c).dmmu[slot.toNat]'(slot.isLt) =
              if (c = 0 ∧ k.toNat = 80 + slot.toNat) ∨ (c = s.context.toNat ∧ k.toNat = 48 + slot.toNat) then v
              else (s.bankOf c).dmmu[slot.toNat]'(slot.isLt)
  uart    : t.uart =
              if k = 96#16 then
                (if s.uart.txq.length < 64 then { s.uart with txq := s.uart.txq ++ [lowByte v] }
                 else { s.uart with txovf := true })
              else if k = 98#16 then { s.uart with txie := v.getLsbD 7 }
              else if k = 99#16 then { s.uart with rxie := v.getLsbD 7 }
              else s.uart
  spi     : t.spi =
              if k = 100#16 then s.spi.send (lowByte v)
              else if k = 101#16 then { s.spi with sel := v }
              else s.spi
  memory  : SameMemory s t
  stored  : t.stored = s.stored
  loaded  : t.loaded = s.loaded
  mode    : t.mode = s.mode
  halted  : t.halted = s.halted
  ie      : t.ie = s.ie
  icr     : t.icr = s.icr
  idr     : t.idr = s.idr
  cyc     : t.cyc = s.cyc
  platform : t.platform = s.platform
  ticks   : t.ticks = s.ticks
  debugEvents : t.debugEvents = s.debugEvents

/-! ### Exceptions seen from outside -/

/-- No TFE would be a double fault in this state (`60_exceptions.md` R629). -/
def State.TrapsAllowed (s : State) : Prop := s.mode = .user ∨ s.ie = true

/-- `t` is `s` after trap entry with cause `c` and return address `ret` (`60_exceptions.md` R620 to R626), and nothing
else has changed (R628). -/
structure Entered (s : State) (c : Cause) (ret : Word) (t : State) : Prop where
  mode    : t.mode = .kernel
  ie      : t.ie = false
  isr     : t.isr = isrEnc s.mode
  irr     : t.irr = ret
  icr     : t.icr = icrCode c
  idr     : ∀ space va access, c = .pageFault space va access → t.idr = va
  pc      : t.pc.toNat = 4 * (vectorOf c).toNat
  banks   : ∀ n, t.bankOf n = s.bankOf n
  memory  : SameMemory s t
  stored  : t.stored = s.stored
  loaded  : t.loaded = s.loaded
  halted  : t.halted = s.halted
  trap    : t.t = s.t
  context : t.context = s.context
  cyc     : t.cyc = s.cyc
  platform : t.platform = s.platform
  uart    : t.uart = s.uart
  spi     : t.spi = s.spi
  ticks   : t.ticks = s.ticks
  debugEvents : t.debugEvents = s.debugEvents

/-- `t` is `s` halted by a double fault (`60_exceptions.md` R629, R640): the pc and the four trap registers are not
stated, everything else is as before. -/
structure HaltedFrom (s t : State) : Prop where
  halted  : t.halted = true
  mode    : t.mode = s.mode
  ie      : t.ie = s.ie
  trap    : t.t = s.t
  context : t.context = s.context
  cyc     : t.cyc = s.cyc
  banks   : ∀ n, t.bankOf n = s.bankOf n
  memory  : SameMemory s t
  stored  : t.stored = s.stored
  loaded  : t.loaded = s.loaded
  platform : t.platform = s.platform
  uart    : t.uart = s.uart
  spi     : t.spi = s.spi
  ticks   : t.ticks = s.ticks
  debugEvents : t.debugEvents = s.debugEvents

/-- What a reset establishes (`70_reset_and_hazards.md` R700). -/
structure IsReset (t : State) : Prop where
  mode   : t.mode = .kernel
  pc     : t.pc = 0#16
  halted : t.halted = false
  code0  : (t.bankOf 0).cmmu[0] = 0#16
  data0  : (t.bankOf 0).dmmu[0] = 0#16

/-! ### What a user program sees -/

/-- Physical address `a` is one that the current context's MMU registers let its program read, as code or as data. -/
def State.Reachable (s : State) (a : PhysAddr) : Prop :=
  ∃ space va, (s.permission space va = .all ∨ s.permission space va = .readOnly) ∧ s.physical space va = a

/-- What a user-mode program can see: its mode, pc, context and bank, the cycle counter, the platform, the bytes of
memory its own MMU registers let it read, and which free values come next. -/
structure UserView (s t : State) : Prop where
  pc      : t.pc = s.pc
  mode    : t.mode = s.mode
  context : t.context = s.context
  bank    : t.bank = s.bank
  cyc     : t.cyc = s.cyc
  mem     : ∀ a, s.Reachable a → memRead t.mem a = memRead s.mem a
  platform : t.platform = s.platform
  ticks   : t.ticks = s.ticks
  draws   : t.draws = s.draws

/-- What a user-mode step leaves within its context's reach (`60_exceptions.md` R628, R636): CONTEXT, the SPI device, the
platform, the registers of every other context and all MMU registers are as before; of the UART only the host's moves
show; memory changed only where a data page of the context allows a store; T, and only where it was set, may have been
cleared by the entry of a trace trap (`TRAP_BIT`). -/
structure Confined (s t : State) : Prop where
  context  : t.context = s.context
  halted   : t.halted = s.halted
  trap     : t.t = s.t ∨ s.t = true
  spi      : t.spi = s.spi
  platform : t.platform = s.platform
  others   : ∀ c, c ≠ s.context.toNat → t.bankOf c = s.bankOf c
  cmmu     : (t.bankOf s.context.toNat).cmmu = (s.bankOf s.context.toNat).cmmu
  dmmu     : (t.bankOf s.context.toNat).dmmu = (s.bankOf s.context.toNat).dmmu
  uart     : ∃ shown typed, t.uart =
    { s.uart with
      txq := s.uart.txq.drop shown
      rxq := s.uart.rxq ++ typed
      console := s.uart.console ++ s.uart.txq.take shown }
  memory   : ∀ a, memRead t.mem a ≠ memRead s.mem a → ∃ va, s.permission .data va = .all ∧ s.physical .data va = a

end Sys2Proof.Machine
end

