-- ==== Sys2Proof/Certificates/Slice0/Obligations.lean ====
section
/-! DEFINITION. The statements for the provers, each over the model's own definitions. `Config` constants have no
value, so a statement that mentions one holds for every value. -/

open Sys2Proof Sys2Proof.Machine

/-! ### Encoding -/

/-- Words of the spec's own list decode to the instructions the list names (`95_test_vectors.md` 2.1), and two bytes are
taken low byte first (`20_memory.md` R211). -/
def Obligations.SpecWordsDecode : Prop :=
  decode 0x0000 = .illegalZero ∧ decode 0x0001 = .ldw 1 0 0 ∧ decode 0x0111 = .ldw 1 2 4 ∧
  decode 0x1FFF = .ldw 7 7 0x7F ∧ decode 0x3FC3 = .ldb 3 0 0x7F ∧ decode 0x4011 = .stw 1 2 0 ∧
  decode 0x6FF8 = .stb 0 7 63 ∧ decode 0x9FC9 = .adi 1 1 0x7F ∧ decode 0xA241 = .lui 1 0x48 ∧
  decode 0xDFE3 = .brnz 0x3FC ∧ decode 0xC1D1 = .brl 0x3A ∧ decode 0xE128 = .jal 0 5 4 ∧
  decode 0xF0D1 = .sbb 1 2 3 ∧ decode 0xFDFF = .and 7 7 7 ∧ decode 0xFE11 = .lsp 1 2 ∧ decode 0xFF42 = .sys 2 ∧
  decode 0xFF48 = .illegalSysRb 0 1 ∧ decode 0xFFBF = .tst 7 7 ∧ decode 0xFFC1 = .not 1 ∧ decode 0xFFF7 = .ji 7 ∧
  decode 0xFFFA = .di ∧ decode 0xFFFF = .die ∧ decodeBytes [0x41, 0xA2] = .ok (.lui 1 0x48, [])

/-- Decoding the encoding of a well-formed instruction gives it back, with every operand at every value, and from bytes
it leaves the bytes that follow (`30_encoding.md` R302 to R310). -/
def Obligations.DecodeEncode : Prop :=
  ∀ i : Instr, i.wellFormed = true →
    decode (encode i) = i ∧ ∀ rest, decodeBytes (encodeBytes i ++ rest) = .ok (i, rest)

/-- Every one of the 65536 words decodes to a well-formed instruction whose encoding is that word, and matches that
instruction's row of the opcode table: no word is unassigned and no two words are one instruction (`30_encoding.md`
R310, R316 to R320, R322, R325). -/
def Obligations.EncodeDecode : Prop :=
  ∀ w : Word, (decode w).wellFormed = true ∧ encode (decode w) = w ∧
    w &&& (decode w).tableRow.1 = (decode w).tableRow.2

/-! ### The step -/

/-- A step runs the decoded instruction: where no interrupt is due and the fetched bytes decode to `i`, the step is
`exec i` in the state after the host and the clock have moved; the trap bit must not be in force (`00_scope.md` R20). A fetch from a
memory-mapped device finds free bytes: the model's choice (log entry 49). -/
def Obligations.StepRunsDecodedInstruction : Prop :=
  ∀ (s : State) (i : Instr), s.halted = false → s.tick.interruptDue = false → (s.mode = .user → s.t = false) →
    s.tick.FetchesInstr i → i.wellFormed = true ∧ step s = exec i s.tick ∧ Ticked s s.tick

/-- A fetch through an invalid code page enters the kernel with IRR and IDR holding the pc (`60_exceptions.md` R603,
R615 (3)). -/
def Obligations.StepFetchPageFault : Prop :=
  ∀ s : State, s.halted = false → s.tick.interruptDue = false → oddAddress s.pc = false →
    s.permission .code s.pc = .invalid → s.TrapsAllowed →
    ∃ t, step s = .next t ∧ Entered s.tick (.pageFault .code s.pc .fetch) s.pc t

/-- A pending UART interrupt with IE = 1 is taken before the fetch, whatever stands at the pc: entry at 0x000C with IRR
the pc; and no interrupt is due with IE = 0 or with neither UART condition holding (`60_exceptions.md` R611, R612,
R613). -/
def Obligations.StepTakesInterrupt : Prop :=
  (∀ s : State, s.halted = false → s.ie = true →
    (s.uart.txie = true ∧ s.tick.uart.txq = [] ∨ s.uart.rxie = true ∧ s.tick.uart.rxq ≠ []) →
    ∃ t, step s = .next t ∧ Entered s.tick .uart s.pc t ∧ t.pc = 0x000C#16) ∧
  (∀ s : State, s.interruptDue = true ↔
    s.ie = true ∧ (s.uart.txie = true ∧ s.uart.txq = [] ∨ s.uart.rxie = true ∧ s.uart.rxq ≠ []))

/-- What the model does at an odd address, where the spec states nothing: it stops by name (decisions D11, D12;
log entry 28). -/
def Obligations.OddAddressesStop : Prop :=
  (∀ s : State, s.halted = false → s.tick.interruptDue = false → oddAddress s.pc = true → step s = .fault .oddPc) ∧
  (∀ (s : State) (rA rB : RegField) (imm7 : BitVec 7), oddAddress (s.reg rB + imm7.signExtend 16) = true →
    exec (.ldw rA rB imm7) s = .fault .misaligned ∧ exec (.stw rA rB imm7) s = .fault .misaligned) ∧
  (∀ (s : State) (rA rB : RegField), oddAddress (s.reg rB) = true → exec (.lcw rA rB) s = .fault .misaligned) ∧
  (∀ (s : State) (rA rB : RegField), s.SprStated (s.reg rB) → oddAddress (s.reg rA) = true →
    exec (.lsi rA rB) s = .fault .misaligned) ∧
  (∀ (s : State) (rA rB : RegField), s.SprStated (s.reg rA) → oddAddress (s.reg rB) = true →
    exec (.ssi rA rB) s = .fault .misaligned)

/-- A halted machine stays halted: a step changes nothing of the processor; only the console and the clock move
(`60_exceptions.md` R640). -/
def Obligations.HaltedStays : Prop :=
  ∀ s : State, s.halted = true → ∃ t, step s = .next t ∧ t.halted = true ∧ t.pc = s.pc ∧ t.mode = s.mode ∧
    t.t = s.t ∧ t.ie = s.ie ∧ t.context = s.context ∧ t.irr = s.irr ∧ t.icr = s.icr ∧ t.idr = s.idr ∧
    t.isr = s.isr ∧ (∀ c, t.bankOf c = s.bankOf c) ∧ SameMemory s t ∧ t.stored = s.stored ∧ t.loaded = s.loaded ∧
    t.platform = s.platform ∧ t.spi = s.spi ∧ t.debugEvents = s.debugEvents ∧
    ∃ shown typed, t.uart =
      { s.uart with
        txq := s.uart.txq.drop shown
        rxq := s.uart.rxq ++ typed
        console := s.uart.console ++ s.uart.txq.take shown }

/-- A fetch of a word the program has just stored in RAM gives that word where `IFETCH_COHERENT` holds, and has no stated
result otherwise (`20_memory.md` R240). -/
def Obligations.StoreThenFetch : Prop :=
  ∀ (s : State) (rA rB : RegField) (imm7 : BitVec 7) (va : Word),
    s.CanStoreWord (s.reg rB + imm7.signExtend 16) → s.CanReadWord .code va .fetch →
    s.wordInRam (s.physical .code va) →
    s.physical .code va = s.physical .data (s.reg rB + imm7.signExtend 16) →
    ∃ t, exec (.stw rA rB imm7) s = .next t ∧
      t.fetch va = if Config.ifetchCoherent then .ok (s.reg rA) else .stuck .staleFetch

/-- A user-mode step with T = 1: no successor while `TRAP_BIT` is not given; with a given `TRAP_BIT` that replaces the
instruction, a trace trap at its pc; with one that follows it, a trace trap at the next pc after an instruction that
stays in user mode (`60_exceptions.md` R605). -/
def Obligations.TraceTrapStep : Prop :=
  ∀ (s : State) (w : Word), s.halted = false → s.tick.interruptDue = false → s.mode = .user → s.t = true →
    s.tick.fetch s.pc = .ok w →
    match Config.trapBit with
    | none => step s = .fault .trapBit
    | some r =>
      if r.replaces then
        ∃ t, step s = .next t ∧ Entered { s.tick with t := !r.clearsT } .traceTrap s.pc t
      else
        ∀ u, exec (decode w) s.tick = .next u → u.mode = .user →
          ∃ t, step s = .next t ∧ Entered { u with t := !r.clearsT } .traceTrap u.pc t

/-- User mode is entered only by RTI with ISR holding the user encoding, and kernel mode only by reset and by exception
or interrupt entry (`60_exceptions.md` R637). That CONTEXT is then not 0 is decision D24; that a double fault may follow
the entry where a trace trap meets another exception (T = 1) is the model's choice of what `TRAP_BIT` can say (log
entry 16). -/
def Obligations.ModeChangesOnlyByEntryAndRti : Prop :=
  (∀ s t : State, step s = .next t → s.mode = .kernel → t.mode = .user →
    s.tick.FetchesInstr .rti ∧ s.isr = isrEnc .user ∧ s.context ≠ 0#16 ∧ t.pc = s.irr) ∧
  (∀ s t : State, step s = .next t → s.mode = .user → t.mode = .kernel →
    ∃ (c : Cause) (u : State), u.pc = vectorAddress (vectorOf c) ∧ u.icr = icrCode c ∧ u.isr = isrEnc .user ∧
      u.ie = false ∧ u.mode = .kernel ∧ (t = u ∨ s.t = true ∧ t = u.doubleFault)) ∧
  (∀ (s : State) (c : Cause), (s.raise c).mode = .kernel) ∧ State.reset.mode = .kernel

/-! ### Taking an exception and returning from one -/

/-- Trap entry, for every cause that is not a double fault: what is saved, where control goes, and that nothing else
changes (`60_exceptions.md` R620 to R628). -/
def Obligations.TrapEntry : Prop :=
  (∀ (s : State) (c : Cause), s.TrapsAllowed ∨ c = .uart →
    Entered s c (match c with | .sys _ => s.pc + 2#16 | _ => s.pc) (s.raise c)) ∧
  (∀ n : BitVec 3, (vectorOf (.sys n)).toNat = 8 + n.toNat) ∧ (vectorOf .uart).toNat = 3

/-- A TFE in kernel mode with interrupts disabled halts the machine, or resets it where it is configured to; what a ROM
provides, and what the loader put in memory and no store has touched since, is there after that reset as before
(`60_exceptions.md` R629, `70_reset_and_hazards.md` R703, R704, R705). That the platform stays, and the record of which
bytes are the loader's, is the model's (log entry 17). -/
def Obligations.DoubleFaultHaltsOrResets : Prop :=
  ∀ (s : State) (c : Cause), c ≠ .uart → s.mode = .kernel → s.ie = false →
    if Config.doubleFaultResets then
      IsReset (s.raise c) ∧ (s.raise c).platform = s.platform ∧ (s.raise c).loaded = s.loaded ∧
        ∀ a, physKind s.platform.regions a = .rom ∨ isMarked s.loaded a = true →
          memRead (s.raise c).mem a = memRead s.mem a
    else HaltedFrom s (s.raise c)

/-- The kernel can tell two kinds of event apart after entry: the vector differs, or ICR does
(`60_exceptions.md` R624). -/
def Obligations.IcrTellsKinds : Prop :=
  ∀ (s : State) (c d : Cause), s.TrapsAllowed → c.kind ≠ d.kind →
    (s.raise c).pc ≠ (s.raise d).pc ∨ (s.raise c).icr ≠ (s.raise d).icr

/-- RTI in kernel mode returns to the mode ISR encodes at the address IRR holds, with interrupts enabled, and restores
nothing else; a return to user mode selects context CONTEXT (`60_exceptions.md` R630). -/
def Obligations.RtiReturns : Prop :=
  ∀ (s : State) (m : Mode), s.mode = .kernel → s.isr = isrEnc m → (m = .user → s.context ≠ 0#16) →
    ∃ t, exec .rti s = .next t ∧ t.pc = s.irr ∧ t.mode = m ∧ t.ie = true ∧
      t.cur = (match m with | .kernel => 0 | .user => s.context.toNat) ∧
      (∀ c, t.bankOf c = s.bankOf c) ∧ SameMemory s t ∧ t.stored = s.stored ∧ t.loaded = s.loaded ∧
      SameControl { s with mode := m, ie := true } t

/-- Where the spec states no result for RTI or for a special-register access, the model stops by name (decisions D16,
D22, D23, D24, D47; log entry 28). -/
def Obligations.UnstatedSpecialAccessStops : Prop :=
  (∀ s : State, s.mode = .kernel → s.isr ≠ isrEnc .kernel → s.isr ≠ isrEnc .user →
    exec .rti s = .fault .isrValue) ∧
  (∀ s : State, s.mode = .kernel → s.isr = isrEnc .user → s.context = 0#16 → exec .rti s = .fault .contextZero) ∧
  (∀ (s : State) (rA rB : RegField), 127 < (s.reg rB).toNat →
    exec (.lsp rA rB) s = .fault .sprRange ∧ exec (.lsi rA rB) s = .fault .sprRange ∧
    exec (.ssp rA rB) s = .fault .sprRange ∧ exec (.ssi rB rA) s = .fault .sprRange) ∧
  (∀ (s : State) (rA rB : RegField), s.mode = .kernel → s.reg rB = 16#16 →
    exec (.lsp rA rB) s = .fault .userR0 ∧ exec (.lsi rA rB) s = .fault .userR0 ∧
    exec (.ssp rA rB) s = .fault .userR0 ∧
    ∀ rC, s.CanReadWord .data (s.reg rC) .load → exec (.ssi rB rC) s = .fault .userR0) ∧
  (∀ (s : State) (rA rB : RegField), s.mode = .kernel → s.context = 0#16 → 17 ≤ (s.reg rB).toNat →
    (s.reg rB).toNat ≤ 63 →
    exec (.lsp rA rB) s = .fault .contextZero ∧ exec (.lsi rA rB) s = .fault .contextZero ∧
    exec (.ssp rA rB) s = .fault .contextZero ∧
    ∀ rC, s.CanReadWord .data (s.reg rC) .load → exec (.ssi rB rC) s = .fault .contextZero) ∧
  (∀ (s : State) (rA rB : RegField), s.mode = .kernel → s.reg rB = 15#16 →
    exec (.ssp rA rB) s =
      (if (s.reg rA).toNat < nctx then .next { s with context := s.reg rA, pc := s.pc + 2#16 }
      else .fault .contextRange) ∧
    ∀ rC, s.CanReadWord .data (s.reg rC) .load →
      exec (.ssi rB rC) s =
        if (s.wordAt .data (s.reg rC) .load).toNat < nctx then
          .next { s with context := s.wordAt .data (s.reg rC) .load, pc := s.pc + 2#16 }
        else .fault .contextRange) ∧
  (∀ (s : State) (rA rB : RegField) (slot : BitVec 4), s.mode = .kernel → slot = s.pc.extractLsb' 12 4 →
    (s.reg rB).toNat = 64 + slot.toNat →
    (s.reg rA ≠ (s.bankOf 0).cmmu[slot.toNat]'(slot.isLt) → exec (.ssp rA rB) s = .fault .remapExecuting) ∧
    ∀ rC, s.CanReadWord .data (s.reg rC) .load →
      s.wordAt .data (s.reg rC) .load ≠ (s.bankOf 0).cmmu[slot.toNat]'(slot.isLt) →
      exec (.ssi rB rC) s = .fault .remapExecuting)

/-! ### Reset and the invariant -/

/-- What reset leaves: kernel mode, pc 0, not halted, both kernel slots 0 holding 0, so that kernel code and data
addresses below 0x1000 are the physical bytes of the same numbers with all permissions (`70_reset_and_hazards.md`
R700). -/
def Obligations.ResetState : Prop :=
  IsReset State.reset ∧
  ∀ (space : Space) (va : Word), va.toNat < 0x1000 →
    (State.reset.physical space va).toNat = va.toNat ∧ State.reset.permission space va = .all

/-- The invariant holds at reset. -/
def Obligations.ResetInv : Prop := State.reset.Inv

/-- Every step keeps the invariant: memory, register banks and the card's store in canonical form, FIFOs of at most 64
bytes, an attached card of an allowed size, CONTEXT a context number, user mode with interrupts enabled and a context
other than 0, halted only in kernel mode (`20_memory.md` R204, `60_exceptions.md` R613, R650, R667, `10_state.md` R115, R116). -/
def Obligations.StepKeepsInv : Prop := ∀ s t : State, s.Inv → step s = .next t → t.Inv

/-- The cycle counter advances by at least one cycle at every step of a machine that is not halted, and nothing else
moves it but a reset (`60_exceptions.md` R645, D35). That a step which takes an interrupt or a fetch fault, and so
executes no instruction, advances it too is the model's own deduction (log entry 23). -/
def Obligations.CycleCounterOnlyAdvances : Prop :=
  ∀ s t : State, s.halted = false → step s = .next t →
    t.cyc = s.cyc + BitVec.ofNat 32 (Config.extraCycles s.ticks + 1) ∨
      (Config.doubleFaultResets = true ∧ IsReset t)

/-! ### Loads and stores -/

/-- LDW loads the little-endian word at the effective address, from memory or from a device, whose bytes are free
(`40_base_memory.md` R401, log entry 49). -/
def Obligations.LdwLoads : Prop :=
  ∀ (s : State) (rA rB : RegField) (imm7 : BitVec 7), s.CanReadWord .data (s.reg rB + imm7.signExtend 16) .load →
    ∃ t w, exec (.ldw rA rB imm7) s = .next t ∧ t.pc = s.pc + 2#16 ∧
      ReadsWord s (s.physical .data (s.reg rB + imm7.signExtend 16)) w ∧ RegWritten s rA w s.flags t

/-- LDB loads the byte at the effective address, sign-extended; any address will do; a device's byte is free
(`40_base_memory.md` R402, log entry 49). -/
def Obligations.LdbLoads : Prop :=
  ∀ (s : State) (rA rB : RegField) (imm7 : BitVec 7), s.CanLoadByte (s.reg rB + imm7.signExtend 16) →
    ∃ t b, exec (.ldb rA rB imm7) s = .next t ∧ t.pc = s.pc + 2#16 ∧
      (s.hasMemory (s.physical .data (s.reg rB + imm7.signExtend 16)) →
        b = memRead s.mem (s.physical .data (s.reg rB + imm7.signExtend 16))) ∧
      RegWritten s rA (b.signExtend 16) s.flags t

/-- STW stores the two bytes of rA at the effective address, low byte first, and nothing else; a byte that a device
takes changes no memory (`40_base_memory.md` R403, log entry 49). -/
def Obligations.StwStores : Prop :=
  ∀ (s : State) (rA rB : RegField) (imm7 : BitVec 7), s.CanStoreWord (s.reg rB + imm7.signExtend 16) →
    ∃ t, exec (.stw rA rB imm7) s = .next t ∧ t.pc = s.pc + 2#16 ∧
      ∀ a, a = s.physical .data (s.reg rB + imm7.signExtend 16) →
        WordPut s a (s.reg rA) t ∧ StoreFrame s t [a, a + 1#24]

/-- STB stores the low byte of rA at the effective address, and nothing else; a device's byte changes no memory
(`40_base_memory.md` R404, log entry 49). -/
def Obligations.StbStores : Prop :=
  ∀ (s : State) (rA rB : RegField) (imm7 : BitVec 7), s.CanStoreByte (s.reg rB + imm7.signExtend 16) →
    ∃ t, exec (.stb rA rB imm7) s = .next t ∧ t.pc = s.pc + 2#16 ∧
      ∀ a, a = s.physical .data (s.reg rB + imm7.signExtend 16) →
        (s.hasRam a → memRead t.mem a = (s.reg rA).extractLsb' 0 8) ∧ StoreFrame s t [a]

/-- Mixed widths in RAM: LDB after STW gives the low byte at the even address and the high byte above it; LDW after two STBs
gives the two bytes, the later address in the high half (`20_memory.md` R212). -/
def Obligations.MixedWidths : Prop :=
  (∀ (s : State) (rA rB rC rD : RegField) (imm7 k : BitVec 7), s.CanStoreWord (s.reg rB + imm7.signExtend 16) →
    s.wordInRam (s.physical .data (s.reg rB + imm7.signExtend 16)) → rC ≠ 0#3 →
    ∃ t, exec (.stw rA rB imm7) s = .next t ∧
      (t.reg rD + k.signExtend 16 = s.reg rB + imm7.signExtend 16 →
        ∃ u, exec (.ldb rC rD k) t = .next u ∧ u.reg rC = ((s.reg rA).extractLsb' 0 8).signExtend 16) ∧
      (t.reg rD + k.signExtend 16 = s.reg rB + imm7.signExtend 16 + 1#16 →
        ∃ u, exec (.ldb rC rD k) t = .next u ∧ u.reg rC = ((s.reg rA).extractLsb' 8 8).signExtend 16)) ∧
  (∀ (s : State) (rA rB rC rD rE : RegField) (imm7 k : BitVec 7), s.CanStoreWord (s.reg rB + imm7.signExtend 16) →
    s.wordInRam (s.physical .data (s.reg rB + imm7.signExtend 16)) → rE ≠ 0#3 →
    s.reg rD + k.signExtend 16 = s.reg rB + imm7.signExtend 16 + 1#16 →
    ∃ t, exec (.stb rA rB imm7) s = .next t ∧
      ∃ u, exec (.stb rC rD k) t = .next u ∧
        ∃ v, exec (.ldw rE rB imm7) u = .next v ∧
          v.reg rE = (s.reg rC).extractLsb' 0 8 ++ (s.reg rA).extractLsb' 0 8)

/-- A load or LCW through an invalid page, and a store through an invalid or read-only page, take the page fault with the
instruction's address in IRR and the data or code address in IDR, and change neither register nor memory
(`60_exceptions.md` R603, `20_memory.md` R223, R227). -/
def Obligations.PageFaultsTaken : Prop :=
  (∀ (s : State) (rA rB : RegField) (imm7 : BitVec 7) (ea : Word), ea = s.reg rB + imm7.signExtend 16 →
    s.TrapsAllowed → s.permission .data ea = .invalid →
    (∃ t, exec (.ldb rA rB imm7) s = .next t ∧ Entered s (.pageFault .data ea .load) s.pc t) ∧
    (oddAddress ea = false →
      ∃ t, exec (.ldw rA rB imm7) s = .next t ∧ Entered s (.pageFault .data ea .load) s.pc t)) ∧
  (∀ (s : State) (rA rB : RegField) (imm7 : BitVec 7) (ea : Word), ea = s.reg rB + imm7.signExtend 16 →
    s.TrapsAllowed → s.permission .data ea = .invalid ∨ s.permission .data ea = .readOnly →
    (∃ t, exec (.stb rA rB imm7) s = .next t ∧ Entered s (.pageFault .data ea .store) s.pc t) ∧
    (oddAddress ea = false →
      ∃ t, exec (.stw rA rB imm7) s = .next t ∧ Entered s (.pageFault .data ea .store) s.pc t)) ∧
  (∀ (s : State) (rA rB : RegField), s.TrapsAllowed → s.permission .code (s.reg rB) = .invalid →
    oddAddress (s.reg rB) = false →
    ∃ t, exec (.lcw rA rB) s = .next t ∧ Entered s (.pageFault .code (s.reg rB) .codeRead) s.pc t) ∧
  (∀ (s : State) (rA rB : RegField), s.TrapsAllowed → s.permission .data (s.reg rB) = .invalid →
    oddAddress (s.reg rB) = false → (s.reg rA).toNat ≤ 127 → (s.mode = .user → (s.reg rA).toNat ≤ 7) →
    ∃ t, exec (.ssi rA rB) s = .next t ∧ Entered s (.pageFault .data (s.reg rB) .load) s.pc t)

/-- LSI whose store page-faults changes no memory and no register; its special register may already have been read, with
the effect of that read (`10_state.md` R151, `44_yop.md` R462). Where the read has happened, that a read of s0 with the
card deselected consumes no response byte is the model's choice (log entry 47). -/
def Obligations.LsiPageFault : Prop :=
  ∀ (s : State) (rA rB : RegField), s.TrapsAllowed → s.SprStated (s.reg rB) → oddAddress (s.reg rA) = false →
    s.permission .data (s.reg rA) = .invalid ∨ s.permission .data (s.reg rA) = .readOnly →
    ∃ r t, exec (.lsi rA rB) s = .next t ∧ Entered r (.pageFault .data (s.reg rA) .store) s.pc t ∧
      (r = { s with draws := r.draws } ∨
        SprReadEffect s (s.reg rB) r ∧ SameMemory s r ∧ ∀ j, r.reg j = s.reg j)

/-! ### Immediates -/

/-- ADI adds the sign-extended immediate and writes all four flags; rA 0 is LINK, rB 0 is zero (`41_base_alu_imm.md`
R410). -/
def Obligations.AdiAdds : Prop :=
  ∀ (s : State) (rA rB : RegField) (imm7 : BitVec 7),
    ∃ t r f, exec (.adi rA rB imm7) s = .next t ∧ t.pc = s.pc + 2#16 ∧
      IsSum (s.reg rB) (imm7.signExtend 16) false r f ∧ RegLinkWritten s rA r f t

/-- LUI, the words 101 imm10 rA, loads its immediate into bits 15:6, zeros below; rA 0 is LINK; no flag changes
(`41_base_alu_imm.md` R411). -/
def Obligations.LuiLoads : Prop :=
  ∀ (s : State) (rA : RegField) (imm10 : BitVec 10), decode (0b101#3 ++ imm10 ++ rA) = .lui rA imm10 ∧
    ∃ t v, exec (.lui rA imm10) s = .next t ∧ t.pc = s.pc + 2#16 ∧ v.toNat = imm10.toNat * 64 ∧
      RegLinkWritten s rA v s.flags t

/-- The pair LUI, ADI loads any 16-bit constant into a general register, with the flags of that constant
(`41_base_alu_imm.md` R412). -/
def Obligations.LuiAdiConstant : Prop :=
  ∀ (s : State) (rT : RegField) (k : Word), rT ≠ 0#3 →
    ∃ u t, exec (.lui rT (k.extractLsb' 6 10)) s = .next u ∧
      exec (.adi rT rT ((k.extractLsb' 0 6).zeroExtend 7)) u = .next t ∧ t.pc = s.pc + 4#16 ∧
      RegWritten s rT k { c := false, z := decide (k = 0#16), n := k.getLsbD 15, v := false } t

/-! ### Control transfer -/

/-- BR and BRL always go to pc + 2 plus their signed offset; BRL leaves the address of the next instruction in LINK and
changes no other register (`42_base_control.md` R420 to R422). -/
def Obligations.UnconditionalBranches : Prop :=
  ∀ (s : State) (imm10 : BitVec 10),
    (∃ t, exec (.br imm10) s = .next t ∧ t.pc = s.pc + 2#16 + imm10.signExtend 16 ∧ SameRegisters s t ∧
      RegisterFrame s t) ∧
    (∃ t, exec (.brl imm10) s = .next t ∧ t.pc = s.pc + 2#16 + imm10.signExtend 16 ∧
      RegLinkWritten s 0#3 (s.pc + 2#16) s.flags t)

/-- Each conditional branch goes to pc + 2 plus its signed offset when its condition on the flags holds, else to the next
instruction, and changes nothing but the pc (`42_base_control.md` R420, R423 to R428). -/
def Obligations.ConditionalBranches : Prop :=
  ∀ (s : State) (imm10 : BitVec 10) (i : Instr) (taken : Bool),
    (i = .brz imm10 ∧ taken = s.flags.z ∨ i = .brnz imm10 ∧ taken = !s.flags.z ∨
      i = .brc imm10 ∧ taken = s.flags.c ∨ i = .brnc imm10 ∧ taken = !s.flags.c ∨
      i = .brsge imm10 ∧ taken = decide (s.flags.n = s.flags.v) ∨
      i = .brslt imm10 ∧ taken = decide (s.flags.n ≠ s.flags.v)) →
    ∃ t, exec i s = .next t ∧
      t.pc = (if taken then s.pc + 2#16 + imm10.signExtend 16 else s.pc + 2#16) ∧
      SameRegisters s t ∧ RegisterFrame s t

/-- After TST or SUB of two registers each conditional branch decides the comparison it is named for, unsigned or signed,
overflow included (`43_xop_alu.md` R448, `42_base_control.md` R423 to R428, `44_yop.md` R467). -/
def Obligations.CompareThenBranch : Prop :=
  ∀ (s : State) (i : Instr) (rA rB rD : RegField) (imm10 : BitVec 10), i = .tst rA rB ∨ i = .sub rD rA rB →
    ∃ t, exec i s = .next t ∧
      ∀ (j : Instr) (taken : Bool),
        (j = .brz imm10 ∧ taken = decide (s.reg rA = s.reg rB) ∨
          j = .brnz imm10 ∧ taken = decide (s.reg rA ≠ s.reg rB) ∨
          j = .brc imm10 ∧ taken = decide ((s.reg rB).toNat ≤ (s.reg rA).toNat) ∨
          j = .brnc imm10 ∧ taken = decide ((s.reg rA).toNat < (s.reg rB).toNat) ∨
          j = .brsge imm10 ∧ taken = decide ((s.reg rB).toInt ≤ (s.reg rA).toInt) ∨
          j = .brslt imm10 ∧ taken = decide ((s.reg rA).toInt < (s.reg rB).toInt)) →
        ∃ u, exec j t = .next u ∧
          u.pc = (if taken then s.pc + 4#16 + imm10.signExtend 16 else s.pc + 4#16)

/-- JAL goes to the upper ten bits of its source with the immediate below them and leaves the address of the next
instruction in its destination; fields 0 are LINK, and the source is read first (`42_base_control.md` R429). -/
def Obligations.JalJumps : Prop :=
  ∀ (s : State) (rA rB : RegField) (imm6 : BitVec 6),
    ∃ t, exec (.jal rA rB imm6) s = .next t ∧
      t.pc = (if rB = 0#3 then s.link else s.reg rB).extractLsb' 6 10 ++ imm6 ∧
      RegLinkWritten s rA (s.pc + 2#16) s.flags t

/-- JI goes to the address in its register, all 16 bits, field 0 being LINK, and changes nothing else (`45_zop.md`
R487). -/
def Obligations.JiJumps : Prop :=
  ∀ (s : State) (rA : RegField),
    ∃ t, exec (.ji rA) s = .next t ∧ t.pc = (if rA = 0#3 then s.link else s.reg rA) ∧ SameRegisters s t ∧
      RegisterFrame s t

/-- The assembler's aliases do what they are for: `ldi` loads any constant into a general register, in as many
instructions as it has, and constants of one instruction into LINK; `jal` with a label goes there and leaves the address
after the pair; `sll` and `sla` shift left by one, taking in 0 and the carry flag (`47_assembler_aliases.md` R525 to R527,
R533, R534; `ldi` in the corrected form of `90_conflicts.md` C1). -/
def Obligations.AliasesDoWhatTheyAreFor : Prop :=
  (∀ (s : State) (rT : RegField) (k : Word), rT ≠ 0#3 →
    ∃ t, execAll (Alias.ldi rT k).expand s = .next t ∧ t.reg rT = k ∧ SameRegistersBut s t rT ∧ t.link = s.link ∧
      t.pc = s.pc + BitVec.ofNat 16 (2 * (Alias.ldi rT k).expand.length)) ∧
  (∀ (s : State) (k : Word), k.toNat < 0x40 ∨ k &&& 0xFFC0#16 = k →
    ∃ t, execAll (Alias.ldi 0 k).expand s = .next t ∧ t.link = k ∧ t.pc = s.pc + 2#16) ∧
  (∀ (s : State) (rT : RegField) (label : Word),
    ∃ t, execAll (Alias.jal rT rT label).expand s = .next t ∧ t.pc = label ∧
      (if rT = 0#3 then t.link else t.reg rT) = s.pc + 4#16) ∧
  (∀ (s : State) (rN : RegField), rN ≠ 0#3 →
    ∃ t u, execAll (Alias.sll rN).expand s = .next t ∧ execAll (Alias.sla rN).expand s = .next u ∧
      t.reg rN = (s.reg rN).extractLsb' 0 15 ++ 0#1 ∧
      u.reg rN = (s.reg rN).extractLsb' 0 15 ++ BitVec.ofBool s.flags.c ∧
      t.flags.c = (s.reg rN).getLsbD 15 ∧ u.flags.c = (s.reg rN).getLsbD 15)

/-! ### Arithmetic and logic -/

/-- ADD and ADC: the sum, without and with the carry flag, and its four flags; a destination 0 discards the result only
(`43_xop_alu.md` R440, R442, R444). -/
def Obligations.AddAdc : Prop :=
  ∀ (s : State) (rA rB rC : RegField),
    (∃ t r f, exec (.add rA rB rC) s = .next t ∧ t.pc = s.pc + 2#16 ∧ IsSum (s.reg rB) (s.reg rC) false r f ∧
      RegWritten s rA r f t) ∧
    (∃ t r f, exec (.adc rA rB rC) s = .next t ∧ t.pc = s.pc + 2#16 ∧ IsSum (s.reg rB) (s.reg rC) s.flags.c r f ∧
      RegWritten s rA r f t)

/-- SUB and SBB: the difference, without and with the borrow that a clear carry flag is, and its four flags
(`43_xop_alu.md` R440, R441, R443). -/
def Obligations.SubSbb : Prop :=
  ∀ (s : State) (rA rB rC : RegField),
    (∃ t r f, exec (.sub rA rB rC) s = .next t ∧ t.pc = s.pc + 2#16 ∧ IsDifference (s.reg rB) (s.reg rC) false r f ∧
      RegWritten s rA r f t) ∧
    (∃ t r f, exec (.sbb rA rB rC) s = .next t ∧ t.pc = s.pc + 2#16 ∧
      IsDifference (s.reg rB) (s.reg rC) (!s.flags.c) r f ∧ RegWritten s rA r f t)

/-- ADD on the low words then ADC on the high words is 32-bit addition; SUB then SBB is 32-bit subtraction
(`43_xop_alu.md` R448). -/
def Obligations.DoubleWordArithmetic : Prop :=
  ∀ (s : State) (lo hi aLo aHi bLo bHi : RegField), lo ≠ 0#3 → hi ≠ 0#3 → lo ≠ hi → lo ≠ aHi → lo ≠ bHi →
    (∃ u t, exec (.add lo aLo bLo) s = .next u ∧ exec (.adc hi aHi bHi) u = .next t ∧
      t.reg hi ++ t.reg lo = (s.reg aHi ++ s.reg aLo) + (s.reg bHi ++ s.reg bLo) ∧
      t.flags.c = decide (2 ^ 32 ≤ (s.reg aHi ++ s.reg aLo).toNat + (s.reg bHi ++ s.reg bLo).toNat)) ∧
    (∃ u t, exec (.sub lo aLo bLo) s = .next u ∧ exec (.sbb hi aHi bHi) u = .next t ∧
      t.reg hi ++ t.reg lo = (s.reg aHi ++ s.reg aLo) - (s.reg bHi ++ s.reg bLo) ∧
      t.flags.c = decide ((s.reg bHi ++ s.reg bLo).toNat ≤ (s.reg aHi ++ s.reg aLo).toNat))

/-- XOR, OR and AND: the bitwise result with Z and N of it; C and V are left open (`43_xop_alu.md` R445 to R447). -/
def Obligations.LogicalResults : Prop :=
  ∀ (s : State) (rA rB rC : RegField) (i : Instr) (r : Word),
    (i = .xor rA rB rC ∧ r = s.reg rB ^^^ s.reg rC ∨ i = .or rA rB rC ∧ r = s.reg rB ||| s.reg rC ∨
      i = .and rA rB rC ∧ r = s.reg rB &&& s.reg rC) →
    ∃ t f, exec i s = .next t ∧ t.pc = s.pc + 2#16 ∧ f.z = decide (r = 0#16) ∧ f.n = r.getLsbD 15 ∧
      RegWritten s rA r f t

/-- TST writes the four flags of rA - rB and no register (`44_yop.md` R467). -/
def Obligations.TstCompares : Prop :=
  ∀ (s : State) (rA rB : RegField),
    ∃ t r f, exec (.tst rA rB) s = .next t ∧ t.pc = s.pc + 2#16 ∧ IsDifference (s.reg rA) (s.reg rB) false r f ∧
      RegWritten s 0#3 r f t

/-- NOT complements, NEG negates modulo 2^16, DUB copies the upper byte to the lower; their flags are left open
(`45_zop.md` R481 to R483). -/
def Obligations.NotNegDub : Prop :=
  ∀ (s : State) (rA : RegField),
    (∃ t f, exec (.not rA) s = .next t ∧ t.pc = s.pc + 2#16 ∧ RegWritten s rA (~~~(s.reg rA)) f t) ∧
    (∃ t f r, exec (.neg rA) s = .next t ∧ t.pc = s.pc + 2#16 ∧ r + s.reg rA = 0#16 ∧ RegWritten s rA r f t) ∧
    (∃ t f r, exec (.dub rA) s = .next t ∧ t.pc = s.pc + 2#16 ∧
      r.extractLsb' 8 8 = (s.reg rA).extractLsb' 8 8 ∧ r.extractLsb' 0 8 = (s.reg rA).extractLsb' 8 8 ∧
      RegWritten s rA r f t)

/-- SXT, the words 0xFFD8 to 0xFFDF, sign-extends the low byte, clears C and sets Z from the result; N and V are left
open (`45_zop.md` R484). -/
def Obligations.SxtExtends : Prop :=
  ∀ (s : State) (rA : RegField), decode (0b1111111111011#13 ++ rA) = .sxt rA ∧
    ∃ t f r, exec (.sxt rA) s = .next t ∧ t.pc = s.pc + 2#16 ∧ r.toInt = ((s.reg rA).extractLsb' 0 8).toInt ∧
      f.c = false ∧ f.z = decide (r = 0#16) ∧ RegWritten s rA r f t

/-- SRA and SRL shift right by one, keeping the sign or filling with zero, with C the bit shifted out; Z, N and V are
left open (`45_zop.md` R485, R486). -/
def Obligations.ShiftsRight : Prop :=
  ∀ (s : State) (rA : RegField),
    (∃ t f r, exec (.sra rA) s = .next t ∧ t.pc = s.pc + 2#16 ∧ r.toInt = (s.reg rA).toInt / 2 ∧
      f.c = (s.reg rA).getLsbD 0 ∧ RegWritten s rA r f t) ∧
    (∃ t f r, exec (.srl rA) s = .next t ∧ t.pc = s.pc + 2#16 ∧ r.toNat = (s.reg rA).toNat / 2 ∧
      f.c = (s.reg rA).getLsbD 0 ∧ RegWritten s rA r f t)

/-- CCF clears and SCF sets the carry flag, in both modes, and changes no other flag and no register (`46_vop.md` R501,
R502). -/
def Obligations.CarryFlagSetAndCleared : Prop :=
  ∀ s : State,
    (∃ t, exec .ccf s = .next t ∧ t.pc = s.pc + 2#16 ∧ RegWritten s 0#3 0#16 { s.flags with c := false } t) ∧
    (∃ t, exec .scf s = .next t ∧ t.pc = s.pc + 2#16 ∧ RegWritten s 0#3 0#16 { s.flags with c := true } t)

/-! ### Special registers and code memory -/

/-- LSP reads the special register its operand numbers into rA, with that register's read effect (`44_yop.md` R461,
`10_state.md` R121 to R142). That a read of s0 consumes nothing while the card is deselected is the model's choice (log
entry 47). -/
def Obligations.LspReads : Prop :=
  ∀ (s : State) (rA rB : RegField), s.SprStated (s.reg rB) →
    ∃ t v, exec (.lsp rA rB) s = .next t ∧ t.pc = s.pc + 2#16 ∧ SprReads s (s.reg rB) v ∧
      SprReadEffect s (s.reg rB) t ∧ SameMemory s t ∧ t.stored = s.stored ∧ t.loaded = s.loaded ∧
      (rA ≠ 0#3 → t.reg rA = v) ∧ SameRegistersBut s t rA

/-- LSI stores the special register its operand numbers at the data address in rA, with that register's read effect
(`44_yop.md` R462). Two clauses are the model's choice: that a read of s0 consumes nothing while the card is deselected
(log entry 47), and that a byte a memory-mapped device takes completes and changes no memory (log entry 49). -/
def Obligations.LsiStores : Prop :=
  ∀ (s : State) (rA rB : RegField), s.SprStated (s.reg rB) → s.CanStoreWord (s.reg rA) →
    ∃ t v, exec (.lsi rA rB) s = .next t ∧ t.pc = s.pc + 2#16 ∧ SprReads s (s.reg rB) v ∧
      SprReadEffect s (s.reg rB) t ∧ (∀ j, t.reg j = s.reg j) ∧
      WordPut s (s.physical .data (s.reg rA)) v t

/-- SSP writes rA to the special register its operand numbers; a register whose writes are ignored leaves the state as it
was (`44_yop.md` R463, `10_state.md` R122 to R142). That a write of s1 leaves the card's command and response as they are
is the model's choice (log entry 47). -/
def Obligations.SspWrites : Prop :=
  ∀ (s : State) (rA rB : RegField), s.SprWriteStated (s.reg rB) (s.reg rA) →
    ∃ t, exec (.ssp rA rB) s = .next t ∧ t.pc = s.pc + 2#16 ∧ SprWritten s (s.reg rB) (s.reg rA) t

/-- SSI writes the word at the data address in rB to the special register rA numbers (`44_yop.md` R464); s1 as in SspWrites
(log entry 47). A device's bytes are free (log entry 49). -/
def Obligations.SsiWrites : Prop :=
  ∀ (s : State) (rA rB : RegField), s.CanReadWord .data (s.reg rB) .load →
    s.SprWriteStated (s.reg rA) (s.wordAt .data (s.reg rB) .load) →
    ∃ t, exec (.ssi rA rB) s = .next t ∧ t.pc = s.pc + 2#16 ∧
      ReadsWord s (s.physical .data (s.reg rB)) (s.wordAt .data (s.reg rB) .load) ∧
      SprWritten s (s.reg rA) (s.wordAt .data (s.reg rB) .load) t

/-- LCW loads the little-endian word at the code address in rB, from a page that is executable; a device's bytes are
free (`44_yop.md` R465, log entry 49). -/
def Obligations.LcwLoads : Prop :=
  ∀ (s : State) (rA rB : RegField), s.CanReadWord .code (s.reg rB) .codeRead →
    ∃ t w, exec (.lcw rA rB) s = .next t ∧ t.pc = s.pc + 2#16 ∧
      ReadsWord s (s.physical .code (s.reg rB)) w ∧ RegWritten s rA w s.flags t

/-! ### System instructions -/

/-- SYS n enters the kernel at 0x20 + 4n with IRR the address after it, from user mode and from a kernel with interrupts
enabled; in a kernel with interrupts disabled it is a double fault (`44_yop.md` R466, `60_exceptions.md` R604). -/
def Obligations.SysEnters : Prop :=
  ∀ (s : State) (n : BitVec 3),
    (s.TrapsAllowed → ∃ t, exec (.sys n) s = .next t ∧ t.pc.toNat = 0x20 + 4 * n.toNat ∧
      Entered s (.sys n) (s.pc + 2#16) t) ∧
    (s.mode = .kernel → s.ie = false → ∃ t, exec (.sys n) s = .next t ∧
      if Config.doubleFaultResets then IsReset t else HaltedFrom s t)

/-- The always-illegal words raise an illegal instruction in either mode: 0x0000, 0xFFFF, and SYS with a nonzero rB
field, the 56 words 0xFF48 to 0xFF7F (`30_encoding.md` R321). -/
def Obligations.IllegalWords : Prop :=
  (∀ w : Word, w = 0x0000#16 ∨ w = 0xFFFF#16 ∨ (0xFF48 ≤ w.toNat ∧ w.toNat ≤ 0xFF7F) ↔
    decode w = .illegalZero ∨ decode w = .die ∨ ∃ rA rB, rB ≠ 0#3 ∧ decode w = .illegalSysRb rA rB) ∧
  (∀ (s : State) (i : Instr), (i = .illegalZero ∨ i = .die ∨ ∃ rA rB, i = .illegalSysRb rA rB) →
    (s.TrapsAllowed → ∃ t reason, exec i s = .next t ∧ Entered s (.illegal reason) s.pc t) ∧
    (s.mode = .kernel → s.ie = false → ∃ t, exec i s = .next t ∧
      if Config.doubleFaultResets then IsReset t else HaltedFrom s t))

/-- In user mode DI, EI, HLT and RTI, and LSP, LSI, SSP and SSI of special registers 8 to 127, take the illegal
instruction exception and do nothing else (`30_encoding.md` R323, `60_exceptions.md` R602 (d), (e)). -/
def Obligations.PrivilegedInUserModeIsIllegal : Prop :=
  ∀ s : State, s.mode = .user →
    (∀ i : Instr, i = .di ∨ i = .ei ∨ i = .hlt ∨ i = .rti →
      ∃ t, exec i s = .next t ∧ Entered s (.illegal .privileged) s.pc t) ∧
    (∀ (i : Instr) (rA rB k : RegField), 8 ≤ (s.reg k).toNat → (s.reg k).toNat ≤ 127 →
      (i = .lsp rA rB ∧ k = rB ∨ i = .lsi rA rB ∧ k = rB ∨ i = .ssp rA rB ∧ k = rB ∨ i = .ssi rA rB ∧ k = rA) →
      ∃ t, exec i s = .next t ∧ Entered s (.illegal .userSpr) s.pc t)

/-- DI, the word 0xFFFA, clears and EI, 0xFFFB, sets the interrupt enable in kernel mode, and neither changes anything
else; in user mode both raise the illegal instruction exception (`46_vop.md` R503, R504). -/
def Obligations.InterruptEnableSetAndCleared : Prop :=
  decode 0xFFFA = .di ∧ decode 0xFFFB = .ei ∧
  (∀ s : State, s.mode = .kernel →
    (∃ t, exec .di s = .next t ∧ t.pc = s.pc + 2#16 ∧ t.ie = false ∧ SameRegisters s t ∧
      RegisterFrame { s with ie := false } t) ∧
    (∃ t, exec .ei s = .next t ∧ t.pc = s.pc + 2#16 ∧ t.ie = true ∧ SameRegisters s t ∧
      RegisterFrame { s with ie := true } t)) ∧
  (∀ (s : State) (i : Instr), s.mode = .user → i = .di ∨ i = .ei →
    ∃ t, exec i s = .next t ∧ Entered s (.illegal .privileged) s.pc t)

/-- In kernel mode HLT halts the machine and changes nothing else that the spec gives a value (`46_vop.md` R505,
`60_exceptions.md` R640). -/
def Obligations.HltHalts : Prop :=
  ∀ s : State, s.mode = .kernel →
    ∃ t, exec .hlt s = .next t ∧ HaltedFrom s t ∧ t.irr = s.irr ∧ t.icr = s.icr ∧ t.idr = s.idr ∧ t.isr = s.isr

/-- BRK with the emulator's `BRK_EFFECT` continues at the next instruction in either mode and leaves one host-visible
event; with `BRK_EFFECT` not given, the spec's default, it stops by name. That the platform at reset is the emulator's
is the model's choice (`46_vop.md` R506, D29, log entry 19). -/
def Obligations.BrkContinues : Prop :=
  (∀ s : State, s.platform.brk = .emulator →
    ∃ t, exec .brk s = .next t ∧ t.pc = s.pc + 2#16 ∧ SameRegisters s t ∧
      RegisterFrame { s with debugEvents := s.debugEvents + 1 } t) ∧
  (∀ s : State, s.platform.brk = .notGiven → exec .brk s = .fault .brkEffect) ∧
  State.reset.platform.brk = .emulator

/-! ### Rules of the whole machine -/

/-- A step of user mode cannot leave its context's reach: it changes no register of another context, no MMU register,
not CONTEXT or the SPI device, nothing of the UART but by the host's own moves, no byte of memory but through a data page
its context may write; and if it leaves user mode it does so by trap entry, which with T = 0 changes no register and no
memory (`60_exceptions.md` R628, R636). That user mode cannot write T is decision D36 (log entry 38); with T = 1 the
trace trap may clear T, follow the instruction, or end in a double fault, as `TRAP_BIT` says (log entry 16). That a
memory-mapped device changes no memory is the model's choice (log entry 49). -/
def Obligations.UserModeConfined : Prop :=
  ∀ s t : State, s.mode = .user → step s = .next t →
    ∃ u : State, Confined s u ∧ (t = u ∨ s.t = true ∧ t = u.doubleFault) ∧
      (s.t = false → u.t = false) ∧
      (u.mode = .user ∧ u.ie = s.ie ∧ u.irr = s.irr ∧ u.icr = s.icr ∧ u.idr = s.idr ∧ u.isr = s.isr ∨
        u.mode = .kernel ∧ u.ie = false ∧ u.isr = isrEnc .user ∧
          (∃ c, u.icr = icrCode c ∧ u.pc = vectorAddress (vectorOf c)) ∧
          (s.t = false → (∀ c, u.bankOf c = s.bankOf c) ∧ SameMemory s u))

/-- What a user-mode instruction does depends only on what its program sees, and of memory that is only the bytes its own
MMU registers let it read: two states that agree on it stop alike, leave user mode alike (same vector, return address,
cause and data), or agree on it afterwards (`60_exceptions.md` R636). That both find the same bytes in a memory-mapped
device is the model's choice (log entry 49). -/
def Obligations.UserInstructionsSeeOnlyTheirContext : Prop :=
  ∀ (i : Instr) (s s' : State), s.mode = .user → UserView s s' →
    match exec i s, exec i s' with
    | .next t, .next t' =>
      t.mode = t'.mode ∧ (t.mode = .user → UserView t t') ∧
        (t.mode = .kernel → t.pc = t'.pc ∧ t.irr = t'.irr ∧ t.icr = t'.icr ∧ t.idr = t'.idr ∧ t.isr = t'.isr)
    | .fault f, .fault f' => f = f'
    | _, _ => False

/-- The arithmetic flags of a context are written only by ADI, the XOPs, TST, the arithmetic ZOPs, CCF, SCF, and SSP or
SSI of SPR 1; IE only by DI, EI, RTI and trap entry; T only by SSP or SSI of SPR 1 in kernel mode; a double-fault reset
aside (`10_state.md` R109, R111, `60_exceptions.md` R613). -/
def Obligations.StatusWrittenOnlyByItsInstructions : Prop :=
  ∀ (i : Instr) (s t : State), exec i s = .next t → ¬(Config.doubleFaultResets = true ∧ IsReset t) →
    ((∃ c, (t.bankOf c).flags ≠ (s.bankOf c).flags) →
      (∃ rA rB imm7, i = .adi rA rB imm7) ∨
      (∃ rA rB rC, i = .sbb rA rB rC ∨ i = .adc rA rB rC ∨ i = .sub rA rB rC ∨ i = .add rA rB rC ∨
        i = .xor rA rB rC ∨ i = .or rA rB rC ∨ i = .and rA rB rC) ∨
      (∃ rA rB, i = .tst rA rB ∨ i = .ssp rA rB ∧ s.reg rB = 1#16 ∨ i = .ssi rA rB ∧ s.reg rA = 1#16) ∨
      (∃ rA, i = .not rA ∨ i = .neg rA ∨ i = .dub rA ∨ i = .sxt rA ∨ i = .sra rA ∨ i = .srl rA) ∨
      i = .ccf ∨ i = .scf) ∧
    (t.ie ≠ s.ie → i = .di ∨ i = .ei ∨ i = .rti ∨
      t.mode = .kernel ∧ t.ie = false ∧ t.isr = isrEnc s.mode ∧ ∃ c, t.pc = vectorAddress (vectorOf c)) ∧
    (t.t ≠ s.t → s.mode = .kernel ∧
      ∃ rA rB, i = .ssp rA rB ∧ s.reg rB = 1#16 ∨ i = .ssi rA rB ∧ s.reg rA = 1#16)

/-- The SD card. The error state is for good: no instruction leaves it or changes the store in it, and every read of s0
times out, as it does wherever the card has no response byte, selected or not; a card that is sent a byte while selected
before ten bytes of 0xFF have come deselected enters it. A byte changes the store only where it completes CMD24 on an
initialised card with the byte address of a sector the card has, and then that sector's 512 bytes become the command's;
the response to a CMD17 of a sector holds its 512 bytes. The order of phases, and that nothing else ends the error state
or changes the store, is the model's reading of R663 to R667 (log entry 26). -/
def Obligations.SdCardErrorStateIsForGood : Prop :=
  (∀ (i : Instr) (s t : State), exec i s = .next t → s.spi.card.phase = .failed →
    t.spi.card.phase = .failed ∧ t.spi.card.store = s.spi.card.store ∨
      (Config.doubleFaultResets = true ∧ IsReset t)) ∧
  (∀ p : Spi, p.card.present = true → p.card.phase = .failed ∨ p.card.reply = [] →
    p.fetchByte = (some 0xFF#8, p)) ∧
  (∀ (p : Spi) (n : Nat) (b : Byte), p.card.present = true → p.sel.getLsbD 0 = false → p.card.phase = .idle n →
    n < 10 → (p.send b).card.phase = .failed) ∧
  (∀ (p : Spi) (b : Byte),
    (p.send b).card.store = p.card.store ∨
      p.card.phase = .ready ∧ ∃ (address : BitVec 32) (data : Vector Byte 512),
        sdCommand (p.card.received ++ [b]) = some (.cmd24 address data) ∧ address.toNat % 512 = 0 ∧
        address.toNat + 512 ≤ 512 * p.card.sectors ∧
        ∀ a, sparseGet unlistedByte (p.send b).card.store a =
          if h : address.toNat ≤ a ∧ a < address.toNat + 512 then data[a - address.toNat]'(by omega)
          else sparseGet unlistedByte p.card.store a) ∧
  (∀ (p : Spi) (b : Byte), p.card.present = true → p.sel.getLsbD 0 = false → p.card.phase = .ready →
    ∃ k : SdCard, k.sectors = p.card.sectors ∧ k.store = (p.send b).card.store ∧
      (p.send b).card.reply = k.replyAfter (sdCommand (p.card.received ++ [b])) b) ∧
  (∀ (k : SdCard) (b : Byte) (address : BitVec 32), address.toNat % 512 = 0 →
    address.toNat + 512 ≤ 512 * k.sectors →
    ∃ before after, k.replyAfter (some (.cmd17 address)) b =
      before ++ (List.range 512).map (fun i => sparseGet unlistedByte k.store (address.toNat + i)) ++ after)
end

