-- ==== Sys2Proof/Laws/Encoding.lean ====
section
/-! SUPPORT. The words of the encoding formats, bit by bit and as numbers, and the bytes of a word. -/

namespace Sys2Proof

/-! ### Bits -/

theorem wordM_getLsbD (op3 : BitVec 3) (imm7 : BitVec 7) (rB rA : RegField) (i : Nat) :
    (wordM op3 imm7 rB rA).getLsbD i =
      if i < 3 then rA.getLsbD i else if i < 6 then rB.getLsbD (i - 3)
      else if i < 13 then imm7.getLsbD (i - 6) else op3.getLsbD (i - 13) := by
  unfold wordM
  refine BitVec.getLsbD_append.trans ?_
  simp only [BitVec.getLsbD_append, Nat.sub_sub]
  split_ifs <;> first | rfl | omega

theorem wordB_getLsbD (op3 : BitVec 3) (imm10 : BitVec 10) (low : BitVec 3) (i : Nat) :
    (wordB op3 imm10 low).getLsbD i =
      if i < 3 then low.getLsbD i else if i < 13 then imm10.getLsbD (i - 3) else op3.getLsbD (i - 13) := by
  unfold wordB
  refine BitVec.getLsbD_append.trans ?_
  simp only [BitVec.getLsbD_append, Nat.sub_sub]
  split_ifs <;> first | rfl | omega

theorem wordJ_getLsbD (imm6 : BitVec 6) (rB rA : RegField) (i : Nat) :
    (wordJ imm6 rB rA).getLsbD i =
      if i < 3 then rA.getLsbD i else if i < 6 then rB.getLsbD (i - 3)
      else if i < 12 then imm6.getLsbD (i - 6) else (0xE#4).getLsbD (i - 12) := by
  unfold wordJ
  refine BitVec.getLsbD_append.trans ?_
  simp only [BitVec.getLsbD_append, Nat.sub_sub]
  split_ifs <;> first | rfl | omega

theorem wordX_getLsbD (x : BitVec 3) (rC rB rA : RegField) (i : Nat) :
    (wordX x rC rB rA).getLsbD i =
      if i < 3 then rA.getLsbD i else if i < 6 then rB.getLsbD (i - 3) else if i < 9 then rC.getLsbD (i - 6)
      else if i < 12 then x.getLsbD (i - 9) else (0xF#4).getLsbD (i - 12) := by
  unfold wordX
  refine BitVec.getLsbD_append.trans ?_
  simp only [BitVec.getLsbD_append, Nat.sub_sub]
  split_ifs <;> first | rfl | omega

/-! ### Fields read back -/

theorem wordM_fields (op3 : BitVec 3) (imm7 : BitVec 7) (rB rA : RegField) :
    (wordM op3 imm7 rB rA).extractLsb' 0 3 = rA ∧ (wordM op3 imm7 rB rA).extractLsb' 3 3 = rB ∧
      (wordM op3 imm7 rB rA).extractLsb' 6 7 = imm7 ∧ (wordM op3 imm7 rB rA).extractLsb' 13 3 = op3 := by
  refine ⟨?_, ?_, ?_, ?_⟩ <;>
  · apply BitVec.eq_of_getLsbD_eq
    intro i hi
    rw [BitVec.getLsbD_extractLsb', wordM_getLsbD]
    interval_cases i <;> simp

theorem wordB_fields (op3 : BitVec 3) (imm10 : BitVec 10) (low : BitVec 3) :
    (wordB op3 imm10 low).extractLsb' 0 3 = low ∧ (wordB op3 imm10 low).extractLsb' 3 10 = imm10 ∧
      (wordB op3 imm10 low).extractLsb' 13 3 = op3 := by
  refine ⟨?_, ?_, ?_⟩ <;>
  · apply BitVec.eq_of_getLsbD_eq
    intro i hi
    rw [BitVec.getLsbD_extractLsb', wordB_getLsbD]
    interval_cases i <;> simp

theorem wordJ_fields (imm6 : BitVec 6) (rB rA : RegField) :
    (wordJ imm6 rB rA).extractLsb' 0 3 = rA ∧ (wordJ imm6 rB rA).extractLsb' 3 3 = rB ∧
      (wordJ imm6 rB rA).extractLsb' 6 6 = imm6 ∧ (wordJ imm6 rB rA).extractLsb' 12 1 = 0#1 ∧
      (wordJ imm6 rB rA).extractLsb' 13 3 = 7#3 := by
  refine ⟨?_, ?_, ?_, ?_, ?_⟩ <;>
  · apply BitVec.eq_of_getLsbD_eq
    intro i hi
    rw [BitVec.getLsbD_extractLsb', wordJ_getLsbD]
    interval_cases i <;> simp

theorem wordX_fields (x : BitVec 3) (rC rB rA : RegField) :
    (wordX x rC rB rA).extractLsb' 0 3 = rA ∧ (wordX x rC rB rA).extractLsb' 3 3 = rB ∧
      (wordX x rC rB rA).extractLsb' 6 3 = rC ∧ (wordX x rC rB rA).extractLsb' 9 3 = x ∧
      (wordX x rC rB rA).extractLsb' 12 1 = 1#1 ∧ (wordX x rC rB rA).extractLsb' 13 3 = 7#3 := by
  refine ⟨?_, ?_, ?_, ?_, ?_, ?_⟩ <;>
  · apply BitVec.eq_of_getLsbD_eq
    intro i hi
    rw [BitVec.getLsbD_extractLsb', wordX_getLsbD]
    interval_cases i <;> simp

/-! ### Bytes -/

theorem wordOfBytes_low_high (w : Word) : wordOfBytes (lowByte w) (highByte w) = w := by
  unfold wordOfBytes lowByte highByte
  apply BitVec.eq_of_getLsbD_eq
  intro i hi
  refine BitVec.getLsbD_append.trans ?_
  simp only [BitVec.getLsbD_extractLsb']
  interval_cases i <;> simp

theorem lowByte_wordOfBytes (lo hi : Byte) : lowByte (wordOfBytes lo hi) = lo := by
  unfold wordOfBytes lowByte
  apply BitVec.eq_of_getLsbD_eq
  intro i h
  rw [BitVec.getLsbD_extractLsb']
  refine (congrArg _ BitVec.getLsbD_append).trans ?_
  interval_cases i <;> simp

theorem highByte_wordOfBytes (lo hi : Byte) : highByte (wordOfBytes lo hi) = hi := by
  unfold wordOfBytes highByte
  apply BitVec.eq_of_getLsbD_eq
  intro i h
  rw [BitVec.getLsbD_extractLsb']
  refine (congrArg _ BitVec.getLsbD_append).trans ?_
  interval_cases i <;> simp

end Sys2Proof
end

