-- ==== Sys2Proof/Laws/Memory.lean ====
section
/-! SUPPORT. The laws of sparse data and of memory: what is read after a write, and the canonical form every write
keeps. -/

namespace Sys2Proof.Machine

section Sparse

variable {β : Type}

theorem sparseGet_filter_ne (d : β) (m : List (Nat × β)) (a b : Nat) (h : b ≠ a) :
    sparseGet d (m.filter (fun p => p.1 != a)) b = sparseGet d m b := by
  induction m with
  | nil => rfl
  | cons p rest ih =>
    obtain ⟨k, v⟩ := p
    by_cases hk : k = a
    · have : k ≠ b := fun h' => h (h' ▸ hk)
      simpa [List.filter_cons, hk, sparseGet, h.symm] using ih
    · simp [hk, sparseGet, ih]

theorem sparseGet_filter_self (d : β) (m : List (Nat × β)) (a : Nat) :
    sparseGet d (m.filter (fun p => p.1 != a)) a = d := by
  induction m with
  | nil => rfl
  | cons p rest ih =>
    obtain ⟨k, v⟩ := p
    by_cases hk : k = a <;> simp [hk, sparseGet, ih]

theorem sparseGet_insert_ne (d : β) (m : List (Nat × β)) (a b : Nat) (v : β) (h : b ≠ a) :
    sparseGet d (sparseInsert m a v) b = sparseGet d m b := by
  induction m with
  | nil => simp [sparseInsert, sparseGet, h.symm]
  | cons p rest ih =>
    obtain ⟨k, w⟩ := p
    by_cases hk : a < k <;> simp [sparseInsert, hk, sparseGet, h.symm, ih]

theorem sparseGet_insert_self (d : β) (m : List (Nat × β)) (a : Nat) (v : β)
    (h : ∀ p ∈ m, p.1 ≠ a) : sparseGet d (sparseInsert m a v) a = v := by
  induction m with
  | nil => simp [sparseInsert, sparseGet]
  | cons p rest ih =>
    obtain ⟨k, w⟩ := p
    have hk : k ≠ a := h (k, w) (by simp)
    by_cases hlt : a < k
    · simp [sparseInsert, hlt, sparseGet]
    · simpa [sparseInsert, hlt, sparseGet, hk] using ih (fun p hp => h p (by simp [hp]))

theorem mem_sparseInsert {m : List (Nat × β)} {a : Nat} {v : β} {p : Nat × β} (h : p ∈ sparseInsert m a v) :
    p = (a, v) ∨ p ∈ m := by
  induction m with
  | nil => simpa [sparseInsert] using h
  | cons q rest ih =>
    obtain ⟨k, w⟩ := q
    by_cases hlt : a < k
    · simpa [sparseInsert, hlt] using h
    · rw [sparseInsert, if_neg hlt, List.mem_cons] at h
      rcases h with h | h
      · exact .inr (by simp [h])
      · rcases ih h with h | h
        · exact .inl h
        · exact .inr (by simp [h])

theorem filter_sparseInsert (m : List (Nat × β)) (a : Nat) (v : β) :
    (sparseInsert m a v).filter (fun p => p.1 != a) = m.filter (fun p => p.1 != a) := by
  induction m with
  | nil => simp [sparseInsert]
  | cons p rest ih =>
    obtain ⟨k, w⟩ := p
    by_cases hlt : a < k
    · simp [sparseInsert, hlt]
    · rw [sparseInsert, if_neg hlt, List.filter_cons, List.filter_cons, ih]

/-- A key that no entry has reads as the default. -/
theorem sparseGet_filter_none (d : β) (m : List (Nat × β)) (g : Nat × β → Bool) (a : Nat)
    (h : ∀ v, g (a, v) = false) : sparseGet d (m.filter g) a = d := by
  induction m with
  | nil => rfl
  | cons p rest ih =>
    obtain ⟨k, v⟩ := p
    rw [List.filter_cons]
    split
    · rename_i hg
      have hk : k ≠ a := fun hk => by rw [hk, h v] at hg; cases hg
      simpa only [sparseGet, if_neg hk] using ih
    · exact ih

/-- Of data put together from two, a key kept from the first alone reads as in the first. -/
theorem sparseGet_filter_append (d : β) (m n : List (Nat × β)) (f g : Nat × β → Bool) (a : Nat)
    (hf : ∀ v, f (a, v) = true) (hg : ∀ v, g (a, v) = false) :
    sparseGet d (m.filter f ++ n.filter g) a = sparseGet d m a := by
  induction m with
  | nil => exact sparseGet_filter_none d n g a hg
  | cons p rest ih =>
    obtain ⟨k, v⟩ := p
    by_cases hk : k = a
    · subst hk
      simp [hf, sparseGet]
    · rw [List.filter_cons]
      split
      · simpa only [List.cons_append, sparseGet, if_neg hk] using ih
      · simpa only [sparseGet, if_neg hk] using ih

variable [DecidableEq β]

/-- Reading the key just written gives the value written. -/
@[simp] theorem sparseGet_put_self (d : β) (m : List (Nat × β)) (a : Nat) (v : β) :
    sparseGet d (sparsePut d m a v) a = v := by
  unfold sparsePut
  by_cases hv : v = d
  · simp [hv, sparseGet_filter_self]
  · simp only [hv, if_false]
    exact sparseGet_insert_self d _ a v (by simp [List.mem_filter])

/-- A write leaves every other key alone. -/
theorem sparseGet_put_ne (d : β) (m : List (Nat × β)) (a b : Nat) (v : β) (h : b ≠ a) :
    sparseGet d (sparsePut d m a v) b = sparseGet d m b := by
  unfold sparsePut
  by_cases hv : v = d
  · simp [hv, sparseGet_filter_ne d m a b h]
  · simp only [hv, if_false]
    rw [sparseGet_insert_ne d _ a b v h, sparseGet_filter_ne d m a b h]

/-- Of two writes to one key the second counts. -/
theorem sparsePut_put (d : β) (m : List (Nat × β)) (a : Nat) (v w : β) :
    sparsePut d (sparsePut d m a v) a w = sparsePut d m a w := by
  have h : (sparsePut d m a v).filter (fun p => p.1 != a) = m.filter (fun p => p.1 != a) := by
    unfold sparsePut
    by_cases hv : v = d
    · simp [hv]
    · simp only [hv, if_false, filter_sparseInsert]
      simp
  unfold sparsePut at h ⊢
  rw [h]

/-- The canonical form, entry by entry. -/
theorem sparseWf_cons (d : β) (bound k : Nat) (v : β) (rest : List (Nat × β)) :
    sparseWf d bound ((k, v) :: rest) = true ↔
      k < bound ∧ v ≠ d ∧ (∀ p ∈ rest, k < p.1) ∧ sparseWf d bound rest = true := by
  simp [sparseWf, and_assoc]

theorem sparseWf_filter (d : β) (bound : Nat) (m : List (Nat × β)) (f : Nat × β → Bool)
    (h : sparseWf d bound m = true) : sparseWf d bound (m.filter f) = true := by
  induction m with
  | nil => rfl
  | cons p rest ih =>
    obtain ⟨k, v⟩ := p
    rw [sparseWf_cons] at h
    obtain ⟨hk, hv, hall, hrest⟩ := h
    by_cases hf : f (k, v)
    · rw [List.filter_cons_of_pos hf, sparseWf_cons]
      exact ⟨hk, hv, fun p hp => hall p (List.mem_filter.mp hp).1, ih hrest⟩
    · rw [List.filter_cons_of_neg hf]
      exact ih hrest

theorem sparseWf_insert (d : β) (bound : Nat) (m : List (Nat × β)) (a : Nat) (v : β) (ha : a < bound) (hv : v ≠ d)
    (hne : ∀ p ∈ m, p.1 ≠ a) (h : sparseWf d bound m = true) : sparseWf d bound (sparseInsert m a v) = true := by
  induction m with
  | nil => simp [sparseInsert, sparseWf, ha, hv]
  | cons p rest ih =>
    obtain ⟨k, w⟩ := p
    have hka : k ≠ a := hne (k, w) (by simp)
    have h' := h
    rw [sparseWf_cons] at h
    obtain ⟨hk, hw, hall, hrest⟩ := h
    by_cases hlt : a < k
    · rw [sparseInsert, if_pos hlt, sparseWf_cons]
      refine ⟨ha, hv, fun p hp => ?_, h'⟩
      rcases List.mem_cons.mp hp with hp | hp
      · simpa [hp] using hlt
      · exact lt_trans hlt (hall p hp)
    · rw [sparseInsert, if_neg hlt, sparseWf_cons]
      refine ⟨hk, hw, fun p hp => ?_, ih (fun p hp => hne p (by simp [hp])) hrest⟩
      rcases mem_sparseInsert hp with hp | hp
      · simp only [hp]; omega
      · exact hall p hp

/-- A write keeps the canonical form. -/
theorem sparseWf_put (d : β) (bound : Nat) (m : List (Nat × β)) (a : Nat) (v : β) (ha : a < bound)
    (h : sparseWf d bound m = true) : sparseWf d bound (sparsePut d m a v) = true := by
  unfold sparsePut
  by_cases hv : v = d
  · simpa [hv] using sparseWf_filter d bound m _ h
  · simp only [hv, if_false]
    exact sparseWf_insert d bound _ a v ha hv (by simp [List.mem_filter]) (sparseWf_filter d bound m _ h)

/-- The normal form is canonical. -/
theorem sparseWf_normal (d : β) (bound : Nat) (m : List (Nat × β)) : sparseWf d bound (sparseNormal d bound m) = true := by
  induction m with
  | nil => rfl
  | cons p rest ih =>
    obtain ⟨k, v⟩ := p
    by_cases hk : k < bound
    · simpa [sparseNormal, hk] using sparseWf_put d bound _ k v hk ih
    · simpa [sparseNormal, hk] using ih

/-- The normal form reads as the list does. -/
theorem sparseGet_normal (d : β) (bound : Nat) (m : List (Nat × β)) (a : Nat) (ha : a < bound) :
    sparseGet d (sparseNormal d bound m) a = sparseGet d m a := by
  induction m with
  | nil => rfl
  | cons p rest ih =>
    obtain ⟨k, v⟩ := p
    by_cases hk : k < bound
    · by_cases hka : k = a
      · simp [sparseNormal, hka, ha, sparseGet]
      · simp [sparseNormal, hk, sparseGet, hka, sparseGet_put_ne d _ k a v (Ne.symm hka), ih]
    · have hka : k ≠ a := by omega
      simp [sparseNormal, hk, sparseGet, hka, ih]

end Sparse

theorem physAddr_lt (a : PhysAddr) : a.toNat < physBound := a.isLt

@[simp] theorem memRead_memWrite_self (m : List Host.Cell) (a : PhysAddr) (b : Byte) :
    memRead (memWrite m a b) a = b := by
  simp [memRead, memWrite]

theorem memRead_memWrite_ne (m : List Host.Cell) (a c : PhysAddr) (b : Byte) (h : c ≠ a) :
    memRead (memWrite m a b) c = memRead m c :=
  sparseGet_put_ne _ _ _ _ _ (fun h' => h (BitVec.eq_of_toNat_eq h'))

/-- Every memory write keeps the canonical form. -/
theorem memWf_memWrite (m : List Host.Cell) (a : PhysAddr) (b : Byte) (h : memWf m = true) :
    memWf (memWrite m a b) = true :=
  sparseWf_put _ _ _ _ _ (physAddr_lt a) h

@[simp] theorem isMarked_setMark_self (m : List (Nat × Bool)) (a : PhysAddr) (mark : Bool) :
    isMarked (setMark m a mark) a = mark := by
  simp [isMarked, setMark]

theorem isMarked_setMark_ne (m : List (Nat × Bool)) (a c : PhysAddr) (mark : Bool) (h : c ≠ a) :
    isMarked (setMark m a mark) c = isMarked m c :=
  sparseGet_put_ne _ _ _ _ _ (fun h' => h (BitVec.eq_of_toNat_eq h'))

/-- An address taken out: the others stay. -/
theorem isMarked_setMark_false (m : List (Nat × Bool)) (a c : PhysAddr) :
    isMarked (setMark m a false) c = (isMarked m c && decide (c ≠ a)) := by
  by_cases h : c = a
  · subst h; simp
  · rw [isMarked_setMark_ne _ _ _ _ h]; simp [h]

theorem marksWf_setMark (m : List (Nat × Bool)) (a : PhysAddr) (mark : Bool) (h : marksWf m = true) :
    marksWf (setMark m a mark) = true :=
  sparseWf_put _ _ _ _ _ (physAddr_lt a) h

end Sys2Proof.Machine
end

