-- ==== Sys2Proof/Laws/State.lean ====
section
/-! SUPPORT. What each update of the state leaves and sets: one lemma per field, true by rfl. -/

namespace Sys2Proof.Machine

/-! ### advance -/

@[simp] theorem State.pc_advance (s : State) : s.advance.pc = s.pc + 2 := rfl
@[simp] theorem State.mode_advance (s : State) : s.advance.mode = s.mode := rfl
@[simp] theorem State.halted_advance (s : State) : s.advance.halted = s.halted := rfl
@[simp] theorem State.t_advance (s : State) : s.advance.t = s.t := rfl
@[simp] theorem State.ie_advance (s : State) : s.advance.ie = s.ie := rfl
@[simp] theorem State.context_advance (s : State) : s.advance.context = s.context := rfl
@[simp] theorem State.irr_advance (s : State) : s.advance.irr = s.irr := rfl
@[simp] theorem State.icr_advance (s : State) : s.advance.icr = s.icr := rfl
@[simp] theorem State.idr_advance (s : State) : s.advance.idr = s.idr := rfl
@[simp] theorem State.isr_advance (s : State) : s.advance.isr = s.isr := rfl
@[simp] theorem State.cyc_advance (s : State) : s.advance.cyc = s.cyc := rfl
@[simp] theorem State.banks_advance (s : State) : s.advance.banks = s.banks := rfl
@[simp] theorem State.mem_advance (s : State) : s.advance.mem = s.mem := rfl
@[simp] theorem State.platform_advance (s : State) : s.advance.platform = s.platform := rfl
@[simp] theorem State.uart_advance (s : State) : s.advance.uart = s.uart := rfl
@[simp] theorem State.spi_advance (s : State) : s.advance.spi = s.spi := rfl
@[simp] theorem State.stored_advance (s : State) : s.advance.stored = s.stored := rfl
@[simp] theorem State.loaded_advance (s : State) : s.advance.loaded = s.loaded := rfl
@[simp] theorem State.draws_advance (s : State) : s.advance.draws = s.draws := rfl
@[simp] theorem State.ticks_advance (s : State) : s.advance.ticks = s.ticks := rfl
@[simp] theorem State.debugEvents_advance (s : State) : s.advance.debugEvents = s.debugEvents := rfl

/-! ### jump -/

@[simp] theorem State.pc_jump (s : State) (a : Word) : (s.jump a).pc = a := rfl
@[simp] theorem State.mode_jump (s : State) (a : Word) : (s.jump a).mode = s.mode := rfl
@[simp] theorem State.halted_jump (s : State) (a : Word) : (s.jump a).halted = s.halted := rfl
@[simp] theorem State.t_jump (s : State) (a : Word) : (s.jump a).t = s.t := rfl
@[simp] theorem State.ie_jump (s : State) (a : Word) : (s.jump a).ie = s.ie := rfl
@[simp] theorem State.context_jump (s : State) (a : Word) : (s.jump a).context = s.context := rfl
@[simp] theorem State.irr_jump (s : State) (a : Word) : (s.jump a).irr = s.irr := rfl
@[simp] theorem State.icr_jump (s : State) (a : Word) : (s.jump a).icr = s.icr := rfl
@[simp] theorem State.idr_jump (s : State) (a : Word) : (s.jump a).idr = s.idr := rfl
@[simp] theorem State.isr_jump (s : State) (a : Word) : (s.jump a).isr = s.isr := rfl
@[simp] theorem State.cyc_jump (s : State) (a : Word) : (s.jump a).cyc = s.cyc := rfl
@[simp] theorem State.banks_jump (s : State) (a : Word) : (s.jump a).banks = s.banks := rfl
@[simp] theorem State.mem_jump (s : State) (a : Word) : (s.jump a).mem = s.mem := rfl
@[simp] theorem State.platform_jump (s : State) (a : Word) : (s.jump a).platform = s.platform := rfl
@[simp] theorem State.uart_jump (s : State) (a : Word) : (s.jump a).uart = s.uart := rfl
@[simp] theorem State.spi_jump (s : State) (a : Word) : (s.jump a).spi = s.spi := rfl
@[simp] theorem State.stored_jump (s : State) (a : Word) : (s.jump a).stored = s.stored := rfl
@[simp] theorem State.loaded_jump (s : State) (a : Word) : (s.jump a).loaded = s.loaded := rfl
@[simp] theorem State.draws_jump (s : State) (a : Word) : (s.jump a).draws = s.draws := rfl
@[simp] theorem State.ticks_jump (s : State) (a : Word) : (s.jump a).ticks = s.ticks := rfl
@[simp] theorem State.debugEvents_jump (s : State) (a : Word) : (s.jump a).debugEvents = s.debugEvents := rfl

/-! ### drawn -/

@[simp] theorem State.pc_drawn (s : State) : s.drawn.pc = s.pc := rfl
@[simp] theorem State.mode_drawn (s : State) : s.drawn.mode = s.mode := rfl
@[simp] theorem State.halted_drawn (s : State) : s.drawn.halted = s.halted := rfl
@[simp] theorem State.t_drawn (s : State) : s.drawn.t = s.t := rfl
@[simp] theorem State.ie_drawn (s : State) : s.drawn.ie = s.ie := rfl
@[simp] theorem State.context_drawn (s : State) : s.drawn.context = s.context := rfl
@[simp] theorem State.irr_drawn (s : State) : s.drawn.irr = s.irr := rfl
@[simp] theorem State.icr_drawn (s : State) : s.drawn.icr = s.icr := rfl
@[simp] theorem State.idr_drawn (s : State) : s.drawn.idr = s.idr := rfl
@[simp] theorem State.isr_drawn (s : State) : s.drawn.isr = s.isr := rfl
@[simp] theorem State.cyc_drawn (s : State) : s.drawn.cyc = s.cyc := rfl
@[simp] theorem State.banks_drawn (s : State) : s.drawn.banks = s.banks := rfl
@[simp] theorem State.mem_drawn (s : State) : s.drawn.mem = s.mem := rfl
@[simp] theorem State.platform_drawn (s : State) : s.drawn.platform = s.platform := rfl
@[simp] theorem State.uart_drawn (s : State) : s.drawn.uart = s.uart := rfl
@[simp] theorem State.spi_drawn (s : State) : s.drawn.spi = s.spi := rfl
@[simp] theorem State.stored_drawn (s : State) : s.drawn.stored = s.stored := rfl
@[simp] theorem State.loaded_drawn (s : State) : s.drawn.loaded = s.loaded := rfl
@[simp] theorem State.draws_drawn (s : State) : s.drawn.draws = s.draws + 1 := rfl
@[simp] theorem State.ticks_drawn (s : State) : s.drawn.ticks = s.ticks := rfl
@[simp] theorem State.debugEvents_drawn (s : State) : s.drawn.debugEvents = s.debugEvents := rfl

/-! ### setBankOf -/

@[simp] theorem State.pc_setBankOf (s : State) (c : Nat) (b : Bank) : (s.setBankOf c b).pc = s.pc := rfl
@[simp] theorem State.mode_setBankOf (s : State) (c : Nat) (b : Bank) : (s.setBankOf c b).mode = s.mode := rfl
@[simp] theorem State.halted_setBankOf (s : State) (c : Nat) (b : Bank) : (s.setBankOf c b).halted = s.halted := rfl
@[simp] theorem State.t_setBankOf (s : State) (c : Nat) (b : Bank) : (s.setBankOf c b).t = s.t := rfl
@[simp] theorem State.ie_setBankOf (s : State) (c : Nat) (b : Bank) : (s.setBankOf c b).ie = s.ie := rfl
@[simp] theorem State.context_setBankOf (s : State) (c : Nat) (b : Bank) : (s.setBankOf c b).context = s.context := rfl
@[simp] theorem State.irr_setBankOf (s : State) (c : Nat) (b : Bank) : (s.setBankOf c b).irr = s.irr := rfl
@[simp] theorem State.icr_setBankOf (s : State) (c : Nat) (b : Bank) : (s.setBankOf c b).icr = s.icr := rfl
@[simp] theorem State.idr_setBankOf (s : State) (c : Nat) (b : Bank) : (s.setBankOf c b).idr = s.idr := rfl
@[simp] theorem State.isr_setBankOf (s : State) (c : Nat) (b : Bank) : (s.setBankOf c b).isr = s.isr := rfl
@[simp] theorem State.cyc_setBankOf (s : State) (c : Nat) (b : Bank) : (s.setBankOf c b).cyc = s.cyc := rfl
@[simp] theorem State.banks_setBankOf (s : State) (c : Nat) (b : Bank) : (s.setBankOf c b).banks = sparsePut Bank.reset s.banks c b := rfl
@[simp] theorem State.mem_setBankOf (s : State) (c : Nat) (b : Bank) : (s.setBankOf c b).mem = s.mem := rfl
@[simp] theorem State.platform_setBankOf (s : State) (c : Nat) (b : Bank) : (s.setBankOf c b).platform = s.platform := rfl
@[simp] theorem State.uart_setBankOf (s : State) (c : Nat) (b : Bank) : (s.setBankOf c b).uart = s.uart := rfl
@[simp] theorem State.spi_setBankOf (s : State) (c : Nat) (b : Bank) : (s.setBankOf c b).spi = s.spi := rfl
@[simp] theorem State.stored_setBankOf (s : State) (c : Nat) (b : Bank) : (s.setBankOf c b).stored = s.stored := rfl
@[simp] theorem State.loaded_setBankOf (s : State) (c : Nat) (b : Bank) : (s.setBankOf c b).loaded = s.loaded := rfl
@[simp] theorem State.draws_setBankOf (s : State) (c : Nat) (b : Bank) : (s.setBankOf c b).draws = s.draws := rfl
@[simp] theorem State.ticks_setBankOf (s : State) (c : Nat) (b : Bank) : (s.setBankOf c b).ticks = s.ticks := rfl
@[simp] theorem State.debugEvents_setBankOf (s : State) (c : Nat) (b : Bank) : (s.setBankOf c b).debugEvents = s.debugEvents := rfl

/-! ### setBank -/

@[simp] theorem State.pc_setBank (s : State) (b : Bank) : (s.setBank b).pc = s.pc := rfl
@[simp] theorem State.mode_setBank (s : State) (b : Bank) : (s.setBank b).mode = s.mode := rfl
@[simp] theorem State.halted_setBank (s : State) (b : Bank) : (s.setBank b).halted = s.halted := rfl
@[simp] theorem State.t_setBank (s : State) (b : Bank) : (s.setBank b).t = s.t := rfl
@[simp] theorem State.ie_setBank (s : State) (b : Bank) : (s.setBank b).ie = s.ie := rfl
@[simp] theorem State.context_setBank (s : State) (b : Bank) : (s.setBank b).context = s.context := rfl
@[simp] theorem State.irr_setBank (s : State) (b : Bank) : (s.setBank b).irr = s.irr := rfl
@[simp] theorem State.icr_setBank (s : State) (b : Bank) : (s.setBank b).icr = s.icr := rfl
@[simp] theorem State.idr_setBank (s : State) (b : Bank) : (s.setBank b).idr = s.idr := rfl
@[simp] theorem State.isr_setBank (s : State) (b : Bank) : (s.setBank b).isr = s.isr := rfl
@[simp] theorem State.cyc_setBank (s : State) (b : Bank) : (s.setBank b).cyc = s.cyc := rfl
@[simp] theorem State.mem_setBank (s : State) (b : Bank) : (s.setBank b).mem = s.mem := rfl
@[simp] theorem State.platform_setBank (s : State) (b : Bank) : (s.setBank b).platform = s.platform := rfl
@[simp] theorem State.uart_setBank (s : State) (b : Bank) : (s.setBank b).uart = s.uart := rfl
@[simp] theorem State.spi_setBank (s : State) (b : Bank) : (s.setBank b).spi = s.spi := rfl
@[simp] theorem State.stored_setBank (s : State) (b : Bank) : (s.setBank b).stored = s.stored := rfl
@[simp] theorem State.loaded_setBank (s : State) (b : Bank) : (s.setBank b).loaded = s.loaded := rfl
@[simp] theorem State.draws_setBank (s : State) (b : Bank) : (s.setBank b).draws = s.draws := rfl
@[simp] theorem State.ticks_setBank (s : State) (b : Bank) : (s.setBank b).ticks = s.ticks := rfl
@[simp] theorem State.debugEvents_setBank (s : State) (b : Bank) : (s.setBank b).debugEvents = s.debugEvents := rfl

/-! ### setReg -/

@[simp] theorem State.pc_setReg (s : State) (i : RegField) (v : Word) : (s.setReg i v).pc = s.pc := rfl
@[simp] theorem State.mode_setReg (s : State) (i : RegField) (v : Word) : (s.setReg i v).mode = s.mode := rfl
@[simp] theorem State.halted_setReg (s : State) (i : RegField) (v : Word) : (s.setReg i v).halted = s.halted := rfl
@[simp] theorem State.t_setReg (s : State) (i : RegField) (v : Word) : (s.setReg i v).t = s.t := rfl
@[simp] theorem State.ie_setReg (s : State) (i : RegField) (v : Word) : (s.setReg i v).ie = s.ie := rfl
@[simp] theorem State.context_setReg (s : State) (i : RegField) (v : Word) : (s.setReg i v).context = s.context := rfl
@[simp] theorem State.irr_setReg (s : State) (i : RegField) (v : Word) : (s.setReg i v).irr = s.irr := rfl
@[simp] theorem State.icr_setReg (s : State) (i : RegField) (v : Word) : (s.setReg i v).icr = s.icr := rfl
@[simp] theorem State.idr_setReg (s : State) (i : RegField) (v : Word) : (s.setReg i v).idr = s.idr := rfl
@[simp] theorem State.isr_setReg (s : State) (i : RegField) (v : Word) : (s.setReg i v).isr = s.isr := rfl
@[simp] theorem State.cyc_setReg (s : State) (i : RegField) (v : Word) : (s.setReg i v).cyc = s.cyc := rfl
@[simp] theorem State.mem_setReg (s : State) (i : RegField) (v : Word) : (s.setReg i v).mem = s.mem := rfl
@[simp] theorem State.platform_setReg (s : State) (i : RegField) (v : Word) : (s.setReg i v).platform = s.platform := rfl
@[simp] theorem State.uart_setReg (s : State) (i : RegField) (v : Word) : (s.setReg i v).uart = s.uart := rfl
@[simp] theorem State.spi_setReg (s : State) (i : RegField) (v : Word) : (s.setReg i v).spi = s.spi := rfl
@[simp] theorem State.stored_setReg (s : State) (i : RegField) (v : Word) : (s.setReg i v).stored = s.stored := rfl
@[simp] theorem State.loaded_setReg (s : State) (i : RegField) (v : Word) : (s.setReg i v).loaded = s.loaded := rfl
@[simp] theorem State.draws_setReg (s : State) (i : RegField) (v : Word) : (s.setReg i v).draws = s.draws := rfl
@[simp] theorem State.ticks_setReg (s : State) (i : RegField) (v : Word) : (s.setReg i v).ticks = s.ticks := rfl
@[simp] theorem State.debugEvents_setReg (s : State) (i : RegField) (v : Word) : (s.setReg i v).debugEvents = s.debugEvents := rfl

/-! ### setLink -/

@[simp] theorem State.pc_setLink (s : State) (v : Word) : (s.setLink v).pc = s.pc := rfl
@[simp] theorem State.mode_setLink (s : State) (v : Word) : (s.setLink v).mode = s.mode := rfl
@[simp] theorem State.halted_setLink (s : State) (v : Word) : (s.setLink v).halted = s.halted := rfl
@[simp] theorem State.t_setLink (s : State) (v : Word) : (s.setLink v).t = s.t := rfl
@[simp] theorem State.ie_setLink (s : State) (v : Word) : (s.setLink v).ie = s.ie := rfl
@[simp] theorem State.context_setLink (s : State) (v : Word) : (s.setLink v).context = s.context := rfl
@[simp] theorem State.irr_setLink (s : State) (v : Word) : (s.setLink v).irr = s.irr := rfl
@[simp] theorem State.icr_setLink (s : State) (v : Word) : (s.setLink v).icr = s.icr := rfl
@[simp] theorem State.idr_setLink (s : State) (v : Word) : (s.setLink v).idr = s.idr := rfl
@[simp] theorem State.isr_setLink (s : State) (v : Word) : (s.setLink v).isr = s.isr := rfl
@[simp] theorem State.cyc_setLink (s : State) (v : Word) : (s.setLink v).cyc = s.cyc := rfl
@[simp] theorem State.mem_setLink (s : State) (v : Word) : (s.setLink v).mem = s.mem := rfl
@[simp] theorem State.platform_setLink (s : State) (v : Word) : (s.setLink v).platform = s.platform := rfl
@[simp] theorem State.uart_setLink (s : State) (v : Word) : (s.setLink v).uart = s.uart := rfl
@[simp] theorem State.spi_setLink (s : State) (v : Word) : (s.setLink v).spi = s.spi := rfl
@[simp] theorem State.stored_setLink (s : State) (v : Word) : (s.setLink v).stored = s.stored := rfl
@[simp] theorem State.loaded_setLink (s : State) (v : Word) : (s.setLink v).loaded = s.loaded := rfl
@[simp] theorem State.draws_setLink (s : State) (v : Word) : (s.setLink v).draws = s.draws := rfl
@[simp] theorem State.ticks_setLink (s : State) (v : Word) : (s.setLink v).ticks = s.ticks := rfl
@[simp] theorem State.debugEvents_setLink (s : State) (v : Word) : (s.setLink v).debugEvents = s.debugEvents := rfl

/-! ### setFlags -/

@[simp] theorem State.pc_setFlags (s : State) (f : Flags) : (s.setFlags f).pc = s.pc := rfl
@[simp] theorem State.mode_setFlags (s : State) (f : Flags) : (s.setFlags f).mode = s.mode := rfl
@[simp] theorem State.halted_setFlags (s : State) (f : Flags) : (s.setFlags f).halted = s.halted := rfl
@[simp] theorem State.t_setFlags (s : State) (f : Flags) : (s.setFlags f).t = s.t := rfl
@[simp] theorem State.ie_setFlags (s : State) (f : Flags) : (s.setFlags f).ie = s.ie := rfl
@[simp] theorem State.context_setFlags (s : State) (f : Flags) : (s.setFlags f).context = s.context := rfl
@[simp] theorem State.irr_setFlags (s : State) (f : Flags) : (s.setFlags f).irr = s.irr := rfl
@[simp] theorem State.icr_setFlags (s : State) (f : Flags) : (s.setFlags f).icr = s.icr := rfl
@[simp] theorem State.idr_setFlags (s : State) (f : Flags) : (s.setFlags f).idr = s.idr := rfl
@[simp] theorem State.isr_setFlags (s : State) (f : Flags) : (s.setFlags f).isr = s.isr := rfl
@[simp] theorem State.cyc_setFlags (s : State) (f : Flags) : (s.setFlags f).cyc = s.cyc := rfl
@[simp] theorem State.mem_setFlags (s : State) (f : Flags) : (s.setFlags f).mem = s.mem := rfl
@[simp] theorem State.platform_setFlags (s : State) (f : Flags) : (s.setFlags f).platform = s.platform := rfl
@[simp] theorem State.uart_setFlags (s : State) (f : Flags) : (s.setFlags f).uart = s.uart := rfl
@[simp] theorem State.spi_setFlags (s : State) (f : Flags) : (s.setFlags f).spi = s.spi := rfl
@[simp] theorem State.stored_setFlags (s : State) (f : Flags) : (s.setFlags f).stored = s.stored := rfl
@[simp] theorem State.loaded_setFlags (s : State) (f : Flags) : (s.setFlags f).loaded = s.loaded := rfl
@[simp] theorem State.draws_setFlags (s : State) (f : Flags) : (s.setFlags f).draws = s.draws := rfl
@[simp] theorem State.ticks_setFlags (s : State) (f : Flags) : (s.setFlags f).ticks = s.ticks := rfl
@[simp] theorem State.debugEvents_setFlags (s : State) (f : Flags) : (s.setFlags f).debugEvents = s.debugEvents := rfl

/-! ### putByte -/

@[simp] theorem State.pc_putByte (s : State) (a : PhysAddr) (b : Byte) : (s.putByte a b).pc = s.pc := rfl
@[simp] theorem State.mode_putByte (s : State) (a : PhysAddr) (b : Byte) : (s.putByte a b).mode = s.mode := rfl
@[simp] theorem State.halted_putByte (s : State) (a : PhysAddr) (b : Byte) : (s.putByte a b).halted = s.halted := rfl
@[simp] theorem State.t_putByte (s : State) (a : PhysAddr) (b : Byte) : (s.putByte a b).t = s.t := rfl
@[simp] theorem State.ie_putByte (s : State) (a : PhysAddr) (b : Byte) : (s.putByte a b).ie = s.ie := rfl
@[simp] theorem State.context_putByte (s : State) (a : PhysAddr) (b : Byte) : (s.putByte a b).context = s.context := rfl
@[simp] theorem State.irr_putByte (s : State) (a : PhysAddr) (b : Byte) : (s.putByte a b).irr = s.irr := rfl
@[simp] theorem State.icr_putByte (s : State) (a : PhysAddr) (b : Byte) : (s.putByte a b).icr = s.icr := rfl
@[simp] theorem State.idr_putByte (s : State) (a : PhysAddr) (b : Byte) : (s.putByte a b).idr = s.idr := rfl
@[simp] theorem State.isr_putByte (s : State) (a : PhysAddr) (b : Byte) : (s.putByte a b).isr = s.isr := rfl
@[simp] theorem State.cyc_putByte (s : State) (a : PhysAddr) (b : Byte) : (s.putByte a b).cyc = s.cyc := rfl
@[simp] theorem State.banks_putByte (s : State) (a : PhysAddr) (b : Byte) : (s.putByte a b).banks = s.banks := rfl
@[simp] theorem State.platform_putByte (s : State) (a : PhysAddr) (b : Byte) : (s.putByte a b).platform = s.platform := rfl
@[simp] theorem State.uart_putByte (s : State) (a : PhysAddr) (b : Byte) : (s.putByte a b).uart = s.uart := rfl
@[simp] theorem State.spi_putByte (s : State) (a : PhysAddr) (b : Byte) : (s.putByte a b).spi = s.spi := rfl
@[simp] theorem State.draws_putByte (s : State) (a : PhysAddr) (b : Byte) : (s.putByte a b).draws = s.draws := rfl
@[simp] theorem State.ticks_putByte (s : State) (a : PhysAddr) (b : Byte) : (s.putByte a b).ticks = s.ticks := rfl
@[simp] theorem State.debugEvents_putByte (s : State) (a : PhysAddr) (b : Byte) : (s.putByte a b).debugEvents = s.debugEvents := rfl
@[simp] theorem State.stored_putByte (s : State) (a : PhysAddr) (b : Byte) : (s.putByte a b).stored = setMark s.stored a true := rfl
@[simp] theorem State.loaded_putByte (s : State) (a : PhysAddr) (b : Byte) : (s.putByte a b).loaded = setMark s.loaded a false := rfl

/-! ### tick -/

@[simp] theorem State.pc_tick (s : State) : s.tick.pc = s.pc := rfl
@[simp] theorem State.mode_tick (s : State) : s.tick.mode = s.mode := rfl
@[simp] theorem State.halted_tick (s : State) : s.tick.halted = s.halted := rfl
@[simp] theorem State.t_tick (s : State) : s.tick.t = s.t := rfl
@[simp] theorem State.ie_tick (s : State) : s.tick.ie = s.ie := rfl
@[simp] theorem State.context_tick (s : State) : s.tick.context = s.context := rfl
@[simp] theorem State.irr_tick (s : State) : s.tick.irr = s.irr := rfl
@[simp] theorem State.icr_tick (s : State) : s.tick.icr = s.icr := rfl
@[simp] theorem State.idr_tick (s : State) : s.tick.idr = s.idr := rfl
@[simp] theorem State.isr_tick (s : State) : s.tick.isr = s.isr := rfl
@[simp] theorem State.cyc_tick (s : State) : s.tick.cyc = s.cyc + BitVec.ofNat 32 (Config.extraCycles s.ticks + 1) := rfl
@[simp] theorem State.banks_tick (s : State) : s.tick.banks = s.banks := rfl
@[simp] theorem State.mem_tick (s : State) : s.tick.mem = s.mem := rfl
@[simp] theorem State.platform_tick (s : State) : s.tick.platform = s.platform := rfl
@[simp] theorem State.uart_tick (s : State) : s.tick.uart = s.uart.hostMoves (Config.typed s.ticks) (Config.shown s.ticks) := rfl
@[simp] theorem State.spi_tick (s : State) : s.tick.spi = s.spi := rfl
@[simp] theorem State.stored_tick (s : State) : s.tick.stored = s.stored := rfl
@[simp] theorem State.loaded_tick (s : State) : s.tick.loaded = s.loaded := rfl
@[simp] theorem State.draws_tick (s : State) : s.tick.draws = s.draws := rfl
@[simp] theorem State.ticks_tick (s : State) : s.tick.ticks = s.ticks + 1 := rfl
@[simp] theorem State.debugEvents_tick (s : State) : s.tick.debugEvents = s.debugEvents := rfl

/-! ### idle -/

@[simp] theorem State.pc_idle (s : State) : s.idle.pc = s.pc := rfl
@[simp] theorem State.mode_idle (s : State) : s.idle.mode = s.mode := rfl
@[simp] theorem State.halted_idle (s : State) : s.idle.halted = s.halted := rfl
@[simp] theorem State.t_idle (s : State) : s.idle.t = s.t := rfl
@[simp] theorem State.ie_idle (s : State) : s.idle.ie = s.ie := rfl
@[simp] theorem State.context_idle (s : State) : s.idle.context = s.context := rfl
@[simp] theorem State.irr_idle (s : State) : s.idle.irr = s.irr := rfl
@[simp] theorem State.icr_idle (s : State) : s.idle.icr = s.icr := rfl
@[simp] theorem State.idr_idle (s : State) : s.idle.idr = s.idr := rfl
@[simp] theorem State.isr_idle (s : State) : s.idle.isr = s.isr := rfl
@[simp] theorem State.banks_idle (s : State) : s.idle.banks = s.banks := rfl
@[simp] theorem State.mem_idle (s : State) : s.idle.mem = s.mem := rfl
@[simp] theorem State.platform_idle (s : State) : s.idle.platform = s.platform := rfl
@[simp] theorem State.uart_idle (s : State) : s.idle.uart = s.uart.hostMoves (Config.typed s.ticks) (Config.shown s.ticks) := rfl
@[simp] theorem State.spi_idle (s : State) : s.idle.spi = s.spi := rfl
@[simp] theorem State.stored_idle (s : State) : s.idle.stored = s.stored := rfl
@[simp] theorem State.loaded_idle (s : State) : s.idle.loaded = s.loaded := rfl
@[simp] theorem State.draws_idle (s : State) : s.idle.draws = s.draws := rfl
@[simp] theorem State.ticks_idle (s : State) : s.idle.ticks = s.ticks + 1 := rfl
@[simp] theorem State.debugEvents_idle (s : State) : s.idle.debugEvents = s.debugEvents := rfl

/-! ### enterKernel -/

@[simp] theorem State.pc_enterKernel (s : State) (c : Cause) : (s.enterKernel c).pc = vectorAddress (vectorOf c) := rfl
@[simp] theorem State.mode_enterKernel (s : State) (c : Cause) : (s.enterKernel c).mode = .kernel := rfl
@[simp] theorem State.halted_enterKernel (s : State) (c : Cause) : (s.enterKernel c).halted = s.halted := rfl
@[simp] theorem State.t_enterKernel (s : State) (c : Cause) : (s.enterKernel c).t = s.t := rfl
@[simp] theorem State.ie_enterKernel (s : State) (c : Cause) : (s.enterKernel c).ie = false := rfl
@[simp] theorem State.context_enterKernel (s : State) (c : Cause) : (s.enterKernel c).context = s.context := rfl
@[simp] theorem State.irr_enterKernel (s : State) (c : Cause) : (s.enterKernel c).irr = s.returnPc c := rfl
@[simp] theorem State.icr_enterKernel (s : State) (c : Cause) : (s.enterKernel c).icr = icrCode c := rfl
@[simp] theorem State.idr_enterKernel (s : State) (c : Cause) : (s.enterKernel c).idr = s.faultData c := rfl
@[simp] theorem State.isr_enterKernel (s : State) (c : Cause) : (s.enterKernel c).isr = isrEnc s.mode := rfl
@[simp] theorem State.cyc_enterKernel (s : State) (c : Cause) : (s.enterKernel c).cyc = s.cyc := rfl
@[simp] theorem State.banks_enterKernel (s : State) (c : Cause) : (s.enterKernel c).banks = s.banks := rfl
@[simp] theorem State.mem_enterKernel (s : State) (c : Cause) : (s.enterKernel c).mem = s.mem := rfl
@[simp] theorem State.platform_enterKernel (s : State) (c : Cause) : (s.enterKernel c).platform = s.platform := rfl
@[simp] theorem State.uart_enterKernel (s : State) (c : Cause) : (s.enterKernel c).uart = s.uart := rfl
@[simp] theorem State.spi_enterKernel (s : State) (c : Cause) : (s.enterKernel c).spi = s.spi := rfl
@[simp] theorem State.stored_enterKernel (s : State) (c : Cause) : (s.enterKernel c).stored = s.stored := rfl
@[simp] theorem State.loaded_enterKernel (s : State) (c : Cause) : (s.enterKernel c).loaded = s.loaded := rfl
@[simp] theorem State.draws_enterKernel (s : State) (c : Cause) : (s.enterKernel c).draws = s.draws + 1 := rfl
@[simp] theorem State.ticks_enterKernel (s : State) (c : Cause) : (s.enterKernel c).ticks = s.ticks := rfl
@[simp] theorem State.debugEvents_enterKernel (s : State) (c : Cause) : (s.enterKernel c).debugEvents = s.debugEvents := rfl

/-! ### haltDouble -/

@[simp] theorem State.mode_haltDouble (s : State) : s.haltDouble.mode = s.mode := rfl
@[simp] theorem State.halted_haltDouble (s : State) : s.haltDouble.halted = true := rfl
@[simp] theorem State.t_haltDouble (s : State) : s.haltDouble.t = s.t := rfl
@[simp] theorem State.ie_haltDouble (s : State) : s.haltDouble.ie = s.ie := rfl
@[simp] theorem State.context_haltDouble (s : State) : s.haltDouble.context = s.context := rfl
@[simp] theorem State.cyc_haltDouble (s : State) : s.haltDouble.cyc = s.cyc := rfl
@[simp] theorem State.banks_haltDouble (s : State) : s.haltDouble.banks = s.banks := rfl
@[simp] theorem State.mem_haltDouble (s : State) : s.haltDouble.mem = s.mem := rfl
@[simp] theorem State.platform_haltDouble (s : State) : s.haltDouble.platform = s.platform := rfl
@[simp] theorem State.uart_haltDouble (s : State) : s.haltDouble.uart = s.uart := rfl
@[simp] theorem State.spi_haltDouble (s : State) : s.haltDouble.spi = s.spi := rfl
@[simp] theorem State.stored_haltDouble (s : State) : s.haltDouble.stored = s.stored := rfl
@[simp] theorem State.loaded_haltDouble (s : State) : s.haltDouble.loaded = s.loaded := rfl
@[simp] theorem State.ticks_haltDouble (s : State) : s.haltDouble.ticks = s.ticks := rfl
@[simp] theorem State.debugEvents_haltDouble (s : State) : s.haltDouble.debugEvents = s.debugEvents := rfl

/-! ### setRegL -/

@[simp] theorem State.pc_setRegL (s : State) (i : RegField) (v : Word) : (s.setRegL i v).pc = s.pc := by unfold State.setRegL; split <;> rfl
@[simp] theorem State.mode_setRegL (s : State) (i : RegField) (v : Word) : (s.setRegL i v).mode = s.mode := by unfold State.setRegL; split <;> rfl
@[simp] theorem State.halted_setRegL (s : State) (i : RegField) (v : Word) : (s.setRegL i v).halted = s.halted := by unfold State.setRegL; split <;> rfl
@[simp] theorem State.t_setRegL (s : State) (i : RegField) (v : Word) : (s.setRegL i v).t = s.t := by unfold State.setRegL; split <;> rfl
@[simp] theorem State.ie_setRegL (s : State) (i : RegField) (v : Word) : (s.setRegL i v).ie = s.ie := by unfold State.setRegL; split <;> rfl
@[simp] theorem State.context_setRegL (s : State) (i : RegField) (v : Word) : (s.setRegL i v).context = s.context := by unfold State.setRegL; split <;> rfl
@[simp] theorem State.irr_setRegL (s : State) (i : RegField) (v : Word) : (s.setRegL i v).irr = s.irr := by unfold State.setRegL; split <;> rfl
@[simp] theorem State.icr_setRegL (s : State) (i : RegField) (v : Word) : (s.setRegL i v).icr = s.icr := by unfold State.setRegL; split <;> rfl
@[simp] theorem State.idr_setRegL (s : State) (i : RegField) (v : Word) : (s.setRegL i v).idr = s.idr := by unfold State.setRegL; split <;> rfl
@[simp] theorem State.isr_setRegL (s : State) (i : RegField) (v : Word) : (s.setRegL i v).isr = s.isr := by unfold State.setRegL; split <;> rfl
@[simp] theorem State.cyc_setRegL (s : State) (i : RegField) (v : Word) : (s.setRegL i v).cyc = s.cyc := by unfold State.setRegL; split <;> rfl
@[simp] theorem State.mem_setRegL (s : State) (i : RegField) (v : Word) : (s.setRegL i v).mem = s.mem := by unfold State.setRegL; split <;> rfl
@[simp] theorem State.platform_setRegL (s : State) (i : RegField) (v : Word) : (s.setRegL i v).platform = s.platform := by unfold State.setRegL; split <;> rfl
@[simp] theorem State.uart_setRegL (s : State) (i : RegField) (v : Word) : (s.setRegL i v).uart = s.uart := by unfold State.setRegL; split <;> rfl
@[simp] theorem State.spi_setRegL (s : State) (i : RegField) (v : Word) : (s.setRegL i v).spi = s.spi := by unfold State.setRegL; split <;> rfl
@[simp] theorem State.stored_setRegL (s : State) (i : RegField) (v : Word) : (s.setRegL i v).stored = s.stored := by unfold State.setRegL; split <;> rfl
@[simp] theorem State.loaded_setRegL (s : State) (i : RegField) (v : Word) : (s.setRegL i v).loaded = s.loaded := by unfold State.setRegL; split <;> rfl
@[simp] theorem State.draws_setRegL (s : State) (i : RegField) (v : Word) : (s.setRegL i v).draws = s.draws := by unfold State.setRegL; split <;> rfl
@[simp] theorem State.ticks_setRegL (s : State) (i : RegField) (v : Word) : (s.setRegL i v).ticks = s.ticks := by unfold State.setRegL; split <;> rfl
@[simp] theorem State.debugEvents_setRegL (s : State) (i : RegField) (v : Word) : (s.setRegL i v).debugEvents = s.debugEvents := by unfold State.setRegL; split <;> rfl

end Sys2Proof.Machine
end

