-- ==== Sys2Proof/Laws/Registers.lean ====
section
/-! SUPPORT. Registers: what is read after a write, in a bank, in the current context and in another one. -/

namespace Sys2Proof.Machine

/-! ### Banks -/

@[simp] theorem Bank.get_zero (b : Bank) : b.get 0#3 = 0#16 := rfl

@[simp] theorem Bank.set_zero (b : Bank) (v : Word) : b.set 0#3 v = b := rfl

theorem Bank.get_set_self (b : Bank) (i : RegField) (v : Word) (h : i ≠ 0#3) : (b.set i v).get i = v := by
  simp [Bank.get, Bank.set, h]

theorem Bank.get_set_ne (b : Bank) (i j : RegField) (v : Word) (h : j ≠ i) : (b.set i v).get j = b.get j := by
  unfold Bank.get Bank.set
  by_cases hi : i = 0#3
  · simp [hi]
  by_cases hj : j = 0#3
  · simp [hj]
  have hne : i.toNat - 1 ≠ j.toNat - 1 := by
    intro he
    apply h
    have hi' : i.toNat ≠ 0 := fun h0 => hi (BitVec.eq_of_toNat_eq (by simpa using h0))
    have hj' : j.toNat ≠ 0 := fun h0 => hj (BitVec.eq_of_toNat_eq (by simpa using h0))
    exact BitVec.eq_of_toNat_eq (by omega)
  simp [hi, hj, Vector.getElem_set_ne _ _ hne]

@[simp] theorem Bank.link_set (b : Bank) (i : RegField) (v : Word) : (b.set i v).link = b.link := by
  unfold Bank.set; split <;> rfl
@[simp] theorem Bank.flags_set (b : Bank) (i : RegField) (v : Word) : (b.set i v).flags = b.flags := by
  unfold Bank.set; split <;> rfl
@[simp] theorem Bank.cmmu_set (b : Bank) (i : RegField) (v : Word) : (b.set i v).cmmu = b.cmmu := by
  unfold Bank.set; split <;> rfl
@[simp] theorem Bank.dmmu_set (b : Bank) (i : RegField) (v : Word) : (b.set i v).dmmu = b.dmmu := by
  unfold Bank.set; split <;> rfl

theorem Bank.get_link (b : Bank) (v : Word) (i : RegField) : ({ b with link := v } : Bank).get i = b.get i := rfl
theorem Bank.get_flags (b : Bank) (f : Flags) (i : RegField) : ({ b with flags := f } : Bank).get i = b.get i := rfl

/-! ### Contexts -/

@[simp] theorem State.bankOf_setBankOf_self (s : State) (c : Nat) (b : Bank) : (s.setBankOf c b).bankOf c = b := by
  simp [State.bankOf]

theorem State.bankOf_setBankOf_ne (s : State) (c d : Nat) (b : Bank) (h : d ≠ c) :
    (s.setBankOf c b).bankOf d = s.bankOf d := by
  simp [State.bankOf, sparseGet_put_ne _ _ _ _ _ h]

/-- The current context depends on the mode and CONTEXT alone. -/
theorem State.cur_congr {s t : State} (hm : t.mode = s.mode) (hc : t.context = s.context) : t.cur = s.cur := by
  simp [State.cur, hm, hc]

theorem State.bankOf_congr {s t : State} (h : t.banks = s.banks) (c : Nat) : t.bankOf c = s.bankOf c := by
  simp [State.bankOf, h]

theorem State.bank_congr {s t : State} (hm : t.mode = s.mode) (hc : t.context = s.context) (h : t.banks = s.banks) :
    t.bank = s.bank := by
  simp [State.bank, State.cur_congr hm hc, State.bankOf_congr h]

theorem State.setBankOf_banksWf (s : State) (c : Nat) (b : Bank) (hc : c < nctx) (h : banksWf s.banks = true) :
    banksWf (s.setBankOf c b).banks = true :=
  sparseWf_put _ _ _ _ _ hc h

@[simp] theorem State.cur_advance (s : State) : s.advance.cur = s.cur := rfl
@[simp] theorem State.cur_jump (s : State) (a : Word) : (s.jump a).cur = s.cur := rfl
@[simp] theorem State.cur_drawn (s : State) : s.drawn.cur = s.cur := rfl
@[simp] theorem State.cur_tick (s : State) : s.tick.cur = s.cur := rfl
@[simp] theorem State.cur_setBankOf (s : State) (c : Nat) (b : Bank) : (s.setBankOf c b).cur = s.cur := rfl
@[simp] theorem State.cur_setBank (s : State) (b : Bank) : (s.setBank b).cur = s.cur := rfl
@[simp] theorem State.cur_setReg (s : State) (i : RegField) (v : Word) : (s.setReg i v).cur = s.cur := rfl
@[simp] theorem State.cur_setLink (s : State) (v : Word) : (s.setLink v).cur = s.cur := rfl
@[simp] theorem State.cur_setFlags (s : State) (f : Flags) : (s.setFlags f).cur = s.cur := rfl
@[simp] theorem State.cur_setRegL (s : State) (i : RegField) (v : Word) : (s.setRegL i v).cur = s.cur :=
  State.cur_congr (by simp) (by simp)

@[simp] theorem State.bankOf_advance (s : State) (c : Nat) : s.advance.bankOf c = s.bankOf c := rfl
@[simp] theorem State.bankOf_jump (s : State) (a : Word) (c : Nat) : (s.jump a).bankOf c = s.bankOf c := rfl
@[simp] theorem State.bankOf_drawn (s : State) (c : Nat) : s.drawn.bankOf c = s.bankOf c := rfl
@[simp] theorem State.bankOf_tick (s : State) (c : Nat) : s.tick.bankOf c = s.bankOf c := rfl
@[simp] theorem State.bank_advance (s : State) : s.advance.bank = s.bank := rfl
@[simp] theorem State.bank_jump (s : State) (a : Word) : (s.jump a).bank = s.bank := rfl
@[simp] theorem State.bank_drawn (s : State) : s.drawn.bank = s.bank := rfl
@[simp] theorem State.bank_tick (s : State) : s.tick.bank = s.bank := rfl

@[simp] theorem State.bank_setBank (s : State) (b : Bank) : (s.setBank b).bank = b :=
  State.bankOf_setBankOf_self s s.cur b

/-- Of two replacements of the current bank the second counts. -/
theorem State.setBank_setBank (s : State) (a b : Bank) : (s.setBank a).setBank b = s.setBank b := by
  unfold State.setBank State.setBankOf State.cur
  simp only [sparsePut_put]

theorem State.bankOf_setBank_ne (s : State) (b : Bank) (c : Nat) (h : c ≠ s.cur) :
    (s.setBank b).bankOf c = s.bankOf c :=
  State.bankOf_setBankOf_ne s s.cur c b h

@[simp] theorem State.bank_setReg (s : State) (i : RegField) (v : Word) : (s.setReg i v).bank = s.bank.set i v :=
  State.bank_setBank s _

@[simp] theorem State.bank_setLink (s : State) (v : Word) : (s.setLink v).bank = { s.bank with link := v } :=
  State.bank_setBank s _

@[simp] theorem State.bank_setFlags (s : State) (f : Flags) : (s.setFlags f).bank = { s.bank with flags := f } :=
  State.bank_setBank s _

theorem State.bankOf_setReg_ne (s : State) (i : RegField) (v : Word) (c : Nat) (h : c ≠ s.cur) :
    (s.setReg i v).bankOf c = s.bankOf c :=
  State.bankOf_setBank_ne s _ c h

theorem State.bankOf_setLink_ne (s : State) (v : Word) (c : Nat) (h : c ≠ s.cur) :
    (s.setLink v).bankOf c = s.bankOf c :=
  State.bankOf_setBank_ne s _ c h

theorem State.bankOf_setFlags_ne (s : State) (f : Flags) (c : Nat) (h : c ≠ s.cur) :
    (s.setFlags f).bankOf c = s.bankOf c :=
  State.bankOf_setBank_ne s _ c h

theorem State.bankOf_setRegL_ne (s : State) (i : RegField) (v : Word) (c : Nat) (h : c ≠ s.cur) :
    (s.setRegL i v).bankOf c = s.bankOf c := by
  unfold State.setRegL
  split
  · exact s.bankOf_setLink_ne v c h
  · exact s.bankOf_setReg_ne i v c h

/-! ### Registers of the current context -/

@[simp] theorem State.reg_zero (s : State) : s.reg 0#3 = 0#16 := rfl
@[simp] theorem State.setReg_zero_reg (s : State) (v : Word) (j : RegField) : (s.setReg 0#3 v).reg j = s.reg j := by
  simp [State.reg]

@[simp] theorem State.reg_advance (s : State) (i : RegField) : s.advance.reg i = s.reg i := rfl
@[simp] theorem State.reg_jump (s : State) (a : Word) (i : RegField) : (s.jump a).reg i = s.reg i := rfl
@[simp] theorem State.reg_drawn (s : State) (i : RegField) : s.drawn.reg i = s.reg i := rfl
@[simp] theorem State.link_advance (s : State) : s.advance.link = s.link := rfl
@[simp] theorem State.link_jump (s : State) (a : Word) : (s.jump a).link = s.link := rfl
@[simp] theorem State.link_drawn (s : State) : s.drawn.link = s.link := rfl
@[simp] theorem State.flags_advance (s : State) : s.advance.flags = s.flags := rfl
@[simp] theorem State.flags_jump (s : State) (a : Word) : (s.jump a).flags = s.flags := rfl
@[simp] theorem State.flags_drawn (s : State) : s.drawn.flags = s.flags := rfl

theorem State.reg_setReg_self (s : State) (i : RegField) (v : Word) (h : i ≠ 0#3) : (s.setReg i v).reg i = v := by
  simp [State.reg, Bank.get_set_self _ _ _ h]

theorem State.reg_setReg_ne (s : State) (i j : RegField) (v : Word) (h : j ≠ i) :
    (s.setReg i v).reg j = s.reg j := by
  simp [State.reg, Bank.get_set_ne _ _ _ _ h]

@[simp] theorem State.link_setReg (s : State) (i : RegField) (v : Word) : (s.setReg i v).link = s.link := by
  simp [State.link]
@[simp] theorem State.flags_setReg (s : State) (i : RegField) (v : Word) : (s.setReg i v).flags = s.flags := by
  simp [State.flags]
@[simp] theorem State.reg_setLink (s : State) (v : Word) (j : RegField) : (s.setLink v).reg j = s.reg j := by
  simp [State.reg, Bank.get_link]
@[simp] theorem State.link_setLink (s : State) (v : Word) : (s.setLink v).link = v := by simp [State.link]
@[simp] theorem State.flags_setLink (s : State) (v : Word) : (s.setLink v).flags = s.flags := by simp [State.flags]
@[simp] theorem State.reg_setFlags (s : State) (f : Flags) (j : RegField) : (s.setFlags f).reg j = s.reg j := by
  simp [State.reg, Bank.get_flags]
@[simp] theorem State.link_setFlags (s : State) (f : Flags) : (s.setFlags f).link = s.link := by simp [State.link]
@[simp] theorem State.flags_setFlags (s : State) (f : Flags) : (s.setFlags f).flags = f := by simp [State.flags]

/-- A write through `xl` is read back through `xl`. -/
@[simp] theorem State.regL_setRegL_self (s : State) (i : RegField) (v : Word) : (s.setRegL i v).regL i = v := by
  unfold State.regL State.setRegL
  by_cases h : i = 0#3
  · simp [h]
  · simp [h, State.reg_setReg_self]

theorem State.regL_setRegL_ne (s : State) (i j : RegField) (v : Word) (h : j ≠ i) :
    (s.setRegL i v).regL j = s.regL j := by
  unfold State.regL State.setRegL
  by_cases hi : i = 0#3
  · have : j ≠ 0#3 := fun hj => h (hj.trans hi.symm)
    simp [hi, this]
  · by_cases hj : j = 0#3
    · simp [hi, hj]
    · simp [hi, hj, State.reg_setReg_ne _ _ _ _ h]

@[simp] theorem State.flags_setRegL (s : State) (i : RegField) (v : Word) : (s.setRegL i v).flags = s.flags := by
  unfold State.setRegL; split <;> simp

@[simp] theorem State.cmmu_setReg (s : State) (i : RegField) (v : Word) : (s.setReg i v).bank.cmmu = s.bank.cmmu := by
  simp
@[simp] theorem State.dmmu_setReg (s : State) (i : RegField) (v : Word) : (s.setReg i v).bank.dmmu = s.bank.dmmu := by
  simp
@[simp] theorem State.cmmu_setRegL (s : State) (i : RegField) (v : Word) :
    (s.setRegL i v).bank.cmmu = s.bank.cmmu := by
  unfold State.setRegL; split <;> simp
@[simp] theorem State.dmmu_setRegL (s : State) (i : RegField) (v : Word) :
    (s.setRegL i v).bank.dmmu = s.bank.dmmu := by
  unfold State.setRegL; split <;> simp

end Sys2Proof.Machine
end

