-- ==== Sys2Proof/Laws/Ops.lean ====
section
/-! SUPPORT. One lemma per shared operation, saying all it can do when it answers a value. -/

namespace Sys2Proof.Machine

/-! ### Outcomes -/

theorem Action.bind_ok_iff {α β : Type} {x : Action α} {f : α → Action β} {b : β} :
    x.bind f = .ok b ↔ ∃ a, x = .ok a ∧ f a = .ok b := by
  cases x <;> simp [Action.bind]

theorem Action.bind_trap_iff {α β : Type} {x : Action α} {f : α → Action β} {c : Cause} :
    x.bind f = .trap c ↔ x = .trap c ∨ ∃ a, x = .ok a ∧ f a = .trap c := by
  cases x <;> simp [Action.bind]

@[simp] theorem Action.bind_ok {α β : Type} (a : α) (f : α → Action β) : (Action.ok a).bind f = f a := rfl
@[simp] theorem Action.bind_trap {α β : Type} (c : Cause) (f : α → Action β) : (Action.trap c).bind f = .trap c := rfl
@[simp] theorem Action.bind_stuck {α β : Type} (r : Fault) (f : α → Action β) : (Action.stuck r).bind f = .stuck r := rfl

@[simp] theorem State.finish_ok (s t : State) : s.finish (.ok t) = .next t := rfl
@[simp] theorem State.finish_trap (s : State) (c : Cause) : s.finish (.trap c) = .next (s.raise c) := rfl
@[simp] theorem State.finish_stuck (s : State) (f : Fault) : s.finish (.stuck f) = .fault f := rfl

/-- An instruction that has a next state completed, or raised a TFE. -/
theorem State.finish_next_iff {s t : State} {x : Action State} :
    s.finish x = .next t ↔ x = .ok t ∨ ∃ c, x = .trap c ∧ t = s.raise c := by
  cases x <;> simp [State.finish, eq_comm]

/-! ### Translation and memory -/

theorem State.translate_ok_iff {s : State} {space : Space} {va : Word} {access : Access} {a : PhysAddr} :
    s.translate space va access = .ok a ↔
      verdict (s.permission space va) access = .allowed ∧ a = s.physical space va := by
  unfold State.translate State.permission
  cases verdict (mmuEntry (s.mmuRegister space va)).perm access <;> simp [eq_comm]

theorem State.translate_trap_iff {s : State} {space : Space} {va : Word} {access : Access} {c : Cause} :
    s.translate space va access = .trap c ↔
      verdict (s.permission space va) access = .pageFault ∧ c = .pageFault space va access := by
  unfold State.translate State.permission
  cases verdict (mmuEntry (s.mmuRegister space va)).perm access <;> simp [eq_comm]

theorem State.physRead_ok_iff {s : State} {access : Access} {a : PhysAddr} {b : Byte} :
    s.physRead access a = .ok b ↔ s.canRead a ∧ b = s.byteThere access a := by
  unfold State.physRead State.canRead
  cases physKind s.platform.regions a <;> simp [eq_comm]

theorem State.physRead_not_trap (s : State) (access : Access) (a : PhysAddr) (c : Cause) :
    s.physRead access a ≠ .trap c := by
  unfold State.physRead
  cases physKind s.platform.regions a <;> simp

theorem State.physWrite_ok_iff {s t : State} {a : PhysAddr} {b : Byte} :
    s.physWrite a b = .ok t ↔ s.canWrite a ∧ t = s.putByte a b := by
  unfold State.physWrite State.canWrite
  cases physKind s.platform.regions a <;> simp [eq_comm]

theorem State.physWrite_not_trap (s : State) (a : PhysAddr) (b : Byte) (c : Cause) : s.physWrite a b ≠ .trap c := by
  unfold State.physWrite
  cases physKind s.platform.regions a <;> simp

theorem State.physReadWord_ok_iff {s : State} {access : Access} {a : PhysAddr} {v : Word} :
    s.physReadWord access a = .ok v ↔
      s.canRead a ∧ s.canRead (a + 1#24) ∧ v = wordOfBytes (s.byteThere access a) (s.byteThere access (a + 1#24)) := by
  unfold State.physReadWord
  simp only [Action.bind_ok_iff, State.physRead_ok_iff, Action.ok.injEq]
  constructor
  · rintro ⟨_, ⟨h1, rfl⟩, _, ⟨h2, rfl⟩, rfl⟩; exact ⟨h1, h2, rfl⟩
  · rintro ⟨h1, h2, rfl⟩; exact ⟨_, ⟨h1, rfl⟩, _, ⟨h2, rfl⟩, rfl⟩

theorem State.physReadWord_not_trap (s : State) (access : Access) (a : PhysAddr) (c : Cause) :
    s.physReadWord access a ≠ .trap c := by
  simp [State.physReadWord, Action.bind_trap_iff, State.physRead_not_trap]

/-- The state after a word has been stored at a physical address, low byte first. -/
def State.withWord (s : State) (a : PhysAddr) (v : Word) : State :=
  (s.putByte a (lowByte v)).putByte (a + 1#24) (highByte v)

/-- Which addresses can be stored to does not change by a store. -/
@[simp] theorem State.canWrite_putByte (s : State) (a c : PhysAddr) (b : Byte) :
    (s.putByte a b).canWrite c ↔ s.canWrite c := Iff.rfl

theorem State.physWriteWord_ok_iff {s t : State} {a : PhysAddr} {v : Word} :
    s.physWriteWord a v = .ok t ↔ s.canWrite a ∧ s.canWrite (a + 1#24) ∧ t = s.withWord a v := by
  unfold State.physWriteWord State.withWord
  simp only [Action.bind_ok_iff, State.physWrite_ok_iff]
  constructor
  · rintro ⟨_, ⟨h1, rfl⟩, h2, rfl⟩; exact ⟨h1, h2, rfl⟩
  · rintro ⟨h1, h2, rfl⟩; exact ⟨_, ⟨h1, rfl⟩, h2, rfl⟩

theorem State.physWriteWord_not_trap (s : State) (a : PhysAddr) (v : Word) (c : Cause) :
    s.physWriteWord a v ≠ .trap c := by
  simp [State.physWriteWord, Action.bind_trap_iff, State.physWrite_not_trap]

theorem State.loadByte_ok_iff {s : State} {va : Word} {b : Byte} :
    s.loadByte va = .ok b ↔ s.CanLoadByte va ∧ b = s.byteAt va := by
  simp only [State.loadByte, Action.bind_ok_iff, State.translate_ok_iff, State.physRead_ok_iff, State.CanLoadByte,
    State.byteAt]
  constructor
  · rintro ⟨_, ⟨h1, rfl⟩, h2, rfl⟩; exact ⟨⟨h1, h2⟩, rfl⟩
  · rintro ⟨⟨h1, h2⟩, rfl⟩; exact ⟨_, ⟨h1, rfl⟩, h2, rfl⟩

theorem State.loadByte_trap_iff {s : State} {va : Word} {c : Cause} :
    s.loadByte va = .trap c ↔ verdict (s.permission .data va) .load = .pageFault ∧ c = .pageFault .data va .load := by
  simp [State.loadByte, Action.bind_trap_iff, State.translate_trap_iff, State.physRead_not_trap]

theorem State.loadWord_ok_iff {s : State} {space : Space} {va : Word} {access : Access} {v : Word} :
    s.loadWord space va access = .ok v ↔ s.CanReadWord space va access ∧ v = s.wordAt space va access := by
  unfold State.loadWord State.CanReadWord State.wordAt
  cases h : oddAddress va
  swap
  · simp
  · simp only [Bool.false_eq_true, if_false, true_and, Action.bind_ok_iff, State.translate_ok_iff, State.physReadWord_ok_iff]
    constructor
    · rintro ⟨_, ⟨h1, rfl⟩, h2, h3, rfl⟩; exact ⟨⟨h1, h2, h3⟩, rfl⟩
    · rintro ⟨⟨h1, h2, h3⟩, rfl⟩; exact ⟨_, ⟨h1, rfl⟩, h2, h3, rfl⟩

theorem State.loadWord_trap_iff {s : State} {space : Space} {va : Word} {access : Access} {c : Cause} :
    s.loadWord space va access = .trap c ↔
      oddAddress va = false ∧ verdict (s.permission space va) access = .pageFault ∧ c = .pageFault space va access := by
  unfold State.loadWord
  cases h : oddAddress va
  · simp [Action.bind_trap_iff, State.translate_trap_iff, State.physReadWord_not_trap]
  · simp

theorem State.storeByte_ok_iff {s t : State} {va : Word} {b : Byte} :
    s.storeByte va b = .ok t ↔ s.CanStoreByte va ∧
      t = s.putByte (s.physical .data va) b := by
  simp only [State.storeByte, Action.bind_ok_iff, State.translate_ok_iff, State.physWrite_ok_iff, State.CanStoreByte]
  constructor
  · rintro ⟨_, ⟨h1, rfl⟩, h2, rfl⟩; exact ⟨⟨h1, h2⟩, rfl⟩
  · rintro ⟨⟨h1, h2⟩, rfl⟩; exact ⟨_, ⟨h1, rfl⟩, h2, rfl⟩

theorem State.storeByte_trap_iff {s : State} {va : Word} {b : Byte} {c : Cause} :
    s.storeByte va b = .trap c ↔
      verdict (s.permission .data va) .store = .pageFault ∧ c = .pageFault .data va .store := by
  simp [State.storeByte, Action.bind_trap_iff, State.translate_trap_iff, State.physWrite_not_trap]

theorem State.storeWord_ok_iff {s t : State} {va v : Word} :
    s.storeWord va v = .ok t ↔ s.CanStoreWord va ∧ t = s.withWord (s.physical .data va) v := by
  unfold State.storeWord State.CanStoreWord
  cases h : oddAddress va
  swap
  · simp
  · simp only [Bool.false_eq_true, if_false, true_and, Action.bind_ok_iff, State.translate_ok_iff, State.physWriteWord_ok_iff]
    constructor
    · rintro ⟨_, ⟨h1, rfl⟩, h2, h3, rfl⟩; exact ⟨⟨h1, h2, h3⟩, rfl⟩
    · rintro ⟨⟨h1, h2, h3⟩, rfl⟩; exact ⟨_, ⟨h1, rfl⟩, h2, h3, rfl⟩

theorem State.storeWord_trap_iff {s : State} {va v : Word} {c : Cause} :
    s.storeWord va v = .trap c ↔
      oddAddress va = false ∧ verdict (s.permission .data va) .store = .pageFault ∧ c = .pageFault .data va .store := by
  unfold State.storeWord
  cases h : oddAddress va
  · simp [Action.bind_trap_iff, State.translate_trap_iff, State.physWriteWord_not_trap]
  · simp

theorem State.fetch_ok_iff {s : State} {va w : Word} :
    s.fetch va = .ok w ↔ s.CanReadWord .code va .fetch ∧ s.fetchIsStale (s.physical .code va) = false ∧
      w = s.wordAt .code va .fetch := by
  unfold State.fetch State.CanReadWord State.wordAt
  cases h : oddAddress va
  swap
  · simp
  · simp only [Bool.false_eq_true, if_false, true_and, Action.bind_ok_iff, State.translate_ok_iff]
    constructor
    · rintro ⟨_, ⟨h1, rfl⟩, h2⟩
      cases hs : s.fetchIsStale (s.physical .code va)
      swap
      · simp [hs] at h2
      · simp only [hs, Bool.false_eq_true, if_false, State.physReadWord_ok_iff] at h2
        exact ⟨⟨h1, h2.1, h2.2.1⟩, rfl, h2.2.2⟩
    · rintro ⟨⟨h1, h2, h3⟩, hs, rfl⟩
      exact ⟨_, ⟨h1, rfl⟩, by simp [hs, State.physReadWord_ok_iff, h2, h3]⟩

theorem State.fetch_trap_iff {s : State} {va : Word} {c : Cause} :
    s.fetch va = .trap c ↔
      oddAddress va = false ∧ verdict (s.permission .code va) .fetch = .pageFault ∧ c = .pageFault .code va .fetch := by
  unfold State.fetch
  cases h : oddAddress va
  swap
  · simp
  · simp only [Bool.false_eq_true, if_false, true_and, Action.bind_trap_iff, State.translate_trap_iff]
    constructor
    · rintro (⟨h1, rfl⟩ | ⟨a, _, h2⟩)
      · exact ⟨h1, rfl⟩
      · split at h2 <;> simp [State.physReadWord_not_trap] at h2
    · rintro ⟨h1, rfl⟩; exact .inl ⟨h1, rfl⟩

/-! ### Exceptions -/

/-- Taking an exception is a double fault or the entry of `60_exceptions.md` R620. -/
theorem State.raise_cases (s : State) (c : Cause) :
    (s.isDoubleFault c = true ∧ s.raise c = s.doubleFault) ∨
      (s.isDoubleFault c = false ∧ s.raise c = s.enterKernel c) := by
  unfold State.raise
  cases h : s.isDoubleFault c <;> simp

theorem State.raise_of_allowed {s : State} (c : Cause) (h : s.TrapsAllowed) : s.raise c = s.enterKernel c := by
  unfold State.raise State.isDoubleFault
  rcases h with h | h <;> simp [h]

theorem State.raise_uart (s : State) : s.raise .uart = s.enterKernel .uart := rfl

/-- A double fault happens only in kernel mode. -/
theorem State.isDoubleFault_kernel {s : State} {c : Cause} (h : s.isDoubleFault c = true) :
    s.mode = .kernel ∧ s.ie = false := by
  simp only [State.isDoubleFault, Bool.and_eq_true, beq_iff_eq, Bool.not_eq_true'] at h
  exact ⟨h.1.2, h.2⟩

/-- A double fault halts or resets. -/
theorem State.doubleFault_cases (s : State) : s.doubleFault = s.resetAgain ∨ s.doubleFault = s.haltDouble := by
  unfold State.doubleFault
  split
  · exact .inl rfl
  · exact .inr rfl

/-- After taking an exception the mode is kernel. -/
theorem State.mode_raise (s : State) (c : Cause) : (s.raise c).mode = .kernel := by
  rcases s.raise_cases c with ⟨h, e⟩ | ⟨_, e⟩
  · rcases s.doubleFault_cases with d | d
    · rw [e, d]; rfl
    · rw [e, d]; exact (State.isDoubleFault_kernel h).1
  · rw [e]; rfl

theorem isrEnc_distinct : isrEnc .kernel ≠ isrEnc .user := Config.isrEncoding.distinct

@[simp] theorem modeOfIsr_isrEnc (m : Mode) : modeOfIsr (isrEnc m) = some m := by
  unfold modeOfIsr
  cases m
  · simp [isrEnc_distinct]
  · simp

/-- `modeOfIsr` answers the mode whose encoding ISR holds. -/
theorem modeOfIsr_eq_some_iff {w : Word} {m : Mode} : modeOfIsr w = some m ↔ w = isrEnc m := by
  constructor
  · intro h
    unfold modeOfIsr at h
    split at h
    · cases h; assumption
    · split at h
      · cases h; assumption
      · cases h
  · rintro rfl; simp

/-- A return from an exception restores mode and pc and enables interrupts. -/
theorem State.returnFromTrap_ok_iff {s t : State} :
    s.returnFromTrap = .ok t ↔ ∃ m, s.isr = isrEnc m ∧ ¬(m = .user ∧ s.context = 0#16) ∧
      t = { s with pc := s.irr, mode := m, ie := true } := by
  unfold State.returnFromTrap
  cases h : modeOfIsr s.isr with
  | none =>
    simp only [reduceCtorEq, false_iff, not_exists, not_and]
    intro m hm
    rw [hm, modeOfIsr_isrEnc] at h
    cases h
  | some m =>
    have hm := modeOfIsr_eq_some_iff.mp h
    constructor
    · intro h2
      by_cases hc : m = .user ∧ s.context = 0#16
      · simp [hc] at h2
      · simp only [hc, if_false, Action.ok.injEq] at h2
        exact ⟨m, hm, hc, h2.symm⟩
    · rintro ⟨m', hm', hc, rfl⟩
      have : m' = m := by
        have := modeOfIsr_eq_some_iff.mpr hm'
        rw [h] at this
        exact (Option.some.inj this).symm
      subst this
      simp [hc]

theorem State.returnFromTrap_not_trap (s : State) (c : Cause) : s.returnFromTrap ≠ .trap c := by
  unfold State.returnFromTrap
  split
  · simp
  · split <;> simp

end Sys2Proof.Machine
end

