-- ==== Sys2Proof/Laws/Access.lean ====
section
/-! SUPPORT. Loads and stores in the terms of Safety: what a store leaves where, what a later read of it gives, and the
canonical form every memory operation keeps. -/

namespace Sys2Proof.Machine

theorem succ_ne_self (a : PhysAddr) : a + 1#24 ≠ a := by
  intro h
  have := congrArg BitVec.toNat h
  have := a.isLt
  simp only [BitVec.toNat_add, BitVec.toNat_ofNat] at *
  omega

/-! ### What an address holds -/

/-- RAM can be read. -/
theorem State.hasMemory_of_hasRam {s : State} {a : PhysAddr} (h : s.hasRam a) : s.hasMemory a := .inl h

/-- A read of memory finds memory's byte. -/
theorem State.byteThere_of_hasMemory {s : State} {access : Access} {a : PhysAddr} (h : s.hasMemory a) :
    s.byteThere access a = memRead s.mem a := by
  unfold State.byteThere
  rcases h with h | h <;> rw [h]

/-! ### A byte stored -/

/-- The address stored to holds the byte where it is RAM. -/
theorem State.putByte_self {s : State} {a : PhysAddr} (b : Byte) (h : s.hasRam a) :
    memRead (s.putByte a b).mem a = b := by
  have h' : physKind s.platform.regions a = .ram := h
  simp only [State.putByte, h', if_true, memRead_memWrite_self]

/-- Every other address is as before. -/
theorem State.putByte_ne (s : State) (a c : PhysAddr) (b : Byte) (h : c ≠ a) :
    memRead (s.putByte a b).mem c = memRead s.mem c := by
  simp only [State.putByte]
  split
  · exact memRead_memWrite_ne _ _ _ _ h
  · rfl

/-- Where there is no RAM no store shows. -/
theorem State.putByte_noRam (s : State) (a c : PhysAddr) (b : Byte) (h : ¬s.hasRam c) :
    memRead (s.putByte a b).mem c = memRead s.mem c := by
  by_cases hc : c = a
  · subst hc
    have h' : ¬physKind s.platform.regions c = .ram := h
    simp only [State.putByte, h', if_false]
  · exact s.putByte_ne a c b hc

/-- The frame of a byte store. -/
theorem State.putByte_storeFrame (s : State) (a : PhysAddr) (b : Byte) (p : Word) :
    StoreFrame s { s.putByte a b with pc := p } [a] where
  control := ⟨⟨rfl, rfl, rfl, rfl, rfl, rfl, rfl, rfl, rfl, rfl, rfl, rfl, rfl⟩, rfl, rfl⟩
  ramOnly c h := s.putByte_noRam a c b h
  memory c h := by
    simp only [List.mem_cons, List.not_mem_nil, or_false] at h
    exact s.putByte_ne a c b h
  loaded c := by simpa using isMarked_setMark_false s.loaded a c
  registers := ⟨fun _ => rfl, rfl, rfl⟩
  others := fun _ _ => rfl
  mmu := ⟨rfl, rfl⟩

/-! ### A word stored -/

/-- A 16-bit store puts its word. -/
theorem State.withWord_put (s : State) (a : PhysAddr) (v : Word) : WordPut s a v (s.withWord a v) where
  low h := (State.putByte_ne _ _ _ _ (Ne.symm (succ_ne_self a))).trans (State.putByte_self _ h)
  high h := State.putByte_self (s := s.putByte a (lowByte v)) _ h
  others c h := by
    simp only [List.mem_cons, List.not_mem_nil, or_false, not_or] at h
    exact (State.putByte_ne _ _ _ _ h.2).trans (State.putByte_ne _ _ _ _ h.1)
  ram c h := (State.putByte_noRam (s.putByte a (lowByte v)) _ c _ h).trans (State.putByte_noRam s _ c _ h)

/-- The frame of a 16-bit store. -/
theorem State.withWord_storeFrame (s : State) (a : PhysAddr) (v p : Word) :
    StoreFrame s { s.withWord a v with pc := p } [a, a + 1#24] where
  control := ⟨⟨rfl, rfl, rfl, rfl, rfl, rfl, rfl, rfl, rfl, rfl, rfl, rfl, rfl⟩, rfl, rfl⟩
  ramOnly := (s.withWord_put a v).ram
  memory := (s.withWord_put a v).others
  loaded c := by
    refine (isMarked_setMark_false (setMark s.loaded a false) (a + 1#24) c).trans ?_
    rw [isMarked_setMark_false]
    simp [Bool.and_assoc]
  registers := ⟨fun _ => rfl, rfl, rfl⟩
  others := fun _ _ => rfl
  mmu := ⟨rfl, rfl⟩

/-- Two bytes of RAM read as the word just put there. -/
theorem WordPut.word {s t : State} {a : PhysAddr} {v : Word} {access : Access} (h : WordPut s a v t)
    (hr : s.wordInRam a) (hp : t.platform = s.platform) :
    wordOfBytes (t.byteThere access a) (t.byteThere access (a + 1#24)) = v := by
  have h0 : t.hasRam a := by unfold State.hasRam; rw [hp]; exact hr.1
  have h1 : t.hasRam (a + 1#24) := by unfold State.hasRam; rw [hp]; exact hr.2
  rw [State.byteThere_of_hasMemory (.inl h0), State.byteThere_of_hasMemory (.inl h1), h.low hr.1, h.high hr.2]
  exact wordOfBytes_low_high v

/-- The word at an address is what a read gives, as far as it is stated. -/
theorem State.readsWord (s : State) (access : Access) (a : PhysAddr) :
    ReadsWord s a (wordOfBytes (s.byteThere access a) (s.byteThere access (a + 1#24))) where
  low h := (lowByte_wordOfBytes _ _).trans (State.byteThere_of_hasMemory h)
  high h := (highByte_wordOfBytes _ _).trans (State.byteThere_of_hasMemory h)

/-! ### Neighbouring addresses -/

/-- The address after an even one is in the same page, one byte up. -/
theorem State.physical_succ (s : State) (space : Space) (va : Word) (h : oddAddress va = false) :
    s.physical space (va + 1#16) = s.physical space va + 1#24 ∧ s.permission space (va + 1#16) = s.permission space va := by
  have hlow : va.toNat % 2 = 0 := by
    have : va.getLsbD 0 = false := h
    rw [BitVec.getLsbD_eq_getElem (by decide)] at this
    simp only [BitVec.getElem_eq_testBit_toNat, Nat.testBit_zero, decide_eq_false_iff_not] at this
    omega
  have hlt := va.isLt
  have hsum : (va + 1#16).toNat = va.toNat + 1 := by
    simp only [BitVec.toNat_add, BitVec.toNat_ofNat]; omega
  have hslot : (va + 1#16).extractLsb' 12 4 = va.extractLsb' 12 4 := by
    apply BitVec.eq_of_toNat_eq
    simp only [BitVec.extractLsb'_toNat, hsum, Nat.shiftRight_eq_div_pow]
    omega
  have hreg : s.mmuRegister space (va + 1#16) = s.mmuRegister space va := by
    unfold State.mmuRegister
    simp only [hslot]
  refine ⟨?_, by simp only [State.permission, hreg]⟩
  simp only [State.physical, hreg]
  generalize (mmuEntry (s.mmuRegister space va)).frame = f
  apply BitVec.eq_of_toNat_eq
  have h1 := BitVec.toNat_append f ((va + 1#16).extractLsb' 0 12)
  have h2 := BitVec.toNat_append f (va.extractLsb' 0 12)
  have hf := f.isLt
  have e1 : ((va + 1#16).extractLsb' 0 12).toNat = (va.extractLsb' 0 12).toNat + 1 := by
    simp only [BitVec.extractLsb'_toNat, hsum, Nat.shiftRight_zero]; omega
  have l1 := ((va + 1#16).extractLsb' 0 12).isLt
  have l2 := (va.extractLsb' 0 12).isLt
  rw [← Nat.shiftLeft_add_eq_or_of_lt l1] at h1
  rw [← Nat.shiftLeft_add_eq_or_of_lt l2] at h2
  refine h1.trans ?_
  refine Eq.trans ?_ (BitVec.toNat_add _ _).symm
  rw [h2, e1]
  simp only [Nat.shiftLeft_eq, BitVec.toNat_ofNat]
  omega

/-! ### The canonical form -/

theorem State.putByte_memWf (s : State) (a : PhysAddr) (b : Byte) (h : memWf s.mem = true) :
    memWf (s.putByte a b).mem = true := by
  simp only [State.putByte]
  split
  · exact memWf_memWrite _ _ _ h
  · exact h

theorem State.physWrite_memWf {s t : State} {a : PhysAddr} {b : Byte} (h : s.physWrite a b = .ok t)
    (hm : memWf s.mem = true) : memWf t.mem = true := by
  obtain ⟨_, rfl⟩ := State.physWrite_ok_iff.mp h
  exact s.putByte_memWf _ _ hm

theorem State.withWord_memWf (s : State) (a : PhysAddr) (v : Word) (h : memWf s.mem = true) :
    memWf (s.withWord a v).mem = true :=
  State.putByte_memWf _ _ _ (State.putByte_memWf _ _ _ h)

theorem State.withWord_storedWf (s : State) (a : PhysAddr) (v : Word) (h : marksWf s.stored = true) :
    marksWf (s.withWord a v).stored = true :=
  marksWf_setMark _ (a + 1#24) true (marksWf_setMark _ a true h)

theorem State.storeWord_memWf {s t : State} {va v : Word} (h : s.storeWord va v = .ok t) (hm : memWf s.mem = true) :
    memWf t.mem = true := by
  obtain ⟨_, rfl⟩ := State.storeWord_ok_iff.mp h
  exact s.withWord_memWf _ _ hm

theorem State.storeByte_memWf {s t : State} {va : Word} {b : Byte} (h : s.storeByte va b = .ok t)
    (hm : memWf s.mem = true) : memWf t.mem = true := by
  obtain ⟨_, rfl⟩ := State.storeByte_ok_iff.mp h
  exact s.putByte_memWf _ _ hm

theorem State.placeWord_memWf (s : State) (lo hi : Byte) (hm : memWf s.mem = true) :
    memWf (s.placeWord lo hi).mem = true :=
  memWf_memWrite _ _ _ (memWf_memWrite _ _ _ hm)

theorem State.resetAgain_memWf (s : State) : memWf s.resetAgain.mem = true := sparseWf_normal _ _ _

/-- The loaded bytes stay in canonical form when a word is stored. -/
theorem State.withWord_loadedWf (s : State) (a : PhysAddr) (v : Word) (h : marksWf s.loaded = true) :
    marksWf (s.withWord a v).loaded = true :=
  marksWf_setMark _ (a + 1#24) false (marksWf_setMark _ a false h)

/-- What a ROM or the loader put in memory is there after a reset as before (`70_reset_and_hazards.md` R703). -/
theorem State.resetAgain_provided (s : State) (a : PhysAddr) (h : s.isProvided a = true) :
    memRead s.resetAgain.mem a = memRead s.mem a := by
  unfold memRead
  change sparseGet _ (sparseNormal _ _ _) _ = _
  have ha : BitVec.ofNat 24 a.toNat = a := by simp
  rw [sparseGet_normal _ _ _ _ (physAddr_lt a)]
  apply sparseGet_filter_append
  · intro v; simp [ha, h]
  · intro v; simp [ha, h]

/-- The memory of the machine after reset is canonical. -/
theorem State.reset_memWf : memWf State.reset.mem = true := rfl

end Sys2Proof.Machine
end

