-- ==== Sys2Proof/Laws/Devices.lean ====
section
/-! SUPPORT. What the SPI interface and its card can do, once: a read uses up response bytes at most, and a byte sent
keeps the card's size and the canonical form of its store. -/

namespace Sys2Proof.Machine

/-- Reading s0 changes nothing but the response bytes that wait. -/
theorem Spi.fetchByte_spi (p : Spi) :
    ∃ reply, p.fetchByte.2 = { p with card := { p.card with reply := reply } } := by
  unfold Spi.fetchByte
  split
  · exact ⟨_, rfl⟩
  · split
    · exact ⟨_, rfl⟩
    · exact ⟨_, rfl⟩
    · split <;> exact ⟨_, rfl⟩

/-- What a byte sent can do: nothing, a change of phase, or what the selected card does with it. -/
theorem Spi.send_cases (p : Spi) (b : Byte) :
    (∃ phase, p.send b = { p with card := { p.card with phase := phase } }) ∨
      p.selected = true ∧ ∃ phase, phase = p.card.phase.onSelected ∧ phase ≠ .failed ∧
        ∃ reply, p.send b = { p with card := { p.card with
          phase := phase.after (sdCommand (p.card.received ++ [b]))
          received := p.card.received ++ [b]
          store := if phase = .ready then p.card.storeAfter (sdCommand (p.card.received ++ [b])) else p.card.store
          reply := reply } } := by
  unfold Spi.send
  split
  · exact .inl ⟨_, rfl⟩
  split
  · rename_i hs
    unfold SdCard.accept
    split
    · exact .inl ⟨_, rfl⟩
    · rename_i phase hp
      exact .inr ⟨hs, _, rfl, hp, _, rfl⟩
  · left
    unfold SdCard.idleByte
    split
    · split <;> exact ⟨_, rfl⟩
    · exact ⟨_, rfl⟩

/-- The bytes of a card's store after a run of them has been replaced. -/
theorem sparseGet_sdWriteBytes (bytes : List Byte) : ∀ (m : List (Nat × Byte)) (base a : Nat),
    sparseGet unlistedByte (sdWriteBytes m base bytes) a =
      if h : base ≤ a ∧ a < base + bytes.length then bytes[a - base]'(by omega) else sparseGet unlistedByte m a := by
  induction bytes with
  | nil => intro m base a; rw [dif_neg (by simp)]; rfl
  | cons b rest ih =>
    intro m base a
    rw [sdWriteBytes, ih]
    by_cases h0 : a = base
    · subst h0
      rw [dif_neg (by omega), dif_pos (by simp)]
      simp
    · by_cases h : base + 1 ≤ a ∧ a < base + 1 + rest.length
      · rw [dif_pos h, dif_pos (by simp only [List.length_cons]; omega)]
        have : a - base = (a - (base + 1)) + 1 := by omega
        simp only [this, List.getElem_cons_succ]
      · rw [dif_neg h, dif_neg (by simp only [List.length_cons]; omega), sparseGet_put_ne _ _ _ _ _ h0]

theorem sdWriteBytes_wf (bound : Nat) (bytes : List Byte) : ∀ (m : List (Nat × Byte)) (base : Nat),
    base + bytes.length ≤ bound → sparseWf unlistedByte bound m = true →
      sparseWf unlistedByte bound (sdWriteBytes m base bytes) = true := by
  induction bytes with
  | nil => intro m base _ h; exact h
  | cons b rest ih =>
    intro m base hb h
    simp only [List.length_cons] at hb
    exact ih _ _ (by omega) (sparseWf_put _ _ _ _ _ (by omega) h)

theorem SdCard.hasSector_iff {k : SdCard} {address : BitVec 32} :
    k.hasSector address = true ↔ address.toNat % 512 = 0 ∧ address.toNat + 512 ≤ 512 * k.sectors := by
  simp [SdCard.hasSector]

/-- A command keeps the store in its canonical form, within the card's sectors. -/
theorem SdCard.storeAfter_wf (k : SdCard) (cmd : Option SdCommand) (h : k.storeWf = true) :
    sparseWf unlistedByte (512 * k.sectors) (k.storeAfter cmd) = true := by
  unfold SdCard.storeAfter
  split
  · split
    · rename_i ha
      refine sdWriteBytes_wf _ _ _ _ ?_ h
      rw [Vector.length_toList]
      exact (SdCard.hasSector_iff.mp ha).2
    · exact h
  · exact h

/-- A byte sent keeps the store in its canonical form. -/
theorem Spi.send_storeWf (p : Spi) (b : Byte) (h : p.card.storeWf = true) : (p.send b).card.storeWf = true := by
  rcases p.send_cases b with ⟨_, e⟩ | ⟨_, phase, _, _, _, e⟩ <;> rw [e]
  · exact h
  · unfold SdCard.storeWf
    simp only
    split
    · exact p.card.storeAfter_wf _ h
    · exact h

/-- A byte sent keeps the card's size. -/
theorem Spi.send_sizeWf (p : Spi) (b : Byte) (h : p.card.sizeWf = true) : (p.send b).card.sizeWf = true := by
  rcases p.send_cases b with ⟨_, e⟩ | ⟨_, _, _, _, _, e⟩ <;> rw [e] <;> exact h

end Sys2Proof.Machine
end

