-- ==== Sys2Proof/Laws/Exceptions.lean ====
section
/-! SUPPORT. Trap entry, double faults and the tick, in the terms of Safety. -/

namespace Sys2Proof.Machine

theorem vectorAddress_toNat (n : BitVec 14) : (vectorAddress n).toNat = 4 * n.toNat := by
  unfold vectorAddress
  have := BitVec.toNat_append n 0#2
  refine this.trans ?_
  simp [Nat.shiftLeft_eq, Nat.mul_comm]

/-- Trap entry saves, sends control and changes nothing else (`60_exceptions.md` R620). -/
theorem State.enterKernel_entered (s : State) (c : Cause) : Entered s c (s.returnPc c) (s.enterKernel c) where
  mode := rfl
  ie := rfl
  isr := rfl
  irr := rfl
  icr := rfl
  idr := by rintro sp va a rfl; rfl
  pc := vectorAddress_toNat _
  banks := fun _ => rfl
  memory := fun _ => rfl
  stored := rfl
  loaded := rfl
  halted := rfl
  trap := rfl
  context := rfl
  cyc := rfl
  platform := rfl
  uart := rfl
  spi := rfl
  ticks := rfl
  debugEvents := rfl

/-- What the host and the clock do before a step. -/
theorem State.tick_ticked (s : State) : Ticked s s.tick where
  pc := rfl
  mode := rfl
  halted := rfl
  trap := rfl
  ie := rfl
  context := rfl
  irr := rfl
  icr := rfl
  idr := rfl
  isr := rfl
  cyc := rfl
  banks := fun _ => rfl
  memory := fun _ => rfl
  stored := rfl
  loaded := rfl
  platform := rfl
  spi := rfl
  debugEvents := rfl
  uart := ⟨_, _, rfl⟩
  room := by
    intro h
    simp only [State.tick, Uart.hostMoves, List.length_append, List.length_take]
    omega

theorem State.resetAgain_isReset (s : State) : IsReset s.resetAgain where
  mode := rfl
  pc := rfl
  halted := rfl
  code0 := by simp [State.resetAgain, State.bankOf, Bank.withSlotsZero]
  data0 := by simp [State.resetAgain, State.bankOf, Bank.withSlotsZero]

theorem State.haltDouble_haltedFrom (s : State) : HaltedFrom s s.haltDouble :=
  ⟨rfl, rfl, rfl, rfl, rfl, rfl, fun _ => rfl, fun _ => rfl, rfl, rfl, rfl, rfl, rfl, rfl, rfl⟩

end Sys2Proof.Machine
end

