-- ==== Sys2Proof/Laws/Flags.lean ====
section
/-! SUPPORT. The adder, said with numbers. -/

namespace Sys2Proof.Machine

/-- Overflow told by sign bits is overflow told by signed numbers. -/
theorem overflow_signBits (a b c : Nat) (ha : a < 65536) (hb : b < 65536) (hc : c ≤ 1) :
    ((decide (32768 ≤ a) == decide (32768 ≤ b)) && (decide (32768 ≤ (a + b + c) % 65536) != decide (32768 ≤ a))) =
    !(decide ((-32768 : Int) ≤ (if 2 * a < 65536 then (a : Int) else a - 65536) + (if 2 * b < 65536 then (b : Int) else b - 65536) + c) &&
      decide ((if 2 * a < 65536 then (a : Int) else a - 65536) + (if 2 * b < 65536 then (b : Int) else b - 65536) + c ≤ (32767 : Int))) := by
  by_cases h1 : 32768 ≤ a <;> by_cases h2 : 32768 ≤ b <;> by_cases h4 : 32768 ≤ (a + b + c) % 65536 <;>
    simp only [h1, h2, h4, decide_true, decide_false, Bool.true_and, Bool.and_false, bne_self_eq_false, beq_self_eq_true, Bool.not_and, Bool.true_bne, Bool.bne_true] <;>
    (split_ifs <;> first | omega | (simp; omega))

/-- `add16` is addition, with C the carry out of bit 15 and V signed overflow. -/
theorem add16_isSum (a b : Word) (c : Bool) : IsSum a b c (add16 a b c).r (add16 a b c).flags where
  result := by simp [add16]
  carry := by simp [add16]
  zero := by simp [add16]; rfl
  neg := by simp [add16, BitVec.msb_eq_getLsbD_last]
  overflow := by
    have := overflow_signBits a.toNat b.toNat c.toNat a.isLt b.isLt (Bool.toNat_le c)
    simp only [add16, fitsSigned, BitVec.msb_eq_decide, BitVec.toInt_eq_toNat_cond, BitVec.toNat_ofNat]
    exact this

/-- `add16` of a complement is subtraction with the borrow `!c`. -/
theorem add16_isDifference (a b : Word) (c : Bool) : IsDifference a b (!c) (add16 a (~~~b) c).r (add16 a (~~~b) c).flags := by
  have h := add16_isSum a (~~~b) c
  have ha := a.isLt; have hb := b.isLt
  have hn : (~~~b).toNat = 65535 - b.toNat := by simp [BitVec.toNat_not]
  have hi : (~~~b).toInt = -1 - b.toInt := by
    simp only [BitVec.toInt_eq_toNat_cond, hn]; split_ifs <;> omega
  refine ⟨?_, ?_, h.zero, h.neg, ?_⟩
  · rw [h.result, hn]; cases c <;> simp <;> omega
  · rw [h.carry, hn]; cases c <;> simp <;> omega
  · rw [h.overflow, hi]; congr 2; cases c <;> simp <;> omega

/-- `sub16` is subtraction without a borrow. -/
theorem sub16_isDifference (a b : Word) : IsDifference a b false (sub16 a b).r (sub16 a b).flags :=
  add16_isDifference a b true

theorem Flags.signedGe_eq (f : Flags) : f.signedGe = decide (f.n = f.v) := by
  unfold Flags.signedGe
  cases f.n <;> cases f.v <;> rfl

/-- The result and flags of a difference decide the comparisons of the branch table, unsigned and signed. -/
theorem IsDifference.decides {a b r : Word} {f : Flags} (h : IsDifference a b false r f) :
    f.z = decide (a = b) ∧ f.c = decide (b.toNat ≤ a.toNat) ∧ f.signedGe = decide (b.toInt ≤ a.toInt) := by
  have ha := a.isLt
  have hb := b.isLt
  have hr := h.result
  refine ⟨?_, by simpa using h.carry, ?_⟩
  · rw [h.zero]
    simp only [decide_eq_decide, BitVec.toNat_inj.symm, hr]
    simp
    omega
  · have hn : f.n = decide (32768 ≤ r.toNat) := by
      rw [h.neg, ← (show r.msb = r.getLsbD 15 from BitVec.msb_eq_getLsbD_last r), BitVec.msb_eq_decide]
    unfold Flags.signedGe
    rw [hn, h.overflow, hr]
    simp only [fitsSigned, BitVec.toInt_eq_toNat_cond, Bool.toNat_false, Nat.sub_zero]
    clear hr hn h
    rcases Nat.lt_or_ge a.toNat 32768 with h1 | h1 <;> rcases Nat.lt_or_ge b.toNat 32768 with h2 | h2 <;>
    by_cases h4 : 32768 ≤ (a.toNat + 65536 - b.toNat) % 65536 <;> simp only [h4, decide_true, decide_false] <;>
    split_ifs <;> rw [Bool.eq_iff_iff] <;> simp <;> omega

end Sys2Proof.Machine
end

