-- ==== Sys2Proof/Laws/Frames.lean ====
section
/-! SUPPORT. What the register updates of an instruction leave, in the terms of Safety. -/

namespace Sys2Proof.Machine

theorem State.setReg_regWritten (s : State) (i : RegField) (v : Word) (p : Word) :
    RegWritten s i v s.flags { s.setReg i v with pc := p } where
  value h := State.reg_setReg_self s i v h
  others j h := State.reg_setReg_ne s i j v h
  link := State.link_setReg s i v
  flags := State.flags_setReg s i v
  frame := {
    control := ⟨⟨rfl, rfl, rfl, rfl, rfl, rfl, rfl, rfl, rfl, rfl, rfl, rfl, rfl⟩, rfl, rfl⟩
    memory := fun _ => rfl
    stored := rfl
    loaded := rfl
    others := fun c h => State.bankOf_setReg_ne s i v c h
    mmu := ⟨State.cmmu_setReg s i v, State.dmmu_setReg s i v⟩ }

theorem State.setReg_setFlags_regWritten (s : State) (i : RegField) (v : Word) (f : Flags) (p : Word) :
    RegWritten s i v f { (s.setReg i v).setFlags f with pc := p } where
  value h := (State.reg_setFlags (s.setReg i v) f i).trans (State.reg_setReg_self s i v h)
  others j h := (State.reg_setFlags (s.setReg i v) f j).trans (State.reg_setReg_ne s i j v h)
  link := (State.link_setFlags (s.setReg i v) f).trans (State.link_setReg s i v)
  flags := State.flags_setFlags (s.setReg i v) f
  frame := {
    control := ⟨⟨rfl, rfl, rfl, rfl, rfl, rfl, rfl, rfl, rfl, rfl, rfl, rfl, rfl⟩, rfl, rfl⟩
    memory := fun _ => rfl
    stored := rfl
    loaded := rfl
    others := fun c h => (State.bankOf_setFlags_ne (s.setReg i v) f c h).trans (State.bankOf_setReg_ne s i v c h)
    mmu := by
      constructor
      · show ((s.setReg i v).setFlags f).bank.cmmu = _
        simp
      · show ((s.setReg i v).setFlags f).bank.dmmu = _
        simp }

theorem State.setRegL_setFlags_regLinkWritten (s : State) (i : RegField) (v : Word) (f : Flags) (p : Word) :
    RegLinkWritten s i v f { (s.setRegL i v).setFlags f with pc := p } := by
  by_cases h : i = 0#3
  · subst h
    refine ⟨fun h => absurd rfl h, ?_, ?_, ?_, ?_⟩
    · intro j hj; exact (State.reg_setFlags (s.setLink v) f j).trans (State.reg_setLink s v j)
    · rw [if_pos rfl]; exact (State.link_setFlags (s.setLink v) f).trans (State.link_setLink s v)
    · exact State.flags_setFlags (s.setLink v) f
    · refine ⟨⟨⟨rfl, rfl, rfl, rfl, rfl, rfl, rfl, rfl, rfl, rfl, rfl, rfl, rfl⟩, rfl, rfl⟩, fun _ => rfl, rfl, rfl, ?_, ?_⟩
      · intro c hc; exact (State.bankOf_setFlags_ne (s.setLink v) f c hc).trans (State.bankOf_setLink_ne s v c hc)
      · constructor
        · show ((s.setLink v).setFlags f).bank.cmmu = _; simp
        · show ((s.setLink v).setFlags f).bank.dmmu = _; simp
  · have e : s.setRegL i v = s.setReg i v := by simp [State.setRegL, h]
    rw [e]
    have := State.setReg_setFlags_regWritten s i v f p
    exact ⟨this.value, this.others, by rw [if_neg h]; exact this.link, this.flags, this.frame⟩

theorem State.setRegL_regLinkWritten (s : State) (i : RegField) (v : Word) (p : Word) :
    RegLinkWritten s i v s.flags { s.setRegL i v with pc := p } := by
  by_cases h : i = 0#3
  · subst h
    refine ⟨fun h => absurd rfl h, ?_, ?_, ?_, ?_⟩
    · intro j hj; exact (State.reg_setLink s v j)
    · rw [if_pos rfl]; exact (State.link_setLink s v)
    · exact State.flags_setLink s v
    · refine ⟨⟨⟨rfl, rfl, rfl, rfl, rfl, rfl, rfl, rfl, rfl, rfl, rfl, rfl, rfl⟩, rfl, rfl⟩, fun _ => rfl, rfl, rfl, ?_, ?_⟩
      · intro c hc; exact (State.bankOf_setLink_ne s v c hc)
      · constructor
        · show (s.setLink v).bank.cmmu = _; simp
        · show (s.setLink v).bank.dmmu = _; simp
  · have e : s.setRegL i v = s.setReg i v := by simp [State.setRegL, h]
    rw [e]
    have := State.setReg_regWritten s i v p
    exact ⟨this.value, this.others, by rw [if_neg h]; exact this.link, this.flags, this.frame⟩

theorem State.pc_registerFrame (s : State) (p : Word) : RegisterFrame s { s with pc := p } :=
  ⟨⟨⟨rfl, rfl, rfl, rfl, rfl, rfl, rfl, rfl, rfl, rfl, rfl, rfl, rfl⟩, rfl, rfl⟩, fun _ => rfl, rfl, rfl, fun _ _ => rfl, rfl, rfl⟩
theorem State.pc_sameRegisters (s : State) (p : Word) : SameRegisters s { s with pc := p } := ⟨fun _ => rfl, rfl, rfl⟩

theorem State.setFlags_regWritten (s : State) (f : Flags) (v p : Word) :
    RegWritten s 0#3 v f { s.setFlags f with pc := p } where
  value h := absurd rfl h
  others j _ := State.reg_setFlags s f j
  link := State.link_setFlags s f
  flags := State.flags_setFlags s f
  frame := {
    control := ⟨⟨rfl, rfl, rfl, rfl, rfl, rfl, rfl, rfl, rfl, rfl, rfl, rfl, rfl⟩, rfl, rfl⟩
    memory := fun _ => rfl
    stored := rfl
    loaded := rfl
    others := fun c h => State.bankOf_setFlags_ne s f c h
    mmu := by
      constructor
      · show (s.setFlags f).bank.cmmu = _
        simp
      · show (s.setFlags f).bank.dmmu = _
        simp }

end Sys2Proof.Machine
end

