-- ==== Sys2Proof/Laws/PerInstr.lean ====
section
/-! SUPPORT. What is proved of every instruction, one lemma per constructor: its word lies in its row of
spec/opcode_table.json. -/

namespace Sys2Proof.Laws.TableRow

/-- The encoding of a well-formed instruction has, under its row's mask, its row's match. -/
def Statement (i : Instr) : Prop := i.wellFormed = true → encode i &&& i.tableRow.1 = i.tableRow.2

theorem wordM_row (op3 : BitVec 3) (imm7 : BitVec 7) (rB rA : RegField) :
    wordM op3 imm7 rB rA &&& 0xE000#16 = wordM op3 0#7 0#3 0#3 := by
  apply BitVec.eq_of_getLsbD_eq
  intro i hi
  rw [BitVec.getLsbD_and, wordM_getLsbD, wordM_getLsbD]
  interval_cases i <;> simp

theorem wordB_row_opcode (op3 : BitVec 3) (imm10 : BitVec 10) (low : BitVec 3) :
    wordB op3 imm10 low &&& 0xE000#16 = wordB op3 0#10 0#3 := by
  apply BitVec.eq_of_getLsbD_eq
  intro i hi
  rw [BitVec.getLsbD_and, wordB_getLsbD, wordB_getLsbD]
  interval_cases i <;> simp

theorem wordB_row (op3 : BitVec 3) (imm10 : BitVec 10) (low : BitVec 3) :
    wordB op3 imm10 low &&& 0xE007#16 = wordB op3 0#10 low := by
  apply BitVec.eq_of_getLsbD_eq
  intro i hi
  rw [BitVec.getLsbD_and, wordB_getLsbD, wordB_getLsbD]
  interval_cases i <;> simp

theorem wordJ_row (imm6 : BitVec 6) (rB rA : RegField) :
    wordJ imm6 rB rA &&& 0xF000#16 = 0xE000#16 := by
  apply BitVec.eq_of_getLsbD_eq
  intro i hi
  rw [BitVec.getLsbD_and, wordJ_getLsbD]
  interval_cases i <;> simp

theorem wordX_row_x (x : BitVec 3) (rC rB rA : RegField) :
    wordX x rC rB rA &&& 0xFE00#16 = wordX x 0#3 0#3 0#3 := by
  apply BitVec.eq_of_getLsbD_eq
  intro i hi
  rw [BitVec.getLsbD_and, wordX_getLsbD, wordX_getLsbD]
  interval_cases i <;> simp

theorem wordX_row_y (x : BitVec 3) (rC rB rA : RegField) :
    wordX x rC rB rA &&& 0xFFC0#16 = wordX x rC 0#3 0#3 := by
  apply BitVec.eq_of_getLsbD_eq
  intro i hi
  rw [BitVec.getLsbD_and, wordX_getLsbD, wordX_getLsbD]
  interval_cases i <;> simp

theorem wordX_row_z (x : BitVec 3) (rC rB rA : RegField) :
    wordX x rC rB rA &&& 0xFFF8#16 = wordX x rC rB 0#3 := by
  apply BitVec.eq_of_getLsbD_eq
  intro i hi
  rw [BitVec.getLsbD_and, wordX_getLsbD, wordX_getLsbD]
  interval_cases i <;> simp

theorem ldw (rA rB : RegField) (imm7 : BitVec 7) : Statement (.ldw rA rB imm7) := fun _ => wordM_row _ _ _ _

theorem ldb (rA rB : RegField) (imm7 : BitVec 7) : Statement (.ldb rA rB imm7) := fun _ => wordM_row _ _ _ _

theorem stw (rA rB : RegField) (imm7 : BitVec 7) : Statement (.stw rA rB imm7) := fun _ => wordM_row _ _ _ _

theorem stb (rA rB : RegField) (imm7 : BitVec 7) : Statement (.stb rA rB imm7) := fun _ => wordM_row _ _ _ _

theorem adi (rA rB : RegField) (imm7 : BitVec 7) : Statement (.adi rA rB imm7) := fun _ => wordM_row _ _ _ _

theorem lui (rA : RegField) (imm10 : BitVec 10) : Statement (.lui rA imm10) := fun _ => wordB_row_opcode _ _ _

theorem br (imm10 : BitVec 10) : Statement (.br imm10) := fun _ => wordB_row _ _ _

theorem brl (imm10 : BitVec 10) : Statement (.brl imm10) := fun _ => wordB_row _ _ _

theorem brz (imm10 : BitVec 10) : Statement (.brz imm10) := fun _ => wordB_row _ _ _

theorem brnz (imm10 : BitVec 10) : Statement (.brnz imm10) := fun _ => wordB_row _ _ _

theorem brc (imm10 : BitVec 10) : Statement (.brc imm10) := fun _ => wordB_row _ _ _

theorem brnc (imm10 : BitVec 10) : Statement (.brnc imm10) := fun _ => wordB_row _ _ _

theorem brsge (imm10 : BitVec 10) : Statement (.brsge imm10) := fun _ => wordB_row _ _ _

theorem brslt (imm10 : BitVec 10) : Statement (.brslt imm10) := fun _ => wordB_row _ _ _

theorem jal (rA rB : RegField) (imm6 : BitVec 6) : Statement (.jal rA rB imm6) := fun _ => wordJ_row imm6 rB rA

theorem sbb (rA rB rC : RegField) : Statement (.sbb rA rB rC) := fun _ => wordX_row_x _ _ _ _

theorem adc (rA rB rC : RegField) : Statement (.adc rA rB rC) := fun _ => wordX_row_x _ _ _ _

theorem sub (rA rB rC : RegField) : Statement (.sub rA rB rC) := fun _ => wordX_row_x _ _ _ _

theorem add (rA rB rC : RegField) : Statement (.add rA rB rC) := fun _ => wordX_row_x _ _ _ _

theorem xor (rA rB rC : RegField) : Statement (.xor rA rB rC) := fun _ => wordX_row_x _ _ _ _

theorem or (rA rB rC : RegField) : Statement (.or rA rB rC) := fun _ => wordX_row_x _ _ _ _

theorem and (rA rB rC : RegField) : Statement (.and rA rB rC) := fun _ => wordX_row_x _ _ _ _

theorem lsp (rA rB : RegField) : Statement (.lsp rA rB) := fun _ => wordX_row_y _ _ _ _

theorem lsi (rA rB : RegField) : Statement (.lsi rA rB) := fun _ => wordX_row_y _ _ _ _

theorem ssp (rA rB : RegField) : Statement (.ssp rA rB) := fun _ => wordX_row_y _ _ _ _

theorem ssi (rA rB : RegField) : Statement (.ssi rA rB) := fun _ => wordX_row_y _ _ _ _

theorem lcw (rA rB : RegField) : Statement (.lcw rA rB) := fun _ => wordX_row_y _ _ _ _

theorem sys (n : BitVec 3) : Statement (.sys n) := fun _ => wordX_row_z _ _ _ _

theorem tst (rA rB : RegField) : Statement (.tst rA rB) := fun _ => wordX_row_y _ _ _ _

theorem not (rA : RegField) : Statement (.not rA) := fun _ => wordX_row_z _ _ _ _

theorem neg (rA : RegField) : Statement (.neg rA) := fun _ => wordX_row_z _ _ _ _

theorem dub (rA : RegField) : Statement (.dub rA) := fun _ => wordX_row_z _ _ _ _

theorem sxt (rA : RegField) : Statement (.sxt rA) := fun _ => wordX_row_z _ _ _ _

theorem sra (rA : RegField) : Statement (.sra rA) := fun _ => wordX_row_z _ _ _ _

theorem srl (rA : RegField) : Statement (.srl rA) := fun _ => wordX_row_z _ _ _ _

theorem ji (rA : RegField) : Statement (.ji rA) := fun _ => wordX_row_z _ _ _ _

theorem ccf : Statement (.ccf) := fun _ => by decide

theorem scf : Statement (.scf) := fun _ => by decide

theorem di : Statement (.di) := fun _ => by decide

theorem ei : Statement (.ei) := fun _ => by decide

theorem hlt : Statement (.hlt) := fun _ => by decide

theorem brk : Statement (.brk) := fun _ => by decide

theorem rti : Statement (.rti) := fun _ => by decide

theorem die : Statement (.die) := fun _ => by decide

theorem illegalZero : Statement (.illegalZero) := fun _ => by decide

theorem illegalSysRb (rA rB : RegField) : Statement (.illegalSysRb rA rB) := fun _ => wordX_row_y _ _ _ _

end Sys2Proof.Laws.TableRow
end

