-- ==== Sys2Proof/Laws/Special.lean ====
section
/-! SUPPORT. Special registers: which numbers name which, what `SPRRead` and `SPRWrite` can answer and change. -/

namespace Sys2Proof.Machine

/-! ### Numbers -/

/-- The numbers of a special register, seen from the register (`10_state.md` R142). -/
def Spr.hasNumber (r : Spr) (n : Nat) : Prop :=
  match r with
  | .link => n = 0
  | .flags => n = 1
  | .undefined => 2 ≤ n ∧ n ≤ 5
  | .cycLo => n = 6
  | .cycHi => n = 7
  | .irr => n = 8
  | .icr => n = 9
  | .idr => n = 10
  | .isr => n = 11
  | .reserved => 12 ≤ n ∧ n ≤ 14
  | .context => n = 15
  | .userGen i => n = 16 + i.toNat
  | .userReserved => 24 ≤ n ∧ n ≤ 31
  | .userCode slot => n = 32 + slot.toNat
  | .userData slot => n = 48 + slot.toNat
  | .kernCode slot => n = 64 + slot.toNat
  | .kernData slot => n = 80 + slot.toNat
  | .uartTx => n = 96
  | .uartRx => n = 97
  | .uartTxStatus => n = 98
  | .uartRxStatus => n = 99
  | .spiData => n = 100
  | .spiSelect => n = 101
  | .unassigned => 102 ≤ n ∧ n ≤ 127

/-- The register a number stands for has that number. -/
theorem Spr.ofNumber_hasNumber (k : Word) (h : k.toNat ≤ 127) :
    (Spr.ofNumber (k.extractLsb' 0 7)).hasNumber k.toNat := by
  have hn : (k.extractLsb' 0 7).toNat = k.toNat := by
    simp only [BitVec.extractLsb'_toNat, Nat.shiftRight_zero]; omega
  have h4 : ((k.extractLsb' 0 7).extractLsb' 0 4).toNat = k.toNat % 16 := by
    simp only [BitVec.extractLsb'_toNat, Nat.shiftRight_zero]; omega
  have h3 : ((k.extractLsb' 0 7).extractLsb' 0 3).toNat = k.toNat % 8 := by
    simp only [BitVec.extractLsb'_toNat, Nat.shiftRight_zero]; omega
  unfold Spr.ofNumber
  rw [hn]
  dsimp only
  repeat' refine iteInduction (motive := fun r => Spr.hasNumber r k.toNat) (fun _ => ?_) (fun _ => ?_)
  all_goals simp only [Spr.hasNumber, h3, h4]
  all_goals omega

/-! ### The number check -/

theorem State.sprNumber_ok_iff {s : State} {k : Word} {r : Spr} :
    s.sprNumber k = .ok r ↔
      k.toNat ≤ 127 ∧ (s.mode = .user → k.toNat ≤ 7) ∧ r = Spr.ofNumber (k.extractLsb' 0 7) := by
  unfold State.sprNumber
  by_cases h1 : 127 < k.toNat
  · simp [h1, Nat.not_le.mpr h1]
  · by_cases h2 : s.mode = .user ∧ 8 ≤ k.toNat
    · simp only [h1, h2, if_false, if_true, and_self, reduceCtorEq, forall_const, false_iff]
      omega
    · simp only [h1, h2, if_false, Action.ok.injEq]
      constructor
      · rintro rfl
        exact ⟨by omega, fun hm => by by_contra hk; exact h2 ⟨hm, by omega⟩, rfl⟩
      · rintro ⟨_, _, rfl⟩; rfl

theorem State.sprNumber_trap_iff {s : State} {k : Word} {c : Cause} :
    s.sprNumber k = .trap c ↔ k.toNat ≤ 127 ∧ s.mode = .user ∧ 8 ≤ k.toNat ∧ c = .illegal .userSpr := by
  unfold State.sprNumber
  by_cases h1 : 127 < k.toNat
  · simp [h1, Nat.not_le.mpr h1]
  · by_cases h2 : s.mode = .user ∧ 8 ≤ k.toNat
    · simp only [h1, h2, if_false, if_true, and_self, Action.trap.injEq, true_and]
      constructor
      · rintro rfl; exact ⟨by omega, rfl⟩
      · rintro ⟨_, rfl⟩; rfl
    · simp only [h1, h2, if_false, reduceCtorEq, false_iff]
      rintro ⟨_, hm, hk, _⟩; exact h2 ⟨hm, hk⟩

theorem State.sprNumber_of_range {s : State} {k : Word} (h : 127 < k.toNat) : s.sprNumber k = .stuck .sprRange := by
  simp [State.sprNumber, h]

/-- A number whose access has a stated result passes the check. -/
theorem State.sprNumber_of_stated {s : State} {k : Word} (h : s.SprStated k) :
    k.toNat ≤ 127 ∧ s.sprNumber k = .ok (Spr.ofNumber (k.extractLsb' 0 7)) := by
  have hk : k.toNat ≤ 127 := by
    cases hm : s.mode with
    | user => have := h.1 hm; omega
    | kernel => exact (h.2 hm).1
  exact ⟨hk, State.sprNumber_ok_iff.mpr ⟨hk, h.1, rfl⟩⟩

/-! ### What a read and a write can do -/

theorem State.userBank_ok_iff {s : State} {b : Bank} :
    s.userBank = .ok b ↔ s.context ≠ 0#16 ∧ b = s.bankOf s.context.toNat := by
  unfold State.userBank
  by_cases h : s.context = 0#16 <;> simp [h, eq_comm]

theorem State.userBank_not_trap (s : State) (c : Cause) : s.userBank ≠ .trap c := by
  unfold State.userBank
  split <;> simp

/-- A read changes nothing but the devices and the free-value counter. -/
theorem State.readSpr_ok {s t : State} {r : Spr} {v : Word} (h : s.readSpr r = .ok (v, t)) :
    t = { s with uart := t.uart, spi := t.spi, draws := t.draws } := by
  unfold State.readSpr at h
  cases r <;> simp only at h
  case userGen i =>
    split at h
    · cases h
    · obtain ⟨b, _, hb⟩ := Action.bind_ok_iff.mp h
      cases hb; rfl
  case userReserved => obtain ⟨b, _, hb⟩ := Action.bind_ok_iff.mp h; cases hb; rfl
  case userCode => obtain ⟨b, _, hb⟩ := Action.bind_ok_iff.mp h; cases hb; rfl
  case userData => obtain ⟨b, _, hb⟩ := Action.bind_ok_iff.mp h; cases hb; rfl
  case uartRx => split at h <;> (cases h; rfl)
  case spiData => split at h <;> (cases h; rfl)
  all_goals (cases h; rfl)

theorem State.readSpr_not_trap (s : State) (r : Spr) (c : Cause) : s.readSpr r ≠ .trap c := by
  unfold State.readSpr
  cases r <;> simp [Action.bind_trap_iff, State.userBank_not_trap] <;> split <;>
    simp [Action.bind_trap_iff, State.userBank_not_trap]

theorem State.writeSpr_not_trap (s : State) (r : Spr) (v : Word) (c : Cause) : s.writeSpr r v ≠ .trap c := by
  unfold State.writeSpr
  cases r <;> simp [Action.bind_trap_iff, State.userBank_not_trap] <;> split <;>
    simp [Action.bind_trap_iff, State.userBank_not_trap]

theorem State.sprRead_ok_iff {s t : State} {k v : Word} :
    s.sprRead k = .ok (v, t) ↔ k.toNat ≤ 127 ∧ (s.mode = .user → k.toNat ≤ 7) ∧
      s.readSpr (Spr.ofNumber (k.extractLsb' 0 7)) = .ok (v, t) := by
  simp only [State.sprRead, Action.bind_ok_iff, State.sprNumber_ok_iff]
  constructor
  · rintro ⟨_, ⟨h1, h2, rfl⟩, h3⟩; exact ⟨h1, h2, h3⟩
  · rintro ⟨h1, h2, h3⟩; exact ⟨_, ⟨h1, h2, rfl⟩, h3⟩

theorem State.sprRead_trap_iff {s : State} {k : Word} {c : Cause} :
    s.sprRead k = .trap c ↔ k.toNat ≤ 127 ∧ s.mode = .user ∧ 8 ≤ k.toNat ∧ c = .illegal .userSpr := by
  simp only [State.sprRead, Action.bind_trap_iff, State.sprNumber_trap_iff, State.readSpr_not_trap, and_false,
    exists_false, or_false]

theorem State.sprWrite_ok_iff {s t : State} {k v : Word} :
    s.sprWrite k v = .ok t ↔ k.toNat ≤ 127 ∧ (s.mode = .user → k.toNat ≤ 7) ∧
      s.writeSpr (Spr.ofNumber (k.extractLsb' 0 7)) v = .ok t := by
  simp only [State.sprWrite, Action.bind_ok_iff, State.sprNumber_ok_iff]
  constructor
  · rintro ⟨_, ⟨h1, h2, rfl⟩, h3⟩; exact ⟨h1, h2, h3⟩
  · rintro ⟨h1, h2, h3⟩; exact ⟨_, ⟨h1, h2, rfl⟩, h3⟩

theorem State.sprWrite_trap_iff {s : State} {k v : Word} {c : Cause} :
    s.sprWrite k v = .trap c ↔ k.toNat ≤ 127 ∧ s.mode = .user ∧ 8 ≤ k.toNat ∧ c = .illegal .userSpr := by
  simp only [State.sprWrite, Action.bind_trap_iff, State.sprNumber_trap_iff, State.writeSpr_not_trap, and_false,
    exists_false, or_false]

/-! ### Bits of the words that mix stated and undefined bits -/

theorem mixBits_getLsbD (mask known free : Word) (i : Nat) (h : mask.getLsbD i = true) :
    (mixBits mask known free).getLsbD i = known.getLsbD i := by
  simp only [mixBits, BitVec.getLsbD_or, BitVec.getLsbD_and, BitVec.getLsbD_not, h]
  simp

theorem lowByte_mixBits (b : Byte) (free : Word) : lowByte (mixBits 0x00FF (b.zeroExtend 16) free) = b := by
  apply BitVec.eq_of_getLsbD_eq
  intro i hi
  simp only [lowByte, BitVec.getLsbD_extractLsb', hi, decide_true, Bool.true_and, Nat.zero_add]
  rw [mixBits_getLsbD]
  · simp only [BitVec.getLsbD_setWidth]; simp; omega
  · interval_cases i <;> decide

theorem statusWord_bits (a b c : Bool) :
    (statusWord a b c).getLsbD 0 = a ∧ (statusWord a b c).getLsbD 7 = b ∧ (statusWord a b c).getLsbD 15 = c := by
  revert a b c; decide

theorem Flags.toBits_bits (f : Flags) :
    f.toBits.getLsbD 0 = f.c ∧ f.toBits.getLsbD 1 = f.z ∧ f.toBits.getLsbD 2 = f.n ∧ f.toBits.getLsbD 3 = f.v := by
  obtain ⟨c, z, n, v⟩ := f
  revert c z n v; decide

end Sys2Proof.Machine
end

