-- ==== Sys2Proof/Laws/Step.lean ====
section
/-! SUPPORT. What an instruction and a step can do, once: the inversion lemmas that statements about all instructions
cite. -/

namespace Sys2Proof.Machine

/-! ### What an instruction leaves -/

/-- `t` is `s` with a bank of the current context whose MMU registers are as before, and some pc. -/
def RegistersOnly (s t : State) : Prop :=
  ∃ b p, b.cmmu = s.bank.cmmu ∧ b.dmmu = s.bank.dmmu ∧ t = { s.setBank b with pc := p }

/-- The same with the flags as before. -/
def RegistersNotFlags (s t : State) : Prop :=
  ∃ b p, b.cmmu = s.bank.cmmu ∧ b.dmmu = s.bank.dmmu ∧ b.flags = s.bank.flags ∧ t = { s.setBank b with pc := p }

theorem RegistersNotFlags.registersOnly {s t : State} (h : RegistersNotFlags s t) : RegistersOnly s t := by
  obtain ⟨b, p, h1, h2, _, h3⟩ := h
  exact ⟨b, p, h1, h2, h3⟩

/-- `t` is `s` after a permitted store. -/
def Stored (s t : State) : Prop :=
  (∃ va b, s.CanStoreByte va ∧ t = (s.putByte (s.physical .data va) b).advance) ∨
  ∃ va v, s.CanStoreWord va ∧ t = (s.withWord (s.physical .data va) v).advance

/-- `t` is `s` after LSP or LSI of register number `k`. -/
def ReadSpr (s : State) (k : Word) (t : State) : Prop :=
  ∃ v r, s.sprRead k = .ok (v, r) ∧
    ((∃ rA, t = (r.setReg rA v).advance) ∨
      (∃ va, r.CanStoreWord va ∧ t = (r.withWord (r.physical .data va) v).advance) ∨
      ∃ c, t = (s.afterFaultingRead r).raise c)

/-- `t` is `s` after SSP or SSI of register number `k`. -/
def WroteSpr (s : State) (k : Word) (t : State) : Prop := ∃ v u, s.sprWrite k v = .ok u ∧ t = u.advance

/-- What an instruction that answers a next state has done, for every instruction. -/
def Did (i : Instr) (s t : State) : Prop :=
  match i with
  | .ldw _ _ _ | .ldb _ _ _ | .lcw _ _ => RegistersNotFlags s t ∨ ∃ c, t = s.raise c
  | .stw _ _ _ | .stb _ _ _ => Stored s t ∨ ∃ c, t = s.raise c
  | .lui _ _ | .brl _ | .jal _ _ _ => RegistersNotFlags s t
  | .adi _ _ _ | .sbb _ _ _ | .adc _ _ _ | .sub _ _ _ | .add _ _ _ | .xor _ _ _ | .or _ _ _
  | .and _ _ _ | .tst _ _ | .not _ | .neg _ | .dub _ | .sxt _ | .sra _ | .srl _ | .ccf | .scf =>
    RegistersOnly s t
  | .br _ | .brz _ | .brnz _ | .brc _ | .brnc _ | .brsge _ | .brslt _ | .ji _ => ∃ p, t = { s with pc := p }
  | .lsp _ rB | .lsi _ rB => ReadSpr s (s.reg rB) t ∨ ∃ c, t = s.raise c
  | .ssp _ rB => WroteSpr s (s.reg rB) t ∨ ∃ c, t = s.raise c
  | .ssi rA _ => WroteSpr s (s.reg rA) t ∨ ∃ c, t = s.raise c
  | .sys _ | .illegalSysRb _ _ | .die | .illegalZero => ∃ c, t = s.raise c
  | .di => s.mode = .kernel ∧ t = { s.advance with ie := false } ∨ s.mode = .user ∧ ∃ c, t = s.raise c
  | .ei => s.mode = .kernel ∧ t = { s.advance with ie := true } ∨ s.mode = .user ∧ ∃ c, t = s.raise c
  | .hlt =>
    s.mode = .kernel ∧ t = { s.drawn with halted := true, pc := s.free } ∨ s.mode = .user ∧ ∃ c, t = s.raise c
  | .rti =>
    (s.mode = .kernel ∧ ∃ m, s.isr = isrEnc m ∧ ¬(m = .user ∧ s.context = 0#16) ∧
      t = { s with pc := s.irr, mode := m, ie := true }) ∨ s.mode = .user ∧ ∃ c, t = s.raise c
  | .brk => s.platform.brk = .emulator ∧ t = { s.advance with debugEvents := s.debugEvents + 1 }

theorem registersNotFlags_setReg (s : State) (i : RegField) (v p : Word) :
    RegistersNotFlags s { s.setReg i v with pc := p } :=
  ⟨s.bank.set i v, p, by simp, by simp, by simp, rfl⟩

theorem registersOnly_setFlags (s : State) (f : Flags) (p : Word) : RegistersOnly s { s.setFlags f with pc := p } :=
  ⟨{ s.bank with flags := f }, p, rfl, rfl, rfl⟩

theorem registersNotFlags_setLink (s : State) (v p : Word) : RegistersNotFlags s { s.setLink v with pc := p } :=
  ⟨{ s.bank with link := v }, p, rfl, rfl, rfl, rfl⟩

theorem registersOnly_setReg_setFlags (s : State) (i : RegField) (v : Word) (f : Flags) (p : Word) :
    RegistersOnly s { (s.setReg i v).setFlags f with pc := p } :=
  ⟨{ s.bank.set i v with flags := f }, p, by simp, by simp, by
    unfold State.setFlags State.setReg
    rw [State.setBank_setBank, State.bank_setBank]⟩

theorem registersNotFlags_setRegL (s : State) (i : RegField) (v p : Word) :
    RegistersNotFlags s { s.setRegL i v with pc := p } := by
  unfold State.setRegL
  split
  · exact registersNotFlags_setLink s v p
  · exact registersNotFlags_setReg s i v p

theorem registersOnly_setRegL_setFlags (s : State) (i : RegField) (v : Word) (f : Flags) (p : Word) :
    RegistersOnly s { (s.setRegL i v).setFlags f with pc := p } := by
  unfold State.setRegL
  split
  · exact ⟨{ s.bank with link := v, flags := f }, p, rfl, rfl, by
      unfold State.setFlags State.setLink
      rw [State.setBank_setBank, State.bank_setBank]⟩
  · exact registersOnly_setReg_setFlags s i v f p

/-- An instruction whose action is a read into a register. -/
theorem did_load {s t : State} {α : Type} {x : Action α} {i : RegField} {f : α → Word}
    (h : s.finish (x.bind fun v => .ok (s.setReg i (f v)).advance) = .next t) :
    RegistersNotFlags s t ∨ ∃ c, t = s.raise c := by
  rcases State.finish_next_iff.mp h with h | ⟨c, _, rfl⟩
  · obtain ⟨v, _, h⟩ := Action.bind_ok_iff.mp h
    cases h
    exact .inl (registersNotFlags_setReg s i (f v) _)
  · exact .inr ⟨c, rfl⟩

/-- An instruction only kernel mode may execute. -/
theorem did_privileged {s t : State} {x : Action State} (h : s.privileged x = .next t) :
    s.mode = .kernel ∧ s.finish x = .next t ∨ s.mode = .user ∧ ∃ c, t = s.raise c := by
  unfold State.privileged at h
  cases hm : s.mode <;> rw [hm] at h
  · exact .inl ⟨rfl, h⟩
  · cases h; exact .inr ⟨rfl, _, rfl⟩

theorem did_branch (s : State) (taken : Bool) (imm10 : BitVec 10) : ∃ p, s.branchIf taken imm10 = { s with pc := p } := by
  unfold State.branchIf
  split <;> exact ⟨_, rfl⟩

/-- What an instruction can do, said once. -/
theorem exec_did {i : Instr} {s t : State} (h : exec i s = .next t) : Did i s t := by
  cases i <;> simp only [exec] at h <;> simp only [Did]
  case ldw rA rB imm7 => exact did_load h
  case ldb rA rB imm7 => exact did_load h
  case lcw rA rB => exact did_load (f := id) h
  case stw rA rB imm7 =>
    rcases State.finish_next_iff.mp h with h | ⟨c, _, rfl⟩
    · obtain ⟨u, hu, h⟩ := Action.bind_ok_iff.mp h
      cases h
      obtain ⟨hc, rfl⟩ := State.storeWord_ok_iff.mp hu
      exact .inl (.inr ⟨_, _, hc, rfl⟩)
    · exact .inr ⟨c, rfl⟩
  case stb rA rB imm7 =>
    rcases State.finish_next_iff.mp h with h | ⟨c, _, rfl⟩
    · obtain ⟨u, hu, h⟩ := Action.bind_ok_iff.mp h
      cases h
      obtain ⟨hc, rfl⟩ := State.storeByte_ok_iff.mp hu
      exact .inl (.inl ⟨_, _, hc, rfl⟩)
    · exact .inr ⟨c, rfl⟩
  case adi rA rB imm7 => cases h; exact registersOnly_setRegL_setFlags s rA _ _ _
  case lui rA imm10 => cases h; exact registersNotFlags_setRegL s rA _ _
  case brl imm10 => cases h; exact registersNotFlags_setLink s _ _
  case jal rA rB imm6 => cases h; exact registersNotFlags_setRegL s rA _ _
  case br => cases h; exact did_branch s _ _
  case brz => cases h; exact did_branch s _ _
  case brnz => cases h; exact did_branch s _ _
  case brc => cases h; exact did_branch s _ _
  case brnc => cases h; exact did_branch s _ _
  case brsge => cases h; exact did_branch s _ _
  case brslt => cases h; exact did_branch s _ _
  case ji => cases h; exact ⟨_, rfl⟩
  case tst => cases h; exact registersOnly_setFlags s _ _
  case ccf => cases h; exact registersOnly_setFlags s _ _
  case scf => cases h; exact registersOnly_setFlags s _ _
  case lsp rA rB =>
    rcases State.finish_next_iff.mp h with h | ⟨c, _, rfl⟩
    · obtain ⟨⟨v, r⟩, hu, h⟩ := Action.bind_ok_iff.mp h
      cases h
      exact .inl ⟨v, r, hu, .inl ⟨rA, rfl⟩⟩
    · exact .inr ⟨c, rfl⟩
  case lsi rA rB =>
    unfold execLsi at h
    cases hr : s.sprRead (s.reg rB) with
    | trap c => rw [hr] at h; cases h; exact .inr ⟨c, rfl⟩
    | stuck f => rw [hr] at h; cases h
    | ok x =>
      obtain ⟨v, r⟩ := x
      rw [hr] at h
      simp only at h
      cases hw : r.storeWord (s.reg rA) v with
      | ok u =>
        rw [hw] at h; cases h
        obtain ⟨hc, rfl⟩ := State.storeWord_ok_iff.mp hw
        exact .inl ⟨v, r, hr, .inr (.inl ⟨_, hc, rfl⟩)⟩
      | trap c => rw [hw] at h; cases h; exact .inl ⟨v, r, hr, .inr (.inr ⟨c, rfl⟩)⟩
      | stuck f => rw [hw] at h; cases h
  case ssp rA rB =>
    rcases State.finish_next_iff.mp h with h | ⟨c, _, rfl⟩
    · obtain ⟨u, hu, h⟩ := Action.bind_ok_iff.mp h
      cases h
      exact .inl ⟨_, u, hu, rfl⟩
    · exact .inr ⟨c, rfl⟩
  case ssi rA rB =>
    rcases State.finish_next_iff.mp h with h | ⟨c, _, rfl⟩
    · obtain ⟨r, hn, h⟩ := Action.bind_ok_iff.mp h
      obtain ⟨v, _, h⟩ := Action.bind_ok_iff.mp h
      obtain ⟨u, hu, h⟩ := Action.bind_ok_iff.mp h
      cases h
      exact .inl ⟨v, u, Action.bind_ok_iff.mpr ⟨r, hn, hu⟩, rfl⟩
    · exact .inr ⟨c, rfl⟩
  case sys => cases h; exact ⟨_, rfl⟩
  case illegalSysRb => cases h; exact ⟨_, rfl⟩
  case die => cases h; exact ⟨_, rfl⟩
  case illegalZero => cases h; exact ⟨_, rfl⟩
  case di =>
    rcases did_privileged h with ⟨hm, h⟩ | h
    · cases h; exact .inl ⟨hm, rfl⟩
    · exact .inr h
  case ei =>
    rcases did_privileged h with ⟨hm, h⟩ | h
    · cases h; exact .inl ⟨hm, rfl⟩
    · exact .inr h
  case hlt =>
    rcases did_privileged h with ⟨hm, h⟩ | h
    · cases h; exact .inl ⟨hm, rfl⟩
    · exact .inr h
  case rti =>
    rcases did_privileged h with ⟨hm, h⟩ | h
    · rcases State.finish_next_iff.mp h with h | ⟨c, hc, _⟩
      · exact .inl ⟨hm, State.returnFromTrap_ok_iff.mp h⟩
      · exact absurd hc (State.returnFromTrap_not_trap s c)
    · exact .inr h
  case brk =>
    unfold execBrk at h
    split at h
    · rename_i hb; cases h; exact ⟨hb, rfl⟩
    · cases h
  all_goals cases h; exact registersOnly_setReg_setFlags s _ _ _ _

/-! ### What a step does -/

/-- A user-mode instruction under a given `TRAP_BIT`, said once. -/
theorem runTraced_did {s t : State} {r : TrapBit} {i : Instr} (h : s.runTraced r i = .next t) :
    t = (s.traceCleared r).raise .traceTrap ∨
      ∃ u, exec i s = .next u ∧
        (u.mode = .user ∧ t = (u.traceCleared r).raise .traceTrap ∨
          u.mode = .kernel ∧ (t = u ∨ t = u.doubleFault)) := by
  unfold State.runTraced at h
  split at h
  · cases h; exact .inl rfl
  · cases he : exec i s with
    | next u =>
      rw [he] at h
      simp only at h
      cases hm : u.mode with
      | user => rw [if_pos hm] at h; cases h; exact .inr ⟨u, rfl, .inl ⟨hm, rfl⟩⟩
      | kernel =>
        rw [if_neg (by simp [hm])] at h
        split at h
        · cases h; exact .inr ⟨_, rfl, .inr ⟨hm, .inl rfl⟩⟩
        · cases h; exact .inl rfl
        · cases h; exact .inr ⟨u, rfl, .inr ⟨hm, .inr rfl⟩⟩
    | fault f => rw [he] at h; cases h
    | refused x => rw [he] at h; cases h

/-- What a step of a machine that is not halted can do, said once: an interrupt or a fetch fault, the fetched
instruction, or the trap bit's part. -/
theorem step_did {s t : State} (hh : s.halted = false) (h : step s = .next t) :
    (∃ c, t = s.tick.raise c) ∨
      ∃ w, s.tick.fetch s.pc = .ok w ∧
        (¬(s.mode = .user ∧ s.t = true) ∧ exec (decode w) s.tick = .next t ∨
          (s.mode = .user ∧ s.t = true) ∧ ∃ r, Config.trapBit = some r ∧ s.tick.runTraced r (decode w) = .next t) := by
  unfold step at h
  rw [if_neg (by simp [hh])] at h
  unfold State.runStep at h
  split at h
  · cases h; exact .inl ⟨_, rfl⟩
  · have hp : s.tick.pc = s.pc := rfl
    rw [hp] at h
    cases hf : s.tick.fetch s.pc with
    | trap c => rw [hf] at h; cases h; exact .inl ⟨_, rfl⟩
    | stuck f => rw [hf] at h; cases h
    | ok w =>
      rw [hf] at h
      refine .inr ⟨w, rfl, ?_⟩
      simp only [State.runWord] at h
      by_cases hc : s.tick.mode = .user ∧ s.tick.t = true
      · rw [if_pos hc] at h
        refine .inr ⟨hc, ?_⟩
        cases hr : Config.trapBit with
        | none => rw [hr] at h; cases h
        | some r => rw [hr] at h; exact ⟨r, rfl, h⟩
      · rw [if_neg hc] at h
        exact .inl ⟨hc, h⟩

/-- What a special-register write can do, said once: it changes the bank of the current, the kernel's or the named
context, or one register or device, and never the pc, the mode, IE or memory. -/
theorem State.writeSpr_ok {s u : State} {r : Spr} {v : Word} (h : s.writeSpr r v = .ok u) :
    u = { s with
          t := u.t
          irr := u.irr
          isr := u.isr
          context := u.context
          banks := u.banks
          uart := u.uart
          spi := u.spi } := by
  unfold State.writeSpr at h
  cases r <;> simp only at h
  case flags =>
    cases h
    unfold State.writeFlags
    split <;> rfl
  case context => split at h <;> cases h; rfl
  case userGen i =>
    split at h
    · cases h
    · obtain ⟨b, _, hb⟩ := Action.bind_ok_iff.mp h
      cases hb; rfl
  case userReserved => obtain ⟨b, _, hb⟩ := Action.bind_ok_iff.mp h; cases hb; rfl
  case userCode => obtain ⟨b, _, hb⟩ := Action.bind_ok_iff.mp h; cases hb; rfl
  case userData => obtain ⟨b, _, hb⟩ := Action.bind_ok_iff.mp h; cases hb; rfl
  case kernCode => split at h <;> cases h; rfl
  all_goals (cases h; rfl)

end Sys2Proof.Machine
end

