-- ==== Sys2Proof/Laws/User.lean ====
section
/-! SUPPORT. What an instruction can do in user mode: special registers 0 to 7 only, and nothing outside its context but
a store through a permitted page or trap entry. -/

namespace Sys2Proof.Machine

/-- The special registers user mode can reach (`10_state.md` R121). -/
theorem State.user_sprNumber {s : State} {k : Word} {r : Spr} (hm : s.mode = .user) (h : s.sprNumber k = .ok r) :
    r = .link ∨ r = .flags ∨ r = .undefined ∨ r = .cycLo ∨ r = .cycHi := by
  obtain ⟨h1, h2, rfl⟩ := State.sprNumber_ok_iff.mp h
  have hn := Spr.ofNumber_hasNumber k h1
  have h7 := h2 hm
  generalize Spr.ofNumber (k.extractLsb' 0 7) = r at *
  cases r <;> simp only [Spr.hasNumber] at hn <;> first | omega | simp

/-- A special-register read in user mode uses a free value at most. -/
theorem State.user_sprRead {s r : State} {k v : Word} (hm : s.mode = .user) (h : s.sprRead k = .ok (v, r)) :
    r = { s with draws := r.draws } := by
  obtain ⟨x, hx, h⟩ := Action.bind_ok_iff.mp h
  rcases State.user_sprNumber hm hx with rfl | rfl | rfl | rfl | rfl <;> cases h <;> rfl

/-- A special-register write in user mode changes LINK or the flags of its context at most. -/
theorem State.user_sprWrite {s u : State} {k v : Word} (hm : s.mode = .user) (h : s.sprWrite k v = .ok u) :
    u = s ∨ ∃ b, b.cmmu = s.bank.cmmu ∧ b.dmmu = s.bank.dmmu ∧ u = s.setBank b := by
  obtain ⟨x, hx, h⟩ := Action.bind_ok_iff.mp h
  rcases State.user_sprNumber hm hx with rfl | rfl | rfl | rfl | rfl
  · cases h; exact .inr ⟨{ s.bank with link := v }, rfl, rfl, rfl⟩
  · cases h
    unfold State.writeFlags
    rw [hm]
    exact .inr ⟨{ s.bank with flags := Flags.ofWord v }, rfl, rfl, rfl⟩
  · cases h; exact .inl rfl
  · cases h; exact .inl rfl
  · cases h; exact .inl rfl

/-- A translated address is one the context's program can reach. -/
theorem State.reachable_of_translate {s : State} {space : Space} {va : Word} {access : Access} {a : PhysAddr}
    (h : s.translate space va access = .ok a) : s.Reachable a := by
  obtain ⟨h1, rfl⟩ := State.translate_ok_iff.mp h
  refine ⟨space, va, ?_, rfl⟩
  cases hp : s.permission space va <;> rw [hp] at h1 <;>
    first | exact .inl rfl | exact .inr rfl | (cases access <;> cases h1)

/-- So is the address above it, where the virtual address is even. -/
theorem State.reachable_succ_of_translate {s : State} {space : Space} {va : Word} {access : Access} {a : PhysAddr}
    (ho : oddAddress va = false) (h : s.translate space va access = .ok a) : s.Reachable (a + 1#24) := by
  obtain ⟨h1, rfl⟩ := State.translate_ok_iff.mp h
  obtain ⟨p1, p2⟩ := s.physical_succ space va ho
  refine ⟨space, va + 1#16, ?_, p1⟩
  rw [p2]
  cases hp : s.permission space va <;> rw [hp] at h1 <;>
    first | exact .inl rfl | exact .inr rfl | (cases access <;> cases h1)

/-- What a context's program can reach depends on its MMU registers only. -/
theorem State.reachable_congr {s t : State} (hc : t.bank.cmmu = s.bank.cmmu) (hd : t.bank.dmmu = s.bank.dmmu)
    (a : PhysAddr) : t.Reachable a ↔ s.Reachable a := by
  have h : ∀ space va, t.mmuRegister space va = s.mmuRegister space va := by
    intro space va
    cases space <;> simp only [State.mmuRegister, hc, hd]
  unfold State.Reachable State.permission State.physical
  simp only [h]

/-- What a user-mode instruction can do: registers of its context, the pc, a permitted store, or trap entry. -/
def UserDid (s t : State) : Prop :=
  (∃ d, RegistersOnly { s with draws := d } t) ∨
  (∃ p d e, t = { s with pc := p, draws := d, debugEvents := e }) ∨
  (∃ d, Stored { s with draws := d } t) ∨
  ∃ c d, t = ({ s with draws := d } : State).raise c

theorem UserDid.raise (s : State) (c : Cause) : UserDid s (s.raise c) := .inr (.inr (.inr ⟨c, s.draws, rfl⟩))

theorem UserDid.registers {s t : State} (h : RegistersOnly s t) : UserDid s t := .inl ⟨s.draws, h⟩

theorem UserDid.stored {s t : State} (h : Stored s t) : UserDid s t := .inr (.inr (.inl ⟨s.draws, h⟩))

theorem UserDid.readSpr {s t : State} {k : Word} (hm : s.mode = .user) (h : ReadSpr s k t) : UserDid s t := by
  obtain ⟨v, r, hr, h⟩ := h
  have hrs := State.user_sprRead hm hr
  rcases h with ⟨rA, rfl⟩ | ⟨va, hc, rfl⟩ | ⟨c, rfl⟩
  · refine .inl ⟨r.draws, ?_⟩
    rw [hrs]
    exact (registersNotFlags_setReg _ rA v _).registersOnly
  · refine .inr (.inr (.inl ⟨r.draws, .inr ⟨va, v, ?_, ?_⟩⟩))
    · rw [hrs] at hc; exact hc
    · rw [hrs]
  · refine .inr (.inr (.inr ⟨c, r.draws + 1, congrArg (State.raise · c) ?_⟩))
    unfold State.afterFaultingRead
    split
    · rw [hrs]
    · rfl

theorem UserDid.wroteSpr {s t : State} {k : Word} (hm : s.mode = .user) (h : WroteSpr s k t) : UserDid s t := by
  obtain ⟨v, u, hu, rfl⟩ := h
  rcases State.user_sprWrite hm hu with rfl | ⟨b, h1, h2, rfl⟩
  · exact .inr (.inl ⟨_, _, _, rfl⟩)
  · exact .inl ⟨s.draws, b, _, h1, h2, rfl⟩

/-- What an instruction can do in user mode, said once. -/
theorem exec_userDid {i : Instr} {s t : State} (hm : s.mode = .user) (h : exec i s = .next t) : UserDid s t := by
  have hd := exec_did h
  have hk : s.mode ≠ .kernel := by rw [hm]; decide
  cases i <;> simp only [Did] at hd
  case ldw => exact hd.elim (fun d => .registers d.registersOnly) (fun ⟨c, e⟩ => e ▸ .raise s c)
  case ldb => exact hd.elim (fun d => .registers d.registersOnly) (fun ⟨c, e⟩ => e ▸ .raise s c)
  case lcw => exact hd.elim (fun d => .registers d.registersOnly) (fun ⟨c, e⟩ => e ▸ .raise s c)
  case stw => exact hd.elim .stored (fun ⟨c, e⟩ => e ▸ .raise s c)
  case stb => exact hd.elim .stored (fun ⟨c, e⟩ => e ▸ .raise s c)
  case lsp => exact hd.elim (.readSpr hm) (fun ⟨c, e⟩ => e ▸ .raise s c)
  case lsi => exact hd.elim (.readSpr hm) (fun ⟨c, e⟩ => e ▸ .raise s c)
  case ssp => exact hd.elim (.wroteSpr hm) (fun ⟨c, e⟩ => e ▸ .raise s c)
  case ssi => exact hd.elim (.wroteSpr hm) (fun ⟨c, e⟩ => e ▸ .raise s c)
  case di => exact hd.elim (fun d => absurd d.1 hk) (fun ⟨_, c, e⟩ => e ▸ .raise s c)
  case ei => exact hd.elim (fun d => absurd d.1 hk) (fun ⟨_, c, e⟩ => e ▸ .raise s c)
  case hlt => exact hd.elim (fun d => absurd d.1 hk) (fun ⟨_, c, e⟩ => e ▸ .raise s c)
  case rti => exact hd.elim (fun d => absurd d.1 hk) (fun ⟨_, c, e⟩ => e ▸ .raise s c)
  case sys => obtain ⟨c, rfl⟩ := hd; exact .raise s c
  case illegalSysRb => obtain ⟨c, rfl⟩ := hd; exact .raise s c
  case die => obtain ⟨c, rfl⟩ := hd; exact .raise s c
  case illegalZero => obtain ⟨c, rfl⟩ := hd; exact .raise s c
  case brk => obtain ⟨_, rfl⟩ := hd; exact .inr (.inl ⟨_, _, _, rfl⟩)
  all_goals first
    | exact .registers hd
    | exact .registers hd.registersOnly
    | (obtain ⟨p, rfl⟩ := hd; exact .inr (.inl ⟨_, _, _, rfl⟩))

end Sys2Proof.Machine
end

