-- ==== Sys2Proof/Tests/Slice0.lean ====
section
/-! SUPPORT. The model's own tests. Expected results are the spec's (`95_test_vectors.md`, sections in the comments);
the words are written out from the encodings of `30_encoding.md`. -/

namespace Sys2Proof.Tests

open Sys2Proof.Machine

/-! ### Helpers -/

/-- What `f` reads of the next state, if there is one. -/
def observe {α : Type} (o : Out) (f : State → α) : Option α :=
  match o with
  | .next t => some (f t)
  | .fault _ | .refused _ => none

/-- The reason a step stops, if it does. -/
def stops (o : Out) : Option Fault :=
  match o with
  | .fault f => some f
  | .next _ | .refused _ => none

/-- Kernel mode right after reset. -/
def kernel : State := State.reset

/-- A user program in context 1 with both spaces on physical page 0. -/
def user : State := { State.reset with mode := .user, context := 1, ie := true }

/-- A state at pc `p`. -/
def atPc (s : State) (p : Word) : State := { s with pc := p }

/-- Physical memory with a word placed, low byte first. -/
def place (s : State) (a : PhysAddr) (v : Word) : State :=
  { s with mem := memWrite (memWrite s.mem a (lowByte v)) (a + 1#24) (highByte v) }

/-- The flags `C Z N V` as the spec's tables write them. -/
def flags (c z n v : Bool) : Flags := { c := c, z := z, n := n, v := v }

/-! ### Well-formedness -/

/-- The word LDW r0, r0, 0 would have is illegal (`95_test_vectors.md` S1). -/
theorem test_wellFormed_ldw_zero : (Instr.ldw 0 0 0).wellFormed = false := by decide
theorem test_wellFormed_ldw : (Instr.ldw 1 0 0).wellFormed = true := by decide
/-- SYS with field rB = 0 is no illegal word. -/
theorem test_wellFormed_illegalSysRb_zero : (Instr.illegalSysRb 5 0).wellFormed = false := by decide
theorem test_wellFormed_illegalSysRb : (Instr.illegalSysRb 5 1).wellFormed = true := by decide

/-! ### Decoding: one word for every constructor, bit by bit -/

theorem test_decode_ldw : decode 0b0000000100010001 = .ldw 1 2 4 := by decide
theorem test_decode_ldb : decode 0b0011111111000011 = .ldb 3 0 0x7F := by decide
theorem test_decode_stw : decode 0b0100000000010001 = .stw 1 2 0 := by decide
theorem test_decode_stb : decode 0b0110111111111000 = .stb 0 7 63 := by decide
theorem test_decode_adi : decode 0b1001111111001001 = .adi 1 1 0x7F := by decide
theorem test_decode_lui : decode 0b1010001001000001 = .lui 1 0x48 := by decide
theorem test_decode_br : decode 0b1101111111110000 = .br 0x3FE := by decide
theorem test_decode_brl : decode 0b1100000111010001 = .brl 0x3A := by decide
theorem test_decode_brz : decode 0b1100000000100010 = .brz 4 := by decide
theorem test_decode_brnz : decode 0b1101111111100011 = .brnz 0x3FC := by decide
theorem test_decode_brc : decode 0b1100000000100100 = .brc 4 := by decide
theorem test_decode_brnc : decode 0b1100000000100101 = .brnc 4 := by decide
theorem test_decode_brsge : decode 0b1100000000100110 = .brsge 4 := by decide
theorem test_decode_brslt : decode 0b1100000000100111 = .brslt 4 := by decide
theorem test_decode_jal : decode 0b1110000100101000 = .jal 0 5 4 := by decide
theorem test_decode_sbb : decode 0b1111000011010001 = .sbb 1 2 3 := by decide
theorem test_decode_adc : decode 0b1111001001001001 = .adc 1 1 1 := by decide
theorem test_decode_sub : decode 0b1111010011010001 = .sub 1 2 3 := by decide
theorem test_decode_add : decode 0b1111011011010001 = .add 1 2 3 := by decide
theorem test_decode_xor : decode 0b1111100011010001 = .xor 1 2 3 := by decide
theorem test_decode_or : decode 0b1111101011010001 = .or 1 2 3 := by decide
theorem test_decode_and : decode 0b1111110111111111 = .and 7 7 7 := by decide
theorem test_decode_lsp : decode 0b1111111000010001 = .lsp 1 2 := by decide
theorem test_decode_lsi : decode 0b1111111001010001 = .lsi 1 2 := by decide
theorem test_decode_ssp : decode 0b1111111010010001 = .ssp 1 2 := by decide
theorem test_decode_ssi : decode 0b1111111011010001 = .ssi 1 2 := by decide
theorem test_decode_lcw : decode 0b1111111100010001 = .lcw 1 2 := by decide
theorem test_decode_sys : decode 0b1111111101000010 = .sys 2 := by decide
theorem test_decode_illegalSysRb : decode 0b1111111101111010 = .illegalSysRb 2 7 := by decide
theorem test_decode_tst : decode 0b1111111110010001 = .tst 1 2 := by decide
theorem test_decode_not : decode 0b1111111111000001 = .not 1 := by decide
theorem test_decode_neg : decode 0b1111111111001001 = .neg 1 := by decide
theorem test_decode_dub : decode 0b1111111111010001 = .dub 1 := by decide
theorem test_decode_sxt : decode 0b1111111111011001 = .sxt 1 := by decide
theorem test_decode_sra : decode 0b1111111111100001 = .sra 1 := by decide
theorem test_decode_srl : decode 0b1111111111101001 = .srl 1 := by decide
theorem test_decode_ji : decode 0b1111111111110100 = .ji 4 := by decide
theorem test_decode_ccf : decode 0b1111111111111000 = .ccf := by decide
theorem test_decode_scf : decode 0b1111111111111001 = .scf := by decide
theorem test_decode_di : decode 0b1111111111111010 = .di := by decide
theorem test_decode_ei : decode 0b1111111111111011 = .ei := by decide
theorem test_decode_hlt : decode 0b1111111111111100 = .hlt := by decide
theorem test_decode_brk : decode 0b1111111111111101 = .brk := by decide
theorem test_decode_rti : decode 0b1111111111111110 = .rti := by decide
theorem test_decode_die : decode 0b1111111111111111 = .die := by decide
theorem test_decode_illegalZero : decode 0b0000000000000000 = .illegalZero := by decide

/-- Bytes are taken low byte first, two of them; one byte alone is rejected by name. -/
theorem test_decode_bytes : decodeBytes [0x41, 0xA2, 0xFF] = .ok (.lui 1 0x48, [0xFF]) := by decide
theorem test_decode_truncated : decodeBytes [0x41] = .error .truncated := by decide

/-! ### Loads and stores (2.2) -/

theorem test_ldw : observe (exec (.ldw 1 2 4) (place (kernel.setReg 2 0x0800) 0x804 0x1234)) (·.reg 1) = some 0x1234 := by
  decide
theorem test_ldw_wraps :
    observe (exec (.ldw 1 2 4) (place (kernel.setReg 2 0xFFFE) 0x2 0xBEEF)) (·.reg 1) = some 0xBEEF := by decide
theorem test_ldb_sign : observe (exec (.ldb 4 2 2) (place (kernel.setReg 2 0x0800) 0x802 0x0080)) (·.reg 4) = some 0xFF80 := by
  decide
theorem test_ldb_positive :
    observe (exec (.ldb 4 2 2) (place (kernel.setReg 2 0x0800) 0x802 0x807F)) (·.reg 4) = some 0x007F := by decide
theorem test_stw :
    observe (exec (.stw 1 2 0) ((kernel.setReg 1 0xBEEF).setReg 2 0x0900)) (·.mem) =
      some [(0x900, 0xEF), (0x901, 0xBE)] := by decide
theorem test_stw_misaligned : stops (exec (.stw 1 2 0) (kernel.setReg 2 0x0801)) = some .misaligned := by decide
theorem test_stb :
    observe (exec (.stb 1 2 1) ((kernel.setReg 1 0x1234).setReg 2 0x0900)) (·.mem) = some [(0x901, 0x34)] := by decide
/-- Storing what unlisted memory reads as leaves memory in its canonical form, without an entry. -/
theorem test_stb_zero :
    observe (exec (.stb 0 2 1) ((place kernel 0x900 0x3400).setReg 2 0x0900)) (·.mem) = some [] := by decide

/-! ### Immediates (2.3, 2.4) -/

theorem test_adi_overflow :
    observe (exec (.adi 1 1 1) (kernel.setReg 1 0x7FFF)) (fun t => (t.reg 1, t.flags)) =
      some (0x8000, flags false false true true) := by decide
theorem test_adi_link :
    observe (exec (.adi 0 0 12) (kernel.setLink 0x4444)) (fun t => (t.link, t.flags)) =
      some (0x000C, flags false false false false) := by decide
theorem test_lui : observe (exec (.lui 7 0x3FF) kernel) (·.reg 7) = some 0xFFC0 := by decide
theorem test_lui_link : observe (exec (.lui 0 0x49) kernel) (·.link) = some 0x1240 := by decide

/-! ### Branches, JAL, JI (2.5, 2.6, 2.11) -/

theorem test_br_back : observe (exec (.br 0x3FE) (atPc kernel 0x4E)) (·.pc) = some 0x4E := by decide
theorem test_br_far : observe (exec (.br 0x200) (atPc kernel 0x300)) (·.pc) = some 0x102 := by decide
theorem test_brl : observe (exec (.brl 4) (atPc kernel 0x10)) (fun t => (t.pc, t.link)) = some (0x16, 0x12) := by decide
theorem test_brz : observe (exec (.brz 4) (atPc (kernel.setFlags (flags false true false false)) 0x10)) (·.pc) = some 0x16 := by
  decide
theorem test_brz_not : observe (exec (.brz 4) (atPc kernel 0x10)) (·.pc) = some 0x12 := by decide
theorem test_brnz : observe (exec (.brnz 0x3FC) (atPc kernel 0x8)) (·.pc) = some 0x6 := by decide
theorem test_brnz_not :
    observe (exec (.brnz 4) (atPc (kernel.setFlags (flags true true false false)) 0x10)) (·.pc) = some 0x12 := by decide
theorem test_brc : observe (exec (.brc 4) (atPc (kernel.setFlags (flags true false false false)) 0x10)) (·.pc) = some 0x16 := by
  decide
theorem test_brc_not :
    observe (exec (.brc 4) (atPc (kernel.setFlags (flags false false true false)) 0x10)) (·.pc) = some 0x12 := by decide
theorem test_brnc :
    observe (exec (.brnc 4) (atPc (kernel.setFlags (flags false false true false)) 0x10)) (·.pc) = some 0x16 := by decide
theorem test_brnc_not :
    observe (exec (.brnc 4) (atPc (kernel.setFlags (flags true true false false)) 0x10)) (·.pc) = some 0x12 := by decide
theorem test_brsge :
    observe (exec (.brsge 4) (atPc (kernel.setFlags (flags false false true true)) 0x10)) (·.pc) = some 0x16 := by decide
theorem test_brsge_not :
    observe (exec (.brsge 4) (atPc (kernel.setFlags (flags true false false true)) 0x10)) (·.pc) = some 0x12 := by decide
theorem test_brslt :
    observe (exec (.brslt 4) (atPc (kernel.setFlags (flags true false false true)) 0x10)) (·.pc) = some 0x16 := by decide
theorem test_brslt_not :
    observe (exec (.brslt 4) (atPc (kernel.setFlags (flags false false true true)) 0x10)) (·.pc) = some 0x12 := by decide
theorem test_jal_same :
    observe (exec (.jal 4 4 0) (atPc (kernel.setReg 4 0x80) 0xA)) (fun t => (t.pc, t.reg 4)) = some (0x80, 0xC) := by decide
theorem test_jal_link :
    observe (exec (.jal 0 0 4) (atPc (kernel.setLink 0x127F) 0x22)) (fun t => (t.pc, t.link)) = some (0x1244, 0x24) := by
  decide
theorem test_ji : observe (exec (.ji 4) (kernel.setReg 4 0x0ABC)) (·.pc) = some 0x0ABC := by decide
theorem test_ji_link : observe (exec (.ji 0) (kernel.setLink 0x0102)) (fun t => (t.pc, t.link)) = some (0x0102, 0x0102) := by
  decide

/-! ### XOPs and TST (2.7, 2.8) -/

/-- `x[2] = a`, `x[3] = b`, the carry flag as given. -/
def ab (a b : Word) (c : Bool) : State := ((kernel.setReg 2 a).setReg 3 b).setFlags (flags c false false false)

/-- The result and the flags. -/
def result (o : Out) : Option (Word × Flags) := observe o fun t => (t.reg 1, t.flags)

theorem test_add : result (exec (.add 1 2 3) (ab 0x8000 0x8000 false)) = some (0, flags true true false true) := by decide
theorem test_add_r0 :
    observe (exec (.add 0 2 3) (ab 0x7FFF 1 false)) (fun t => (t.reg 0, t.link, t.flags)) =
      some (0, 0, flags false false true true) := by decide
theorem test_adc : result (exec (.adc 1 2 3) (ab 0xFFFF 0xFFFF true)) = some (0xFFFF, flags true false true false) := by decide
theorem test_adc_overflow : result (exec (.adc 1 2 3) (ab 0x4001 0x4001 true)) = some (0x8003, flags false false true true) := by
  decide
theorem test_sub : result (exec (.sub 1 2 3) (ab 5 7 true)) = some (0xFFFE, flags false false true false) := by decide
theorem test_sub_overflow : result (exec (.sub 1 2 3) (ab 0x8000 1 false)) = some (0x7FFF, flags true false false true) := by
  decide
theorem test_sbb : result (exec (.sbb 1 2 3) (ab 0 0xFFFF false)) = some (0, flags false true false false) := by decide
theorem test_sbb_no_borrow : result (exec (.sbb 1 2 3) (ab 5 3 true)) = some (2, flags true false false false) := by decide
theorem test_xor :
    observe (exec (.xor 1 2 3) (ab 0xFF00 0x0FF0 false)) (fun t => (t.reg 1, t.flags.z, t.flags.n)) =
      some (0xF0F0, false, true) := by decide
theorem test_or :
    observe (exec (.or 1 2 3) (ab 0xFF00 0x0FF0 false)) (fun t => (t.reg 1, t.flags.z, t.flags.n)) =
      some (0xFFF0, false, true) := by decide
theorem test_and :
    observe (exec (.and 1 2 3) (ab 0xFF00 0x00FF false)) (fun t => (t.reg 1, t.flags.z, t.flags.n)) =
      some (0, true, false) := by decide
theorem test_tst :
    observe (exec (.tst 2 3) (ab 0x8000 0x7FFF false)) (fun t => (t.reg 2, t.flags)) =
      some (0x8000, flags true false false true) := by decide
theorem test_tst_below : observe (exec (.tst 2 3) (ab 1 0xFFFF true)) (·.flags) = some (flags false false false false) := by
  decide

/-! ### ZOPs (2.11) -/

theorem test_not : observe (exec (.not 1) (kernel.setReg 1 0x00FF)) (·.reg 1) = some 0xFF00 := by decide
theorem test_neg : observe (exec (.neg 1) (kernel.setReg 1 5)) (·.reg 1) = some 0xFFFB := by decide
theorem test_neg_min : observe (exec (.neg 1) (kernel.setReg 1 0x8000)) (·.reg 1) = some 0x8000 := by decide
theorem test_dub : observe (exec (.dub 1) (kernel.setReg 1 0xAB12)) (·.reg 1) = some 0xABAB := by decide
theorem test_sxt :
    observe (exec (.sxt 1) (kernel.setReg 1 0x1280)) (fun t => (t.reg 1, t.flags.c, t.flags.z)) =
      some (0xFF80, false, false) := by decide
theorem test_sxt_zero :
    observe (exec (.sxt 1) (kernel.setReg 1 0xAB00)) (fun t => (t.reg 1, t.flags.c, t.flags.z)) = some (0, false, true) := by
  decide
theorem test_sra : observe (exec (.sra 1) (kernel.setReg 1 0x8001)) (fun t => (t.reg 1, t.flags.c)) = some (0xC000, true) := by
  decide
theorem test_srl : observe (exec (.srl 1) (kernel.setReg 1 0x8004)) (fun t => (t.reg 1, t.flags.c)) = some (0x4002, false) := by
  decide

/-! ### Special registers, LCW (2.9, 2.14) -/

/-- `x[1] = v` and `x[2] = k`. -/
def vk (s : State) (v k : Word) : State := (s.setReg 1 v).setReg 2 k

theorem test_lsp_link : observe (exec (.lsp 3 0) (kernel.setLink 0x0102)) (·.reg 3) = some 0x0102 := by decide
theorem test_lsp_user_register :
    observe (exec (.lsp 1 2) (({ vk kernel 0 19 with context := 1 } : State).setBankOf 1 (Bank.reset.set 3 0x0BAD)))
      (·.reg 1) = some 0x0BAD := by decide
theorem test_lsi :
    observe (exec (.lsi 1 2) { vk kernel 0x0800 8 with irr := 0x0246 }) (·.mem) = some [(0x800, 0x46), (0x801, 0x02)] := by
  decide
theorem test_lsi_rx_empty :
    observe (exec (.lsi 1 2) (vk (place kernel 0x800 0xFFFF) 0x0800 97)) (fun t => (t.mem, t.uart.rxunf)) =
      some ([], true) := by decide
theorem test_ssp_user_flags :
    observe (exec (.ssp 1 2) (vk user 0x010F 1)) (fun t => (t.flags, t.t, t.ie)) =
      some (flags true true true true, false, true) := by decide
theorem test_ssp_kernel_flags :
    observe (exec (.ssp 1 2) (vk kernel 0x0300 1)) (fun t => (t.flags, t.t, t.ie)) =
      some (flags false false false false, true, false) := by decide
theorem test_ssi : observe (exec (.ssi 1 2) (vk (place kernel 0x800 0x0246) 8 0x0800)) (·.irr) = some 0x0246 := by decide
theorem test_ssi_uart :
    observe (exec (.ssi 1 2) (vk (place kernel 0x800 0x0141) 96 0x0800)) (·.uart.txq) = some [0x41] := by decide
theorem test_lcw : observe (exec (.lcw 1 2) ((place kernel 0x20 0xA005).setReg 2 0x20)) (·.reg 1) = some 0xA005 := by decide
/-- Registers 24 to 31 are among those that want a CONTEXT other than 0. -/
theorem test_spr_contextZero :
    stops (exec (.lsp 1 2) (vk kernel 0 24)) = some .contextZero ∧ stops (exec (.ssp 1 2) (vk kernel 0 31)) = some .contextZero ∧
    observe (exec (.ssp 1 2) (vk { kernel with context := 1 } 0 24)) (·.pc) = some 2 := by decide
theorem test_lsp_range : stops (exec (.lsp 1 2) (vk kernel 0 128)) = some .sprRange := by decide

/-! ### System instructions (2.10, 2.12) -/

theorem test_sys_user :
    observe (exec (.sys 2) (atPc user 0x0130)) (fun t => (t.pc, t.irr, t.mode, t.ie)) =
      some (0x0028, 0x0132, .kernel, false) := by decide
theorem test_sys_nested :
    observe (exec (.sys 1) { atPc kernel 0x0400 with ie := true }) (fun t => (t.pc, t.irr, t.ie)) =
      some (0x0024, 0x0402, false) := by decide
theorem test_illegalSysRb : observe (exec (.illegalSysRb 0 1) (atPc user 0x0130)) (·.irr) = some 0x0130 := by decide
theorem test_die : observe (exec .die (atPc user 0x0200)) (fun t => (t.irr, t.mode, t.ie)) = some (0x0200, .kernel, false) := by
  decide
theorem test_illegalZero : observe (exec .illegalZero (atPc user 0x0200)) (·.irr) = some 0x0200 := by decide
theorem test_ccf : observe (exec .ccf (kernel.setFlags (flags true true false true))) (·.flags) =
    some (flags false true false true) := by decide
theorem test_scf : observe (exec .scf (kernel.setFlags (flags false false true false))) (·.flags) =
    some (flags true false true false) := by decide
theorem test_di : observe (exec .di { kernel with ie := true }) (·.ie) = some false := by decide
theorem test_di_user : observe (exec .di (atPc user 0x0200)) (fun t => (t.mode, t.irr)) = some (.kernel, 0x0200) := by decide
theorem test_ei : observe (exec .ei kernel) (fun t => (t.ie, t.pc)) = some (true, 2) := by decide
theorem test_hlt : observe (exec .hlt kernel) (fun t => (t.halted, t.mode)) = some (true, .kernel) := by decide
theorem test_hlt_user : observe (exec .hlt user) (fun t => (t.halted, t.mode)) = some (false, .kernel) := by decide
theorem test_brk : observe (exec .brk (atPc kernel 0x10)) (fun t => (t.pc, t.debugEvents)) = some (0x12, 1) := by decide
theorem test_brk_notGiven :
    stops (exec .brk { kernel with platform := { Platform.reset with brk := .notGiven } }) = some .brkEffect := by decide
theorem test_rti_user :
    exec .rti { kernel with irr := 0x0104, isr := isrEnc .user, context := 1 } =
      .next { kernel with irr := 0x0104, isr := isrEnc .user, context := 1, pc := 0x0104, mode := .user, ie := true } := by
  have h : ({ kernel with irr := 0x0104, isr := isrEnc .user, context := 1 } : State).returnFromTrap = .ok _ :=
    State.returnFromTrap_ok_iff.mpr ⟨.user, rfl, by decide, rfl⟩
  show State.finish _ _ = _
  rw [h]
  rfl

/-! ### Whole steps -/

/-- An instruction placed where the next fetch reads is the one that runs: ADI r1, r0, 5 is 0x8141. -/
theorem test_step_adi : observe (step (State.reset.withFetchWord 16 0x8141)) (·.reg 1) = some 5 := by decide
/-- A halted machine stays halted. -/
theorem test_step_halted : observe (step { kernel with halted := true }) (fun t => (t.halted, t.pc)) = some (true, 0) := by
  decide

/-! ### Witnesses: states that meet the hypotheses of the obligations

One theorem per obligation that has hypotheses, at boundary values where it has several clauses. -/

/-- Context `c` with slot 0 of both MMU halves holding `v`. -/
def mapped (s : State) (c : Nat) (v : Word) : State :=
  s.setBankOf c { Bank.reset with cmmu := Bank.reset.cmmu.set 0 v, dmmu := Bank.reset.dmmu.set 0 v }

/-- PP = 11 under both layouts. -/
theorem mmuEntry_invalid : (mmuEntry 0x3003).perm = .invalid := by
  have h : ∀ l, (mmuFields l 0x3003).perm = .invalid := fun l => by cases l <;> rfl
  exact h Config.mmuLayout

/-- PP = 01 under both layouts. -/
theorem mmuEntry_readOnly : (mmuEntry 0x1001).perm = .readOnly := by
  have h : ∀ l, (mmuFields l 0x1001).perm = .readOnly := fun l => by cases l <;> rfl
  exact h Config.mmuLayout

theorem permission_of {s : State} {space : Space} {va v : Word} {p : Permission} (h : s.mmuRegister space va = v)
    (hp : (mmuEntry v).perm = p) : s.permission space va = p := by
  unfold State.permission
  rw [h]
  exact hp

theorem one_lt_nctx : 1 < nctx := by unfold nctx; omega

/-- Where no region is listed everything is RAM. -/
theorem allRam {s : State} (h : s.platform.regions = []) (a : PhysAddr) : s.hasRam a ∧ s.canRead a ∧ s.canWrite a := by
  simp [State.hasRam, State.canRead, State.canWrite, h, physKind]

theorem wf_kernel : kernel.Inv where
  mem := by decide
  banks := rfl
  stored := by decide
  loaded := by decide
  store := by decide
  size := by decide
  txq := by decide
  rxq := by decide
  context := Nat.lt_of_succ_lt one_lt_nctx
  user := by decide
  halted := by decide

/-- DecodeEncode: a word of every format, the extreme fields. -/
theorem witness_DecodeEncode :
    (Instr.ldw 7 7 0x7F).wellFormed = true ∧ (Instr.lui 0 0).wellFormed = true ∧ (Instr.brslt 0x3FF).wellFormed = true ∧
    (Instr.jal 0 0 0).wellFormed = true ∧ (Instr.and 7 7 7).wellFormed = true ∧ (Instr.tst 7 7).wellFormed = true ∧
    (Instr.ji 7).wellFormed = true ∧ Instr.die.wellFormed = true ∧ (Instr.illegalSysRb 7 7).wellFormed = true := by decide

/-- StepRunsDecodedInstruction: ADI r1, r0, 5 placed at pc 0 after reset. -/
theorem witness_StepRunsDecodedInstruction :
    let s := State.reset.withFetchWord 16 0x8141
    s.halted = false ∧ s.tick.interruptDue = false ∧ (s.mode = .user → s.t = false) ∧ s.tick.FetchesInstr (.adi 1 0 5) :=
  ⟨rfl, rfl, by decide, ⟨rfl, rfl, (allRam rfl _).2.1, (allRam rfl _).2.1⟩, rfl, rfl⟩

/-- The same in user mode. -/
theorem witness_StepRunsDecodedInstruction_user :
    let s := user.withFetchWord 16 0x8141
    s.mode = .user ∧ s.t = false ∧ s.tick.interruptDue = false ∧ s.tick.FetchesInstr (.adi 1 0 5) :=
  ⟨rfl, rfl, rfl, ⟨rfl, rfl, (allRam rfl _).2.1, (allRam rfl _).2.1⟩, rfl, rfl⟩

/-- StepFetchPageFault: context 1 with its code slot 0 invalid. -/
theorem witness_StepFetchPageFault :
    let s := mapped user 1 0x3003
    s.halted = false ∧ s.tick.interruptDue = false ∧ oddAddress s.pc = false ∧ s.permission .code s.pc = .invalid ∧
      s.TrapsAllowed :=
  ⟨rfl, rfl, rfl, permission_of (by decide) mmuEntry_invalid, .inl rfl⟩

/-- The user machine with both UART enables as given and one received byte. -/
def uartUser (tx rx : Bool) : State := { user with uart := { Uart.reset with txie := tx, rxie := rx, rxq := [0x61] } }

/-- StepTakesInterrupt: the transmit FIFO empty, or a byte received. -/
theorem witness_StepTakesInterrupt :
    ((uartUser true false).halted = false ∧ (uartUser true false).ie = true ∧ (uartUser true false).uart.txie = true ∧
      (uartUser true false).tick.uart.txq = []) ∧
    ((uartUser false true).ie = true ∧ (uartUser false true).uart.rxie = true ∧
      (uartUser false true).tick.uart.rxq ≠ []) := by
  refine ⟨⟨rfl, rfl, rfl, ?_⟩, rfl, rfl, ?_⟩
  · show List.drop _ [] = []
    exact List.drop_nil
  · show [0x61] ++ _ ≠ []
    exact List.cons_ne_nil _ _

/-- OddAddressesStop: an odd pc, an odd effective address, odd operands of LCW, LSI and SSI. -/
theorem witness_OddAddressesStop :
    ((atPc kernel 0xFFFF).halted = false ∧ (atPc kernel 0xFFFF).tick.interruptDue = false ∧
      oddAddress (atPc kernel 0xFFFF).pc = true) ∧
    oddAddress ((kernel.setReg 2 0x0801).reg 2 + (0 : BitVec 7).signExtend 16) = true ∧
    oddAddress ((kernel.setReg 2 0x0801).reg 2) = true ∧
    ((vk kernel 0x0801 8).SprStated ((vk kernel 0x0801 8).reg 2) ∧ oddAddress ((vk kernel 0x0801 8).reg 1) = true) ∧
    ((vk kernel 8 0x0801).SprStated ((vk kernel 8 0x0801).reg 1) ∧ oddAddress ((vk kernel 8 0x0801).reg 2) = true) := by
  refine ⟨⟨rfl, rfl, by decide⟩, by decide, by decide, ⟨⟨by decide, by decide⟩, by decide⟩, ⟨by decide, by decide⟩, by decide⟩

/-- HaltedStays. -/
theorem witness_HaltedStays : ({ kernel with halted := true } : State).halted = true := rfl

theorem canStore_kernel : kernel.CanStoreWord (kernel.reg 0 + (4 : BitVec 7).signExtend 16) :=
  ⟨by decide, by decide, (allRam rfl _).2.2, (allRam rfl _).2.2⟩

/-- StoreThenFetch: the same physical word through both spaces. -/
theorem witness_StoreThenFetch :
    kernel.CanStoreWord (kernel.reg 0 + (4 : BitVec 7).signExtend 16) ∧ kernel.CanReadWord .code 4 .fetch ∧
      kernel.wordInRam (kernel.physical .code 4) ∧
      kernel.physical .code 4 = kernel.physical .data (kernel.reg 0 + (4 : BitVec 7).signExtend 16) :=
  ⟨canStore_kernel, ⟨by decide, by decide, (allRam rfl _).2.1, (allRam rfl _).2.1⟩, ⟨(allRam rfl _).1, (allRam rfl _).1⟩, by decide⟩

/-- TraceTrapStep: a user program with T = 1 at ADI r1, r0, 5, which stays in user mode. -/
theorem witness_TraceTrapStep :
    let s := ({ user with t := true } : State).withFetchWord 16 0x8141
    s.halted = false ∧ s.tick.interruptDue = false ∧ s.mode = .user ∧ s.t = true ∧
      s.tick.fetch s.pc = .ok 0x8141 ∧ observe (exec (decode 0x8141) s.tick) (·.mode) = some .user :=
  ⟨rfl, rfl, rfl, rfl, by decide, by decide⟩

/-- A kernel about to return to user mode: RTI is 0xFFFE. -/
def returning : State := ({ kernel with isr := isrEnc .user, context := 1, irr := 0x0104 } : State).withFetchWord 16 0xFFFE

/-- ModeChangesOnlyByEntryAndRti: an RTI step into user mode, a SYS step out of it. -/
theorem witness_ModeChangesOnlyByEntryAndRti :
    (∃ t, step returning = .next t ∧ returning.mode = .kernel ∧ t.mode = .user) ∧
    (∃ t, step (user.withFetchWord 16 0xFF42) = .next t ∧ (user.withFetchWord 16 0xFF42).mode = .user ∧
      t.mode = .kernel) := by
  constructor
  · have h : returning.tick.returnFromTrap = .ok { returning.tick with pc := 0x0104, mode := .user, ie := true } :=
      State.returnFromTrap_ok_iff.mpr ⟨.user, rfl, by decide, rfl⟩
    have hf : returning.tick.fetch returning.tick.pc = .ok 0xFFFE := by decide
    refine ⟨{ returning.tick with pc := 0x0104, mode := .user, ie := true }, ?_, rfl, rfl⟩
    have hs : step returning = returning.tick.runStep := rfl
    have hd : returning.tick.interruptDue = false := rfl
    rw [hs, State.runStep, hd, hf]
    show exec (decode 0xFFFE) returning.tick = _
    have hr : decode 0xFFFE = .rti := by decide
    rw [hr]
    show State.finish _ returning.tick.returnFromTrap = _
    rw [h]
    rfl
  · exact ⟨_, rfl, rfl, rfl⟩

/-- TrapEntry: user mode, and a kernel with interrupts enabled. -/
theorem witness_TrapEntry : user.TrapsAllowed ∧ ({ kernel with ie := true } : State).TrapsAllowed := ⟨.inl rfl, .inr rfl⟩

/-- A platform with a boot ROM at 0 and a memory-mapped device at 0x100. -/
def board : Platform := { Platform.reset with regions := [⟨0, 0x100, .rom⟩, ⟨0x100, 0x100, .device⟩] }

/-- Kernel mode on that platform. -/
def onBoard : State := { kernel with platform := board }

/-- DoubleFaultHaltsOrResets: the machine right after reset, with the last byte of a ROM, and with a loaded byte in RAM. -/
theorem witness_DoubleFaultHaltsOrResets :
    (Cause.traceTrap ≠ .uart ∧ onBoard.mode = .kernel ∧ onBoard.ie = false ∧
      physKind onBoard.platform.regions 0xFF = .rom) ∧
    (let s := State.reset.withFetchWord 16 0x8141;
     s.mode = .kernel ∧ s.ie = false ∧ physKind s.platform.regions 1 = .ram ∧ isMarked s.loaded 1 = true) := by decide

/-- A store over a loaded byte: the other byte of the word is still the loader's (`70_reset_and_hazards.md` R703). -/
theorem test_store_over_loaded :
    (let s := (State.reset.withFetchWord 16 0x8141).putByte 0 7;
     isMarked s.loaded 0 = false ∧ isMarked s.loaded 1 = true ∧ isMarked s.stored 0 = true) := by decide

/-- IcrTellsKinds. -/
theorem witness_IcrTellsKinds :
    user.TrapsAllowed ∧ (Cause.illegal .die).kind ≠ (Cause.pageFault .code 0 .fetch).kind := ⟨.inl rfl, by decide⟩

/-- RtiReturns: to either mode. -/
theorem witness_RtiReturns :
    (returning.mode = .kernel ∧ returning.isr = isrEnc .user ∧ (Mode.user = .user → returning.context ≠ 0#16)) ∧
    (({ kernel with isr := isrEnc .kernel } : State).isr = isrEnc .kernel ∧
      (Mode.kernel = .user → ({ kernel with isr := isrEnc .kernel } : State).context ≠ 0#16)) :=
  ⟨⟨rfl, rfl, by decide⟩, rfl, by decide⟩

/-- Two values cannot be three. -/
theorem third_isr : ∃ v : Word, v ≠ isrEnc .kernel ∧ v ≠ isrEnc .user := by
  have h : ∀ a b : Word, ∃ v : Word, v ≠ a ∧ v ≠ b := by
    intro a b
    by_cases h0 : (0 : Word) ≠ a ∧ (0 : Word) ≠ b
    · exact ⟨0, h0⟩
    · by_cases h1 : (1 : Word) ≠ a ∧ (1 : Word) ≠ b
      · exact ⟨1, h1⟩
      · refine ⟨2, ?_, ?_⟩
        · rintro rfl
          exact h0 ⟨by decide, fun e => h1 ⟨by decide, fun e' => by rw [← e] at e'; exact absurd e' (by decide)⟩⟩
        · rintro rfl
          exact h0 ⟨fun e => h1 ⟨fun e' => by rw [← e] at e'; exact absurd e' (by decide), by decide⟩, by decide⟩
  exact h _ _

/-- UnstatedSpecialAccessStops: each clause, at the ends of its range. -/
theorem witness_UnstatedSpecialAccessStops :
    (∃ v : Word, let s : State := { kernel with isr := v };
      s.mode = .kernel ∧ s.isr ≠ isrEnc .kernel ∧ s.isr ≠ isrEnc .user) ∧
    (let s : State := { kernel with isr := isrEnc .user };
      s.mode = .kernel ∧ s.isr = isrEnc .user ∧ s.context = 0#16) ∧
    (127 < ((vk kernel 0 128).reg 2).toNat ∧ 127 < ((vk kernel 0 0xFFFF).reg 2).toNat) ∧
    (kernel.mode = .kernel ∧ (vk kernel 0 16).reg 2 = 16#16) ∧
    (kernel.context = 0#16 ∧ (17 ≤ ((vk kernel 0 17).reg 2).toNat ∧ ((vk kernel 0 17).reg 2).toNat ≤ 63) ∧
      (17 ≤ ((vk kernel 0 24).reg 2).toNat ∧ ((vk kernel 0 63).reg 2).toNat ≤ 63)) ∧
    (vk kernel 0 16).CanReadWord .data ((vk kernel 0 16).reg 0) .load ∧
    (vk kernel 1 15).reg 2 = 15#16 ∧
    ((vk kernel 1 64).reg 2).toNat = 64 + (0 : BitVec 4).toNat ∧
      (vk kernel 1 64).reg 1 ≠ ((vk kernel 1 64).bankOf 0).cmmu[0] := by
  refine ⟨?_, ⟨rfl, rfl, rfl⟩, by decide, by decide, by decide, ?_, by decide, by decide, by decide⟩
  swap
  · exact ⟨by decide, by decide, (allRam rfl _).2.1, (allRam rfl _).2.1⟩
  obtain ⟨v, h⟩ := third_isr
  exact ⟨v, rfl, h⟩

/-- StepKeepsInv and CycleCounterOnlyAdvances: the first step after reset of a placed program. -/
theorem witness_StepKeepsInv :
    State.reset.Inv ∧ ∃ t, step State.reset = .next t := ⟨wf_kernel, _, rfl⟩

theorem witness_CycleCounterOnlyAdvances :
    State.reset.halted = false ∧ ∃ t, step (State.reset.withFetchWord 16 0x8141) = .next t := ⟨rfl, _, rfl⟩

theorem canRead_kernel (space : Space) (va : Word) (access : Access) (h : oddAddress va = false)
    (hr : kernel.mmuRegister space va = 0#16) : kernel.CanReadWord space va access := by
  refine ⟨h, ?_, (allRam rfl _).2.1, (allRam rfl _).2.1⟩
  rw [permission_of hr (p := .all) rfl]
  cases access <;> rfl

/-- LdwLoads, LdbLoads, StwStores, StbStores: the address wraps at the top of the space. -/
theorem witness_LdwLoads :
    kernel.CanReadWord .data (kernel.reg 0 + (0x7E : BitVec 7).signExtend 16) .load :=
  canRead_kernel _ _ _ (by decide) (by decide)

theorem witness_LdbLoads : kernel.CanLoadByte (kernel.reg 0 + (0x7F : BitVec 7).signExtend 16) :=
  ⟨by decide, (allRam rfl _).2.1⟩

theorem witness_StwStores : kernel.CanStoreWord (kernel.reg 0 + (4 : BitVec 7).signExtend 16) := canStore_kernel

theorem witness_StbStores : kernel.CanStoreByte (kernel.reg 0 + (0x7F : BitVec 7).signExtend 16) :=
  ⟨by decide, (allRam rfl _).2.2⟩

/-- LdwLoads, LdbLoads, StwStores, StbStores where a device answers: the last word of the device and its first byte. -/
theorem witness_device_access :
    onBoard.CanReadWord .data (0x1FE : Word) .load ∧ onBoard.CanLoadByte 0x100 ∧ onBoard.CanStoreWord 0x1FE ∧
      onBoard.CanStoreByte 0x100 ∧ ¬onBoard.hasRam (onBoard.physical .data 0x100) := by
  refine ⟨⟨by decide, by decide, ?_, ?_⟩, ⟨by decide, ?_⟩, ⟨by decide, by decide, ?_, ?_⟩, ⟨by decide, ?_⟩, ?_⟩ <;>
    simp only [State.canRead, State.canWrite, State.hasRam] <;> decide

/-- A store to a device completes and changes no memory. -/
theorem test_stb_device :
    observe (exec (.stb 1 2 0) (vk onBoard 0x55 0x100)) (fun t => (t.mem, t.pc)) = some ([], 2) := by decide
/-- A store to a ROM has no stated effect. -/
theorem test_stb_rom : stops (exec (.stb 1 2 0) (vk onBoard 0x55 0xFF)) = some .romStore := by decide

/-- MixedWidths: the address 4 and the byte above it. -/
theorem witness_MixedWidths :
    kernel.CanStoreWord (kernel.reg 0 + (4 : BitVec 7).signExtend 16) ∧
      kernel.wordInRam (kernel.physical .data (kernel.reg 0 + (4 : BitVec 7).signExtend 16)) ∧ (1 : RegField) ≠ 0#3 ∧
      observe (exec (.stw 1 0 4) kernel) (fun t => t.reg 0 + (4 : BitVec 7).signExtend 16) =
        some (kernel.reg 0 + (4 : BitVec 7).signExtend 16) ∧
      observe (exec (.stw 1 0 4) kernel) (fun t => t.reg 0 + (5 : BitVec 7).signExtend 16) =
        some (kernel.reg 0 + (4 : BitVec 7).signExtend 16 + 1#16) ∧
      kernel.reg 0 + (5 : BitVec 7).signExtend 16 = kernel.reg 0 + (4 : BitVec 7).signExtend 16 + 1#16 :=
  ⟨canStore_kernel, ⟨(allRam rfl _).1, (allRam rfl _).1⟩, by decide, by decide, by decide, by decide⟩

/-- PageFaultsTaken: an invalid and a read-only page of context 1. -/
theorem witness_PageFaultsTaken :
    (let s := mapped user 1 0x3003;
      s.TrapsAllowed ∧ s.permission .data (s.reg 0 + (4 : BitVec 7).signExtend 16) = .invalid ∧
        oddAddress (s.reg 0 + (4 : BitVec 7).signExtend 16) = false ∧ s.permission .code (s.reg 0) = .invalid ∧
        s.permission .data (s.reg 0) = .invalid ∧ oddAddress (s.reg 0) = false ∧ (s.reg 0).toNat ≤ 127 ∧
        (s.mode = .user → (s.reg 0).toNat ≤ 7)) ∧
    (mapped user 1 0x1001).permission .data ((mapped user 1 0x1001).reg 0 + (4 : BitVec 7).signExtend 16) = .readOnly :=
  ⟨⟨.inl rfl, permission_of (by decide) mmuEntry_invalid, by decide, permission_of (by decide) mmuEntry_invalid,
    permission_of (by decide) mmuEntry_invalid, by decide, by decide, by decide⟩,
    permission_of (by decide) mmuEntry_readOnly⟩

/-- LsiPageFault: through an invalid and through a read-only page. -/
theorem witness_LsiPageFault :
    (let s := mapped user 1 0x3003;
      s.TrapsAllowed ∧ s.SprStated (s.reg 0) ∧ oddAddress (s.reg 0) = false ∧ s.permission .data (s.reg 0) = .invalid) ∧
    (mapped user 1 0x1001).permission .data ((mapped user 1 0x1001).reg 0) = .readOnly :=
  ⟨⟨.inl rfl, ⟨by decide, by decide⟩, by decide, permission_of (by decide) mmuEntry_invalid⟩,
    permission_of (by decide) mmuEntry_readOnly⟩

/-- LuiAdiConstant. -/
theorem witness_LuiAdiConstant : (1 : RegField) ≠ 0#3 := by decide

/-- ConditionalBranches and CompareThenBranch: each condition, taken and not. -/
theorem witness_ConditionalBranches :
    true = (kernel.setFlags (flags false true false false)).flags.z ∧ false = kernel.flags.z ∧
    true = (kernel.setFlags (flags true false false false)).flags.c ∧
    true = decide (kernel.flags.n = kernel.flags.v) ∧
    true = decide ((kernel.setFlags (flags false false true false)).flags.n ≠
      (kernel.setFlags (flags false false true false)).flags.v) := by decide

theorem witness_CompareThenBranch :
    (Instr.tst 2 3 = .tst 2 3 ∨ Instr.tst 2 3 = .sub 1 2 3) ∧
    true = decide (((ab 0x7FFF 0x8000 false).reg 3).toInt ≤ ((ab 0x7FFF 0x8000 false).reg 2).toInt) ∧
    true = decide (((ab 0x7FFF 0x8000 false).reg 2).toNat < ((ab 0x7FFF 0x8000 false).reg 3).toNat) := by decide

/-- DoubleWordArithmetic. -/
theorem witness_DoubleWordArithmetic :
    (1 : RegField) ≠ 0#3 ∧ (2 : RegField) ≠ 0#3 ∧ (1 : RegField) ≠ 2 ∧ (1 : RegField) ≠ 4 ∧ (1 : RegField) ≠ 6 := by decide

/-- LogicalResults. -/
theorem witness_LogicalResults :
    Instr.or 1 2 3 = .or 1 2 3 ∧ (0xFFF0 : Word) = (ab 0xFF00 0x0FF0 false).reg 2 ||| (ab 0xFF00 0x0FF0 false).reg 3 := by
  decide

/-- LspReads: the ends of the ranges, in user mode and in kernel mode, a register of each family. -/
theorem witness_LspReads :
    user.SprStated 0 ∧ user.SprStated 7 ∧ kernel.SprStated 8 ∧ kernel.SprStated 15 ∧
    (∀ k : Word, k = 17 ∨ k = 23 ∨ k = 31 ∨ k = 32 ∨ k = 47 ∨ k = 48 ∨ k = 63 →
      ({ kernel with context := 1 } : State).SprStated k) ∧
    (∀ k : Word, k = 64 ∨ k = 79 ∨ k = 80 ∨ k = 95 ∨ k = 96 ∨ k = 97 ∨ k = 98 ∨ k = 99 ∨ k = 100 ∨ k = 101 ∨ k = 102 ∨
      k = 127 → kernel.SprStated k) := by
  refine ⟨⟨by decide, by decide⟩, ⟨by decide, by decide⟩, ⟨by decide, by decide⟩, ⟨by decide, by decide⟩, ?_, ?_⟩
  · rintro k (rfl | rfl | rfl | rfl | rfl | rfl | rfl) <;> exact ⟨by decide, by decide⟩
  · rintro k (rfl | rfl | rfl | rfl | rfl | rfl | rfl | rfl | rfl | rfl | rfl | rfl) <;> exact ⟨by decide, by decide⟩

/-- LsiStores. -/
theorem witness_LsiStores :
    (vk kernel 0x0800 97).SprStated ((vk kernel 0x0800 97).reg 2) ∧ (vk kernel 0x0800 97).CanStoreWord 0x0800 :=
  ⟨⟨by decide, by decide⟩, by decide, by decide, (allRam rfl _).2.2, (allRam rfl _).2.2⟩

/-- SspWrites: CONTEXT takes 1, the executing page's MMU register its own value, every other register any value. -/
theorem witness_SspWrites :
    (vk kernel 1 15).SprWriteStated 15 1 ∧ kernel.SprWriteStated 64 0 ∧ kernel.SprWriteStated 65 0x1234 ∧
    kernel.SprWriteStated 1 0xFFFF ∧ user.SprWriteStated 0 0xFFFF ∧ kernel.SprWriteStated 127 0xFFFF := by
  have no : ∀ (k : Word) (p : Word) (slot : BitVec 4) (q : Prop), slot = p.extractLsb' 12 4 → p = 0#16 →
      k.toNat ≠ 64 → k.toNat = 64 + slot.toNat → q := by
    intro k p slot q hs hp hk h
    subst hp
    subst hs
    exact absurd h hk
  refine ⟨⟨⟨by decide, by decide⟩, fun _ => one_lt_nctx, fun slot h h' => no 15 0 slot _ h rfl (by decide) h'⟩,
    ⟨⟨by decide, by decide⟩, by decide, ?_⟩,
    ⟨⟨by decide, by decide⟩, by decide, fun slot h h' => no 65 0 slot _ h rfl (by decide) h'⟩,
    ⟨⟨by decide, by decide⟩, by decide, fun slot h h' => no 1 0 slot _ h rfl (by decide) h'⟩,
    ⟨⟨by decide, by decide⟩, by decide, fun slot h h' => no 0 0 slot _ h rfl (by decide) h'⟩,
    ⟨⟨by decide, by decide⟩, by decide, fun slot h h' => no 127 0 slot _ h rfl (by decide) h'⟩⟩
  intro slot h _
  have : slot = 0 := h.trans (by decide)
  subst this
  decide

/-- SsiWrites: the word at 0x0800 to IRR. -/
theorem witness_SsiWrites :
    (vk kernel 8 0x0800).CanReadWord .data ((vk kernel 8 0x0800).reg 2) .load ∧
      (vk kernel 8 0x0800).SprWriteStated ((vk kernel 8 0x0800).reg 1)
        ((vk kernel 8 0x0800).wordAt .data ((vk kernel 8 0x0800).reg 2) .load) := by
  refine ⟨⟨by decide, by decide, (allRam rfl _).2.1, (allRam rfl _).2.1⟩, ⟨by decide, by decide⟩, by decide, ?_⟩
  intro slot _ h
  have h8 : ((vk kernel 8 0x0800).reg 1).toNat = 8 := by decide
  omega

/-- LcwLoads. -/
theorem witness_LcwLoads : (kernel.setReg 2 0x20).CanReadWord .code ((kernel.setReg 2 0x20).reg 2) .codeRead :=
  ⟨by decide, by decide, (allRam rfl _).2.1, (allRam rfl _).2.1⟩

/-- SysEnters and IllegalWords: entry from user mode, from an interruptible kernel, and the double fault. -/
theorem witness_SysEnters :
    user.TrapsAllowed ∧ ({ kernel with ie := true } : State).TrapsAllowed ∧ kernel.mode = .kernel ∧ kernel.ie = false :=
  ⟨.inl rfl, .inr rfl, rfl, rfl⟩

theorem witness_IllegalWords :
    (Instr.illegalSysRb 7 7 = .illegalZero ∨ Instr.illegalSysRb 7 7 = .die ∨
      ∃ rA rB, Instr.illegalSysRb 7 7 = .illegalSysRb rA rB) ∧ user.TrapsAllowed ∧ kernel.mode = .kernel ∧
      kernel.ie = false :=
  ⟨.inr (.inr ⟨7, 7, rfl⟩), .inl rfl, rfl, rfl⟩

/-- PrivilegedInUserModeIsIllegal: registers 8 and 127. -/
theorem witness_PrivilegedInUserModeIsIllegal :
    user.mode = .user ∧ (8 ≤ ((vk user 0 8).reg 2).toNat ∧ ((vk user 0 8).reg 2).toNat ≤ 127) ∧
      (8 ≤ ((vk user 0 127).reg 2).toNat ∧ ((vk user 0 127).reg 2).toNat ≤ 127) := by decide

/-- The expansions printed in the examples of `47_assembler_aliases.md` R525 to R534. -/
theorem test_alias_words :
    (Alias.ldi 1 5).expand.map encode = [0x8141] ∧ (Alias.ldi 1 0x1240).expand.map encode = [0xA249] ∧
    (Alias.ldi 1 0x1234).expand.map encode = [0xA241, 0x8D09] ∧
    (Alias.jal 0 0 0x1244).expand.map encode = [0xA248, 0xE100] ∧
    (Alias.jal 5 5 0x1244).expand.map encode = [0xA24D, 0xE12D] ∧
    (Alias.mv 2 3).expand.map encode = [0x801A] ∧ (Alias.srr 1 2 8).expand.map encode = [0x8202, 0xFE11] ∧
    (Alias.srr 1 2 97).expand.map encode = [0xA00A, 0x8852, 0xFE11] ∧
    (Alias.srw 1 2 64).expand.map encode = [0xA00A, 0xFE91] ∧
    (Alias.srw 1 2 96).expand.map encode = [0xA00A, 0x8812, 0xFE91] ∧
    (Alias.ret 0).expand.map encode = [0xFFF0] ∧ (Alias.ret 4).expand.map encode = [0xFFF4] ∧
    (Alias.sla 1).expand.map encode = [0xF249] ∧ (Alias.sll 1).expand.map encode = [0xF649] := by decide

/-- AliasesDoWhatTheyAreFor: a general register, and constants of one instruction of either kind. -/
theorem witness_AliasesDoWhatTheyAreFor :
    (1 : RegField) ≠ 0#3 ∧ (0x3F#16).toNat < 0x40 ∧ 0xFFC0#16 &&& 0xFFC0#16 = 0xFFC0#16 := by decide

/-- InterruptEnableSetAndCleared and HltHalts. -/
theorem witness_InterruptEnableSetAndCleared : kernel.mode = .kernel ∧ user.mode = .user := ⟨rfl, rfl⟩
theorem witness_HltHalts : kernel.mode = .kernel := rfl

/-- BrkContinues: both values of `BRK_EFFECT`. -/
theorem witness_BrkContinues :
    kernel.platform.brk = .emulator ∧
      ({ kernel with platform := { Platform.reset with brk := .notGiven } } : State).platform.brk = .notGiven :=
  ⟨rfl, rfl⟩

/-- UserModeConfined: a user program stores through its page (STW r1, r0, 4 is 0x4101), and one with T = 1 is
interrupted. -/
theorem witness_UserModeConfined :
    (let s := (user.setReg 1 0x1234).withFetchWord 16 0x4101;
      s.mode = .user ∧ s.t = false ∧ observe (step s) (fun t => memRead t.mem 4) = some 0x34) ∧
    (let s : State := { uartUser false true with t := true };
      s.mode = .user ∧ s.t = true ∧ ∃ t, step s = .next t) :=
  ⟨by decide, rfl, rfl, _, rfl⟩

/-- What context 1 of the user program can reach is physical page 0. -/
theorem reachable_user {a : PhysAddr} (h : user.Reachable a) : a.toNat < 0x1000 := by
  obtain ⟨space, va, _, rfl⟩ := h
  have hb : user.bank = Bank.reset := rfl
  have hr : user.mmuRegister space va = 0#16 := by
    cases space <;> simp [State.mmuRegister, hb, Bank.reset]
  have hp : user.physical space va = (mmuEntry 0#16).frame ++ va.extractLsb' 0 12 := by
    simp only [State.physical, hr]
  rw [hp, show (mmuEntry 0#16).frame = 0#12 from rfl]
  exact (BitVec.toNat_append 0#12 (va.extractLsb' 0 12)).trans_lt (by simp; omega)

/-- The user program's state with every part changed that it cannot see, a byte of a page its context does not map among
them. -/
def elsewhere : State :=
  { user with irr := 0x5555, uart := { Uart.reset with rxq := [0x61] }, mem := memWrite user.mem 0x1000 0x77 }

/-- UserInstructionsSeeOnlyTheirContext. -/
theorem witness_UserInstructionsSeeOnlyTheirContext : user.mode = .user ∧ UserView user elsewhere := by
  refine ⟨rfl, rfl, rfl, rfl, rfl, rfl, fun a h => ?_, rfl, rfl, rfl⟩
  have ha : a ≠ 0x1000 := fun e => absurd (e ▸ reachable_user h) (by decide)
  exact memRead_memWrite_ne user.mem 0x1000 a 0x77 ha

/-- StatusWrittenOnlyByItsInstructions: ADI changes flags, EI the enable, SSP of FLAGS the trap bit, and none of the three
is a reset. -/
theorem witness_StatusWrittenOnlyByItsInstructions :
    (∃ t, exec (.adi 1 0 0) kernel = .next t ∧ ¬(Config.doubleFaultResets = true ∧ IsReset t) ∧
      ∃ c, (t.bankOf c).flags ≠ (kernel.bankOf c).flags) ∧
    (∃ t, exec .ei kernel = .next t ∧ ¬(Config.doubleFaultResets = true ∧ IsReset t) ∧ t.ie ≠ kernel.ie) ∧
    (∃ t, exec (.ssp 1 2) (vk kernel 0x0100 1) = .next t ∧ ¬(Config.doubleFaultResets = true ∧ IsReset t) ∧
      t.t ≠ (vk kernel 0x0100 1).t) :=
  ⟨⟨_, rfl, fun h => absurd h.2.pc (by decide), 0, by decide⟩,
    ⟨_, rfl, fun h => absurd h.2.pc (by decide), by decide⟩,
    ⟨_, rfl, fun h => absurd h.2.pc (by decide), by decide⟩⟩

/-- A selected card, no reply waiting. -/
def cardAt (phase : SdPhase) : Spi :=
  { sel := 0xFFFE
    card := { present := true, sectors := 1, phase := phase, received := [], reply := [], store := [] } }

/-- SdCardErrorStateIsForGood: a card in its error state, one selected after nine idle bytes, one without a response
that is not selected, an initialised one, and the address of its only sector. -/
theorem witness_SdCardErrorStateIsForGood :
    (observe (exec .ei { kernel with spi := cardAt .failed }) (·.spi.card.phase) = some .failed) ∧
    ((cardAt .failed).card.present = true ∧ (cardAt .failed).card.phase = .failed) ∧
    ((cardAt .ready).select 1).card.reply = [] ∧
    ((cardAt (.idle 9)).sel.getLsbD 0 = false ∧ (cardAt (.idle 9)).card.phase = .idle 9 ∧ 9 < 10) ∧
    ((cardAt .ready).card.present = true ∧ (cardAt .ready).sel.getLsbD 0 = false ∧ (cardAt .ready).card.phase = .ready) ∧
    ((0 : BitVec 32).toNat % 512 = 0 ∧ (0 : BitVec 32).toNat + 512 ≤ 512 * (cardAt .ready).card.sectors) := by decide

/-- With no response byte a read times out, the card deselected or in its error state. -/
theorem test_sd_timeOut :
    ((cardAt .ready).select 1).fetchByte.1 = some 0xFF ∧ ((cardAt .failed).select 1).fetchByte.1 = some 0xFF := by decide
/-- Arguments and responses come most significant byte first; CMD17's argument is a byte address (R663, R668). -/
theorem test_sd_bytes :
    (⟨.cmd17, 1, 0⟩ : SdFrame).command [0x51, 0x00, 0x00, 0x02, 0x00] = some (.cmd17 0x200) ∧
    (SdItem.half 0x1234).bytes = [0x12, 0x34] ∧ (SdItem.word 0x00FF8000).bytes = [0x00, 0xFF, 0x80, 0x00] := by decide

end Sys2Proof.Tests
end

/-! Proofs about the always-illegal words (`30_encoding.md` R321): which words decode to them, and what executing one
does. -/

namespace Sys2Proof

/-! ### Which instructions are always illegal -/

/-- The instructions the always-illegal words stand for (`30_encoding.md` R321 (a) to (c)); SYS with rB = 0 is not
one. -/
def Instr.alwaysIllegal (i : Instr) : Bool :=
  match i with
  | .illegalZero | .die => true
  | .illegalSysRb _ rB => rB != 0
  | _ => false

theorem Instr.alwaysIllegal_iff (i : Instr) :
    i.alwaysIllegal = true ↔ i = .illegalZero ∨ i = .die ∨ ∃ rA rB, rB ≠ 0#3 ∧ i = .illegalSysRb rA rB := by
  constructor
  · intro h
    cases i
    case illegalZero => exact .inl rfl
    case die => exact .inr (.inl rfl)
    case illegalSysRb rA rB => exact .inr (.inr ⟨rA, rB, bne_iff_ne.mp h, rfl⟩)
    all_goals cases h
  · rintro (rfl | rfl | ⟨rA, rB, hrB, rfl⟩)
    · rfl
    · rfl
    · exact bne_iff_ne.mpr hrB

/-! ### What each table of the decoder answers: the escape to the next format, or an instruction -/

/-- A table's answer at field value `f`: the escape at 7, else an instruction, always illegal exactly if `illegal`. -/
def OpensOrAnswers (f : BitVec 3) (answer : Option Instr) (illegal : Prop) : Prop :=
  f.toNat = 7 ∧ answer = none ∨ f.toNat ≠ 7 ∧ ∃ i, answer = some i ∧ (i.alwaysIllegal = true ↔ illegal)

/-- The last entry of a table: a field is 7 when it is none of 0 to 6. -/
theorem field_eq_seven {f : BitVec 3} (h0 : f.toNat ≠ 0) (h1 : f.toNat ≠ 1) (h2 : f.toNat ≠ 2) (h3 : f.toNat ≠ 3)
    (h4 : f.toNat ≠ 4) (h5 : f.toNat ≠ 5) (h6 : f.toNat ≠ 6) : f.toNat = 7 := by
  have := f.isLt
  omega

theorem decodeXop_opensOrAnswers (x : BitVec 3) (rA rB rC : RegField) :
    OpensOrAnswers x (decodeXop x rA rB rC) False := by
  unfold decodeXop
  split
  case h_8 h0 h1 h2 h3 h4 h5 h6 => exact .inl ⟨field_eq_seven h0 h1 h2 h3 h4 h5 h6, rfl⟩
  all_goals exact .inr ⟨by omega, _, rfl, iff_of_false nofun id⟩

/-- Of the YOPs only SYS has illegal words, those with a nonzero rB field (`30_encoding.md` R310 step 5). -/
theorem decodeYop_opensOrAnswers (y : BitVec 3) (rA rB : RegField) :
    OpensOrAnswers y (decodeYop y rA rB) (y.toNat = 5 ∧ rB.toNat ≠ 0) := by
  unfold decodeYop
  split
  case h_6 hy =>
    refine .inr ⟨by omega, ?_⟩
    split
    case isTrue hrB => exact ⟨_, rfl, iff_of_false nofun fun h => h.2 (congrArg BitVec.toNat hrB)⟩
    case isFalse hrB => exact ⟨_, rfl, iff_of_true (bne_iff_ne.mpr hrB) ⟨hy, fun h => hrB (BitVec.eq_of_toNat_eq h)⟩⟩
  case h_8 h0 h1 h2 h3 h4 h5 h6 => exact .inl ⟨field_eq_seven h0 h1 h2 h3 h4 h5 h6, rfl⟩
  all_goals exact .inr ⟨by omega, _, rfl, iff_of_false nofun (by omega)⟩

theorem decodeZop_opensOrAnswers (z : BitVec 3) (rA : RegField) :
    OpensOrAnswers z (decodeZop z rA) False := by
  unfold decodeZop
  split
  case h_8 h0 h1 h2 h3 h4 h5 h6 => exact .inl ⟨field_eq_seven h0 h1 h2 h3 h4 h5 h6, rfl⟩
  all_goals exact .inr ⟨by omega, _, rfl, iff_of_false nofun id⟩

/-- Of the VOPs only DIE is always illegal (`46_vop.md` R508). -/
theorem decodeVop_alwaysIllegal_iff (v : BitVec 3) : (decodeVop v).alwaysIllegal = true ↔ v.toNat = 7 := by
  unfold decodeVop
  split
  case h_8 h0 h1 h2 h3 h4 h5 h6 => exact iff_of_true rfl (field_eq_seven h0 h1 h2 h3 h4 h5 h6)
  all_goals exact iff_of_false nofun (by omega)

theorem decodeBranch_not_alwaysIllegal (cond : BitVec 3) (imm10 : BitVec 10) :
    (decodeBranch cond imm10).alwaysIllegal = false := by
  unfold decodeBranch
  split <;> rfl

/-! ### The words -/

/-- The extended words that are always illegal, by their fields: SYS with rB ≠ 0, and DIE. -/
theorem decodeExtended_alwaysIllegal_iff (w : Word) :
    (decodeExtended w).alwaysIllegal = true ↔
      (w.extractLsb' 9 3).toNat = 7 ∧
        ((w.extractLsb' 6 3).toNat = 5 ∧ (w.extractLsb' 3 3).toNat ≠ 0 ∨
          (w.extractLsb' 6 3).toNat = 7 ∧ (w.extractLsb' 3 3).toNat = 7 ∧ (w.extractLsb' 0 3).toNat = 7) := by
  simp only [decodeExtended]
  generalize w.extractLsb' 9 3 = x, w.extractLsb' 6 3 = rC, w.extractLsb' 3 3 = rB, w.extractLsb' 0 3 = rA
  rcases decodeXop_opensOrAnswers x rA rB rC with ⟨hx, eX⟩ | ⟨hx, i, eX, hi⟩
  · rcases decodeYop_opensOrAnswers rC rA rB with ⟨hy, eY⟩ | ⟨hy, i, eY, hi⟩
    · rcases decodeZop_opensOrAnswers rB rA with ⟨hz, eZ⟩ | ⟨hz, i, eZ, hi⟩
      · rw [eX, eY, eZ]
        exact (decodeVop_alwaysIllegal_iff rA).trans (by omega)
      · rw [eX, eY, eZ]
        exact hi.trans (iff_of_false id (by omega))
    · rw [eX, eY]
      exact hi.trans (by omega)
  · rw [eX]
    exact hi.trans (iff_of_false id (by omega))

/-- Beside the word 0, always-illegal words are extended ones (`30_encoding.md` R310 step 4). -/
theorem decode_alwaysIllegal_iff_extended (w : Word) :
    (decode w).alwaysIllegal = true ↔
      w = 0#16 ∨ (w.extractLsb' 13 3).toNat = 7 ∧ (w.extractLsb' 12 1).toNat ≠ 0 ∧
        (decodeExtended w).alwaysIllegal = true := by
  unfold decode
  by_cases h0 : w = 0#16
  · simp [h0, Instr.alwaysIllegal]
  · simp only [BitVec.ofNat_eq_ofNat, h0, if_false, false_or]
    split
    case h_7 => simp [decodeBranch_not_alwaysIllegal, *]
    case h_8 h0 h1 h2 h3 h4 h5 h6 =>
      have hop7 : (w.extractLsb' 13 3).toNat = 7 := field_eq_seven h0 h1 h2 h3 h4 h5 h6
      split <;> simp_all [Instr.alwaysIllegal, BitVec.toNat_eq]
    all_goals simp [Instr.alwaysIllegal, *]

/-- The words of `30_encoding.md` R321, as numbers. -/
theorem decode_alwaysIllegal_iff (w : Word) :
    (decode w).alwaysIllegal = true ↔
      w = 0x0000#16 ∨ w = 0xFFFF#16 ∨ (0xFF48 ≤ w.toNat ∧ w.toNat ≤ 0xFF7F) := by
  have hw := w.isLt
  rw [decode_alwaysIllegal_iff_extended, decodeExtended_alwaysIllegal_iff]
  simp only [BitVec.extractLsb'_toNat, Nat.shiftRight_eq_div_pow, BitVec.toNat_eq, BitVec.toNat_ofNat]
  omega

end Sys2Proof

namespace Sys2Proof.Machine

/-! ### Executing one -/

theorem State.raise_of_not_allowed {s : State} {c : Cause} (htfe : c.isTfe = true) (hmode : s.mode = .kernel)
    (hie : s.ie = false) : s.raise c = s.doubleFault := by
  simp [State.raise, State.isDoubleFault, htfe, hmode, hie]

/-- Both values of `DOUBLE_FAULT_RESETS` (`60_exceptions.md` R629). -/
theorem State.doubleFault_isReset_or_haltedFrom (s : State) :
    if Config.doubleFaultResets then IsReset s.doubleFault else HaltedFrom s s.doubleFault := by
  unfold State.doubleFault
  split
  · exact s.resetAgain_isReset
  · exact s.haltDouble_haltedFrom

/-- Neither the mode nor any other part of the state is looked at before the exception is raised. -/
theorem exec_illegal_raises {i : Instr} (hi : i = .illegalZero ∨ i = .die ∨ ∃ rA rB, i = .illegalSysRb rA rB) :
    ∃ reason, ∀ s, exec i s = .next (s.raise (.illegal reason)) := by
  rcases hi with rfl | rfl | ⟨rA, rB, rfl⟩
  · exact ⟨.zeroWord, fun _ => rfl⟩
  · exact ⟨.die, fun _ => rfl⟩
  · exact ⟨.sysField, fun _ => rfl⟩

/-- Settles O52: the words by the fields the decoder reads, table by table, and the exception by the two paths of
raising one. -/
theorem illegalWords : Obligations.IllegalWords := by
  unfold Obligations.IllegalWords
  refine ⟨fun w => ?_, fun s i hi => ?_⟩
  · exact (decode_alwaysIllegal_iff w).symm.trans (decode w).alwaysIllegal_iff
  · obtain ⟨reason, hexec⟩ := exec_illegal_raises hi
    refine ⟨fun hallowed => ?_, fun hmode hie => ?_⟩
    · refine ⟨s.raise (.illegal reason), reason, hexec s, ?_⟩
      rw [s.raise_of_allowed _ hallowed]
      exact s.enterKernel_entered (.illegal reason)
    · refine ⟨s.raise (.illegal reason), hexec s, ?_⟩
      rw [State.raise_of_not_allowed rfl hmode hie]
      exact s.doubleFault_isReset_or_haltedFrom

end Sys2Proof.Machine

/-! Proofs about LUI (`41_base_alu_imm.md` R411): its words, its value, and what executing it writes. -/

namespace Sys2Proof

/-- Only the opcode field decides: with it nonzero the word is not the illegal word 0 (`30_encoding.md` R310 step 1). -/
theorem wordB_ne_zero {op3 : BitVec 3} (hop : op3 ≠ 0) (imm10 : BitVec 10) (low : BitVec 3) :
    wordB op3 imm10 low ≠ 0 := by
  obtain ⟨-, -, hfield⟩ := wordB_fields op3 imm10 low
  intro hzero
  rw [hzero] at hfield
  exact hop (hfield.symm.trans (by decide))

theorem decode_wordB_lui (rA : RegField) (imm10 : BitVec 10) : decode (wordB 5 imm10 rA) = .lui rA imm10 := by
  obtain ⟨hrA, himm, hop⟩ := wordB_fields 5 imm10 rA
  have hne : wordB 5 imm10 rA ≠ 0 := wordB_ne_zero (by decide) imm10 rA
  simp only [decode, if_neg hne, hrA, himm, hop]
  rfl

end Sys2Proof

namespace Sys2Proof.Machine

theorem luiValue_toNat (imm10 : BitVec 10) : (luiValue imm10).toNat = imm10.toNat * 64 :=
  calc (luiValue imm10).toNat
    _ = imm10.toNat <<< 6 ||| (0#6).toNat := BitVec.toNat_append imm10 0#6
    _ = imm10.toNat * 64 := by simp [Nat.shiftLeft_eq]

theorem exec_lui (rA : RegField) (imm10 : BitVec 10) (s : State) :
    exec (.lui rA imm10) s = .next (s.setRegL rA (luiValue imm10)).advance := rfl

/-- Settles O29: the word is format U's with opcode 5, and the state is one write of a register or of LINK with the
pc past the instruction. -/
theorem luiLoads : Obligations.LuiLoads := by
  unfold Obligations.LuiLoads
  intro s rA imm10
  refine ⟨decode_wordB_lui rA imm10, _, luiValue imm10, exec_lui rA imm10 s, ?_, luiValue_toNat imm10, ?_⟩
  · rw [State.pc_advance, State.pc_setRegL]
    rfl
  · exact s.setRegL_regLinkWritten rA (luiValue imm10) _

end Sys2Proof.Machine

/-! Proofs about SXT (`45_zop.md` R484): the words of the ZOPs, what every arithmetic ZOP writes, and SXT's own result
and flags. -/

namespace Sys2Proof

/-- Only the opcode field decides, which is 7 in every word of format X (`30_encoding.md` R310 step 1). -/
theorem wordX_ne_zero (x : BitVec 3) (rC rB rA : RegField) : wordX x rC rB rA ≠ 0 := by
  obtain ⟨-, -, -, -, -, hop⟩ := wordX_fields x rC rB rA
  intro hzero
  rw [hzero] at hop
  exact absurd hop (by decide)

theorem decode_wordX (x : BitVec 3) (rC rB rA : RegField) :
    decode (wordX x rC rB rA) = decodeExtended (wordX x rC rB rA) := by
  obtain ⟨-, -, -, -, hext, hop⟩ := wordX_fields x rC rB rA
  simp only [decode, if_neg (wordX_ne_zero x rC rB rA), hop, hext]
  rfl

/-- With `x = 7` and `rC = 7` no XOP and no YOP answers, and the word is decided by the ZOP table or, past it, by the
VOP table (`30_encoding.md` R310 steps 6 and 7). -/
theorem decode_wordX_zop (z : BitVec 3) (rA : RegField) :
    decode (wordX 7 7 z rA) = (decodeZop z rA).getD (decodeVop rA) := by
  obtain ⟨hrA, hz, hy, hx, -, -⟩ := wordX_fields 7 7 z rA
  rw [decode_wordX]
  simp only [decodeExtended, hrA, hz, hy, hx]
  rfl

theorem decode_wordX_sxt (rA : RegField) : decode (wordX 7 7 3 rA) = .sxt rA := decode_wordX_zop 3 rA

end Sys2Proof

namespace Sys2Proof.Machine

@[simp] theorem State.pc_zop (s : State) (op : ZopOp) (rA : RegField) : (s.zop op rA).pc = s.pc + 2 := rfl

theorem State.zop_regWritten (s : State) (op : ZopOp) (rA : RegField) :
    RegWritten s rA (zopResult op (s.reg rA)) (zopFlags op (s.reg rA) s.flags) (s.zop op rA) :=
  s.setReg_setFlags_regWritten rA _ _ _

theorem exec_sxt (rA : RegField) (s : State) : exec (.sxt rA) s = .next (s.zop .sxt rA) := rfl

/-- Widening a byte with its sign keeps the number it stands for. -/
theorem zopResult_sxt_toInt (a : Word) : (zopResult .sxt a).toInt = (a.extractLsb' 0 8).toInt :=
  BitVec.toInt_signExtend_of_le (by decide)

theorem zopFlags_sxt_c (a : Word) (old : Flags) : (zopFlags .sxt a old).c = false := rfl

theorem zopFlags_sxt_z (a : Word) (old : Flags) :
    (zopFlags .sxt a old).z = decide (zopResult .sxt a = 0#16) := rfl

/-- Settles O43: the words are the row `z = 3` of the ZOP table, and the state is the one every arithmetic ZOP leaves,
with SXT's result and its two stated flags; N and V are whatever `ZOP_FLAGS` gives. -/
theorem sxtExtends : Obligations.SxtExtends := by
  unfold Obligations.SxtExtends
  intro s rA
  refine ⟨decode_wordX_sxt rA, s.zop .sxt rA, zopFlags .sxt (s.reg rA) s.flags, zopResult .sxt (s.reg rA),
    exec_sxt rA s, s.pc_zop .sxt rA, ?_, ?_, ?_, ?_⟩
  · exact zopResult_sxt_toInt (s.reg rA)
  · exact zopFlags_sxt_c (s.reg rA) s.flags
  · exact zopFlags_sxt_z (s.reg rA) s.flags
  · exact s.zop_regWritten .sxt rA

end Sys2Proof.Machine

/-! Proofs about DI and EI (`46_vop.md` R503, R504): the words of the VOPs, what a privileged instruction does in each
mode, and the write of the interrupt enable. -/

namespace Sys2Proof

/-- Past the ZOP table's escape `z = 7` the last field is the whole operation (`30_encoding.md` R309). -/
theorem decode_wordX_vop (v : BitVec 3) : decode (wordX 7 7 7 v) = decodeVop v := decode_wordX_zop 7 v

theorem decode_di_word : decode 0xFFFA = .di := decode_wordX_vop 2

theorem decode_ei_word : decode 0xFFFB = .ei := decode_wordX_vop 3

end Sys2Proof

namespace Sys2Proof.Machine

/-! ### Privileged instructions -/

theorem State.privileged_of_kernel {s : State} (h : s.mode = .kernel) (x : Action State) :
    s.privileged x = s.finish x := by
  simp only [State.privileged, h]

theorem State.privileged_of_user {s : State} (h : s.mode = .user) (x : Action State) :
    s.privileged x = .next (s.raise (.illegal .privileged)) := by
  simp only [State.privileged, h]

/-- Traps are always allowed in user mode, so the exception is trap entry and never a double fault. -/
theorem State.raise_entered_of_user {s : State} (h : s.mode = .user) (c : Cause) :
    Entered s c (s.returnPc c) (s.raise c) := by
  rw [s.raise_of_allowed c (.inl h)]
  exact s.enterKernel_entered c

/-- The whole effect of a privileged instruction in user mode (`46_vop.md` R500). -/
theorem State.privileged_entered_of_user {s : State} (h : s.mode = .user) (x : Action State) :
    ∃ t, s.privileged x = .next t ∧ Entered s (.illegal .privileged) s.pc t :=
  ⟨_, State.privileged_of_user h x, State.raise_entered_of_user h (.illegal .privileged)⟩

/-! ### The write of the interrupt enable -/

/-- What DI and EI leave: the next instruction's pc and the interrupt enable `b`. -/
def State.advanceWithIe (s : State) (b : Bool) : State := { s.advance with ie := b }

@[simp] theorem State.pc_advanceWithIe (s : State) (b : Bool) : (s.advanceWithIe b).pc = s.pc + 2 := rfl

@[simp] theorem State.ie_advanceWithIe (s : State) (b : Bool) : (s.advanceWithIe b).ie = b := rfl

theorem State.advanceWithIe_sameRegisters (s : State) (b : Bool) : SameRegisters s (s.advanceWithIe b) :=
  State.pc_sameRegisters { s with ie := b } (s.pc + 2)

theorem State.advanceWithIe_registerFrame (s : State) (b : Bool) :
    RegisterFrame { s with ie := b } (s.advanceWithIe b) :=
  State.pc_registerFrame { s with ie := b } (s.pc + 2)

theorem exec_di (s : State) : exec .di s = s.privileged (.ok (s.advanceWithIe false)) := rfl

theorem exec_ei (s : State) : exec .ei s = s.privileged (.ok (s.advanceWithIe true)) := rfl

/-- In kernel mode nothing but the pc and the interrupt enable changes, whichever value is written. -/
theorem State.privileged_advanceWithIe_of_kernel {s : State} (h : s.mode = .kernel) (b : Bool) :
    ∃ t, s.privileged (.ok (s.advanceWithIe b)) = .next t ∧ t.pc = s.pc + 2#16 ∧ t.ie = b ∧ SameRegisters s t ∧
      RegisterFrame { s with ie := b } t :=
  ⟨s.advanceWithIe b, State.privileged_of_kernel h _, s.pc_advanceWithIe b, s.ie_advanceWithIe b,
    s.advanceWithIe_sameRegisters b, s.advanceWithIe_registerFrame b⟩

/-- Settles O54: both instructions are one privileged write of the interrupt enable, carried out in kernel mode and
refused by trap entry in user mode. -/
theorem interruptEnableSetAndCleared : Obligations.InterruptEnableSetAndCleared := by
  unfold Obligations.InterruptEnableSetAndCleared
  refine ⟨decode_di_word, decode_ei_word, fun s hkernel => ⟨?_, ?_⟩, fun s i huser hi => ?_⟩
  · rw [exec_di]
    exact State.privileged_advanceWithIe_of_kernel hkernel false
  · rw [exec_ei]
    exact State.privileged_advanceWithIe_of_kernel hkernel true
  · rcases hi with rfl | rfl
    · rw [exec_di]
      exact State.privileged_entered_of_user huser _
    · rw [exec_ei]
      exact State.privileged_entered_of_user huser _

end Sys2Proof.Machine

/-! Proofs about the return from an exception (`60_exceptions.md` R630): the state RTI leaves in kernel mode, field by
field, and when it gets there. -/

namespace Sys2Proof.Machine

/-- What RTI leaves when ISR encodes `m`: that mode, IRR's address and interrupts enabled. -/
def State.returnedTo (s : State) (m : Mode) : State := { s with pc := s.irr, mode := m, ie := true }

@[simp] theorem State.pc_returnedTo (s : State) (m : Mode) : (s.returnedTo m).pc = s.irr := rfl

@[simp] theorem State.mode_returnedTo (s : State) (m : Mode) : (s.returnedTo m).mode = m := rfl

@[simp] theorem State.ie_returnedTo (s : State) (m : Mode) : (s.returnedTo m).ie = true := rfl

@[simp] theorem State.bankOf_returnedTo (s : State) (m : Mode) (c : Nat) : (s.returnedTo m).bankOf c = s.bankOf c :=
  State.bankOf_congr rfl c

@[simp] theorem State.cur_returnedTo_kernel (s : State) : (s.returnedTo .kernel).cur = 0 := rfl

/-- The process switch: the context selected is the one CONTEXT holds now (`10_state.md` R116). -/
@[simp] theorem State.cur_returnedTo_user (s : State) : (s.returnedTo .user).cur = s.context.toNat := rfl

/-- Past the mode and the interrupt enable, a return is a jump to IRR's address. -/
theorem State.returnedTo_registerFrame (s : State) (m : Mode) :
    RegisterFrame { s with mode := m, ie := true } (s.returnedTo m) :=
  State.pc_registerFrame { s with mode := m, ie := true } s.irr

theorem State.returnFromTrap_of_isr {s : State} {m : Mode} (hisr : s.isr = isrEnc m)
    (hcontext : m = .user → s.context ≠ 0#16) : s.returnFromTrap = .ok (s.returnedTo m) :=
  State.returnFromTrap_ok_iff.mpr ⟨m, hisr, fun ⟨huser, hzero⟩ => hcontext huser hzero, rfl⟩

theorem exec_rti (s : State) : exec .rti s = s.privileged s.returnFromTrap := rfl

theorem exec_rti_of_kernel {s : State} {m : Mode} (hkernel : s.mode = .kernel) (hisr : s.isr = isrEnc m)
    (hcontext : m = .user → s.context ≠ 0#16) : exec .rti s = .next (s.returnedTo m) := by
  rw [exec_rti, State.privileged_of_kernel hkernel, State.returnFromTrap_of_isr hisr hcontext, State.finish_ok]

/-- Settles O15: in kernel mode the privilege check passes and the return is the one state `returnedTo` names, whose
context depends on the mode returned to and whose every other part is that of `s`. -/
theorem rtiReturns : Obligations.RtiReturns := by
  unfold Obligations.RtiReturns
  intro s m hkernel hisr hcontext
  obtain ⟨hcontrol, hmemory, hstored, hloaded, -, -⟩ := s.returnedTo_registerFrame m
  refine ⟨s.returnedTo m, exec_rti_of_kernel hkernel hisr hcontext, s.pc_returnedTo m, s.mode_returnedTo m,
    s.ie_returnedTo m, ?_, s.bankOf_returnedTo m, hmemory, hstored, hloaded, hcontrol⟩
  cases m with
  | kernel => exact s.cur_returnedTo_kernel
  | user => exact s.cur_returnedTo_user

end Sys2Proof.Machine

/-! Proofs about reset (`70_reset_and_hazards.md` R700): what every state that has just been reset maps page 0 to, and
that the machine's first state is one of them. -/

namespace Sys2Proof.Machine

/-! ### Translation through an MMU register that holds 0 -/

/-- The value 0 maps physical page 0 with all permissions under either layout (`20_memory.md` R221). -/
@[simp] theorem mmuEntry_zero : mmuEntry 0#16 = { frame := 0#12, perm := .all } := rfl

/-- The addresses of page 0 are translated by slot 0. -/
theorem slot_eq_zero {va : Word} (h : va.toNat < 0x1000) : va.extractLsb' 12 4 = 0#4 := by
  apply BitVec.eq_of_toNat_eq
  simp only [BitVec.extractLsb'_toNat, Nat.shiftRight_eq_div_pow, BitVec.toNat_ofNat]
  omega

/-- Frame 0 puts nothing above the offset in the page. -/
theorem toNat_frame_zero_append (offset : BitVec 12) : (0#12 ++ offset).toNat = offset.toNat := by
  rw [BitVec.toNat_append, BitVec.toNat_ofNat, Nat.zero_mod, Nat.zero_shiftLeft, Nat.zero_or]

theorem State.permission_of_mmuRegister_zero {s : State} {space : Space} {va : Word}
    (hreg : s.mmuRegister space va = 0#16) : s.permission space va = .all := by
  rw [State.permission, hreg, mmuEntry_zero]

/-- A register that holds 0 maps an address to its offset in the page. -/
theorem State.physical_toNat_of_mmuRegister_zero {s : State} {space : Space} {va : Word}
    (hreg : s.mmuRegister space va = 0#16) : (s.physical space va).toNat = va.toNat % 0x1000 := by
  rw [State.physical, hreg, mmuEntry_zero, toNat_frame_zero_append, BitVec.extractLsb'_toNat, Nat.shiftRight_zero]

/-! ### A state that has just been reset -/

/-- Kernel mode selects context 0, and both of its slots 0 hold 0. -/
theorem IsReset.mmuRegister_eq_zero {t : State} (ht : IsReset t) (space : Space) {va : Word}
    (h : va.toNat < 0x1000) : t.mmuRegister space va = 0#16 := by
  have hcur : t.cur = 0 := by rw [State.cur, ht.mode]
  cases space with
  | code =>
    simp only [State.mmuRegister, slot_eq_zero h, State.bank, hcur]
    exact ht.code0
  | data =>
    simp only [State.mmuRegister, slot_eq_zero h, State.bank, hcur]
    exact ht.data0

/-- The shared page of the bootstrap, after any reset, a double fault's too: code and data addresses of page 0 are the
physical addresses of the same numbers, with all permissions. -/
theorem IsReset.identity_on_page_zero {t : State} (ht : IsReset t) (space : Space) {va : Word}
    (h : va.toNat < 0x1000) : (t.physical space va).toNat = va.toNat ∧ t.permission space va = .all := by
  have hreg : t.mmuRegister space va = 0#16 := ht.mmuRegister_eq_zero space h
  refine ⟨?_, State.permission_of_mmuRegister_zero hreg⟩
  rw [State.physical_toNat_of_mmuRegister_zero hreg, Nat.mod_eq_of_lt h]

/-- No bank is listed in the first state, so every context has the bank `Bank.reset`, the kernel's among them. -/
theorem State.bankOf_reset (c : Nat) : State.reset.bankOf c = Bank.reset := rfl

theorem State.reset_isReset : IsReset State.reset where
  mode := rfl
  pc := rfl
  halted := rfl
  code0 := by simp only [State.bankOf_reset, Bank.reset, Vector.getElem_replicate]; rfl
  data0 := by simp only [State.bankOf_reset, Bank.reset, Vector.getElem_replicate]; rfl

/-- Settles O17: the first state is a reset state, and every reset state maps page 0 to itself. -/
theorem resetState : Obligations.ResetState := by
  unfold Obligations.ResetState
  exact ⟨State.reset_isReset, fun space _ h => State.reset_isReset.identity_on_page_zero space h⟩

end Sys2Proof.Machine

/-! Proofs about decoding and encoding (`30_encoding.md` R301 to R310): the decoder read format by format, every word put
together again from its fields, and with them both directions. -/

namespace Sys2Proof

/-! ### The decoder on the fields of a word -/

/-- What the decoder answers for a word that is not 0, by the fields it reads (`30_encoding.md` R310 steps 2 to 7): the
opcode, the register fields, the three immediates, bit 12, and the answer of the extended tables. -/
def decodeFields (op rA rB : BitVec 3) (imm7 : BitVec 7) (imm10 : BitVec 10) (bit12 : BitVec 1) (imm6 : BitVec 6)
    (extended : Instr) : Instr :=
  match op.toNat with
  | 0 => .ldw rA rB imm7
  | 1 => .ldb rA rB imm7
  | 2 => .stw rA rB imm7
  | 3 => .stb rA rB imm7
  | 4 => .adi rA rB imm7
  | 5 => .lui rA imm10
  | 6 => decodeBranch rA imm10
  | _ => if bit12 = 0 then .jal rA rB imm6 else extended

theorem decode_of_ne_zero {w : Word} (h : w ≠ 0) :
    decode w = decodeFields (w.extractLsb' 13 3) (w.extractLsb' 0 3) (w.extractLsb' 3 3) (w.extractLsb' 6 7)
      (w.extractLsb' 3 10) (w.extractLsb' 12 1) (w.extractLsb' 6 6) (decodeExtended w) :=
  if_neg h

theorem decode_wordM {op3 : BitVec 3} {imm7 : BitVec 7} {rB rA : RegField} (h : wordM op3 imm7 rB rA ≠ 0) :
    ∃ imm10 bit12 imm6 extended,
      decode (wordM op3 imm7 rB rA) = decodeFields op3 rA rB imm7 imm10 bit12 imm6 extended := by
  obtain ⟨hrA, hrB, himm, hop⟩ := wordM_fields op3 imm7 rB rA
  have hdecode := decode_of_ne_zero h
  rw [hrA, hrB, himm, hop] at hdecode
  exact ⟨_, _, _, _, hdecode⟩

theorem decode_wordB {op3 : BitVec 3} (hop : op3 ≠ 0) (imm10 : BitVec 10) (low : BitVec 3) :
    ∃ rB imm7 bit12 imm6 extended,
      decode (wordB op3 imm10 low) = decodeFields op3 low rB imm7 imm10 bit12 imm6 extended := by
  obtain ⟨hlow, himm, hop3⟩ := wordB_fields op3 imm10 low
  have hdecode := decode_of_ne_zero (wordB_ne_zero hop imm10 low)
  rw [hlow, himm, hop3] at hdecode
  exact ⟨_, _, _, _, _, hdecode⟩

theorem decode_wordJ (imm6 : BitVec 6) (rB rA : RegField) : decode (wordJ imm6 rB rA) = .jal rA rB imm6 := by
  obtain ⟨hrA, hrB, himm, hbit, hop⟩ := wordJ_fields imm6 rB rA
  have hne : wordJ imm6 rB rA ≠ 0 := fun hzero => absurd (hzero ▸ hop) (by decide)
  rw [decode_of_ne_zero hne, hrA, hrB, himm, hbit, hop]
  rfl

/-- The four extended tables, each asked where the one before it has the escape (`30_encoding.md` R310 steps 4 to 7). -/
theorem decode_wordX_tables (x : BitVec 3) (rC rB rA : RegField) :
    decode (wordX x rC rB rA) =
      ((decodeXop x rA rB rC).or ((decodeYop rC rA rB).or (decodeZop rB rA))).getD (decodeVop rA) := by
  obtain ⟨hrA, hrB, hrC, hx, -, -⟩ := wordX_fields x rC rB rA
  rw [decode_wordX]
  simp only [decodeExtended, hrA, hrB, hrC, hx]

theorem decode_wordM_of_opcode {op3 : BitVec 3} (hop : op3 ≠ 0) (imm7 : BitVec 7) (rB rA : RegField) :
    ∃ imm10 bit12 imm6 extended,
      decode (wordM op3 imm7 rB rA) = decodeFields op3 rA rB imm7 imm10 bit12 imm6 extended := by
  refine decode_wordM fun hzero => ?_
  obtain ⟨-, -, -, hfield⟩ := wordM_fields op3 imm7 rB rA
  rw [hzero] at hfield
  exact hop (hfield.symm.trans (by decide))

/-- The one instruction word of format M whose opcode does not keep it from being the illegal word 0. -/
theorem wordM_ldw_ne_zero {rA rB : RegField} {imm7 : BitVec 7} (h : (Instr.ldw rA rB imm7).wellFormed = true) :
    wordM 0 imm7 rB rA ≠ 0 := by
  obtain ⟨hrA, hrB, himm, -⟩ := wordM_fields 0 imm7 rB rA
  intro hzero
  rw [hzero] at hrA hrB himm
  subst hrA hrB himm
  exact absurd h (by decide)

/-! ### Decoding an encoding -/

theorem decode_encode {i : Instr} (h : i.wellFormed = true) : decode (encode i) = i := by
  cases i
  case ldw rA rB imm7 => obtain ⟨_, _, _, _, e⟩ := decode_wordM (wordM_ldw_ne_zero h); exact e
  case ldb rA rB imm7 => obtain ⟨_, _, _, _, e⟩ := decode_wordM_of_opcode (op3 := 1) (by decide) imm7 rB rA; exact e
  case stw rA rB imm7 => obtain ⟨_, _, _, _, e⟩ := decode_wordM_of_opcode (op3 := 2) (by decide) imm7 rB rA; exact e
  case stb rA rB imm7 => obtain ⟨_, _, _, _, e⟩ := decode_wordM_of_opcode (op3 := 3) (by decide) imm7 rB rA; exact e
  case adi rA rB imm7 => obtain ⟨_, _, _, _, e⟩ := decode_wordM_of_opcode (op3 := 4) (by decide) imm7 rB rA; exact e
  case lui rA imm10 => exact decode_wordB_lui rA imm10
  case br | brl | brz | brnz | brc | brnc | brsge | brslt =>
    obtain ⟨_, _, _, _, _, e⟩ := decode_wordB (op3 := 6) (by decide) _ _
    exact e
  case jal rA rB imm6 => exact decode_wordJ imm6 rB rA
  case illegalZero => rfl
  case illegalSysRb rA rB =>
    have hrB : rB ≠ 0 := bne_iff_ne.mp h
    refine (decode_wordX_tables 7 5 rB rA).trans ?_
    change (Option.or (if rB = 0 then _ else _) _).getD _ = _
    rw [if_neg hrB]
    rfl
  all_goals exact decode_wordX_tables _ _ _ _

/-- Settles O2: field by field each format's word is read back, and the two bytes of a word give the word. -/
theorem decodeEncode : Obligations.DecodeEncode := by
  unfold Obligations.DecodeEncode
  intro i h
  refine ⟨decode_encode h, fun rest => ?_⟩
  show Except.ok (decode (wordOfBytes (lowByte (encode i)) (highByte (encode i))), rest) = _
  rw [wordOfBytes_low_high, decode_encode h]

/-! ### A word from its fields -/

theorem wordM_of_fields (w : Word) :
    wordM (w.extractLsb' 13 3) (w.extractLsb' 6 7) (w.extractLsb' 3 3) (w.extractLsb' 0 3) = w := by
  apply BitVec.eq_of_getLsbD_eq
  intro i hi
  rw [wordM_getLsbD]
  simp only [BitVec.getLsbD_extractLsb']
  interval_cases i <;> simp

theorem wordB_of_fields (w : Word) :
    wordB (w.extractLsb' 13 3) (w.extractLsb' 3 10) (w.extractLsb' 0 3) = w := by
  apply BitVec.eq_of_getLsbD_eq
  intro i hi
  rw [wordB_getLsbD]
  simp only [BitVec.getLsbD_extractLsb']
  interval_cases i <;> simp

/-- Formats J and X have four fixed bits on top, the opcode and bit 12. -/
theorem top_bits {w : Word} {n : BitVec 4} (h : w.extractLsb' 12 4 = n) {i : Nat} (hi : i < 4) :
    w.getLsbD (12 + i) = n.getLsbD i := by
  rw [← h, BitVec.getLsbD_extractLsb']
  simp [hi]

theorem wordJ_of_fields {w : Word} (h : w.extractLsb' 12 4 = 0xE#4) :
    wordJ (w.extractLsb' 6 6) (w.extractLsb' 3 3) (w.extractLsb' 0 3) = w := by
  apply BitVec.eq_of_getLsbD_eq
  intro i hi
  rw [wordJ_getLsbD]
  by_cases h12 : i < 12
  · simp only [BitVec.getLsbD_extractLsb']
    interval_cases i <;> simp
  · rw [if_neg (by omega), if_neg (by omega), if_neg h12, ← top_bits h (by omega)]
    congr 1
    omega

theorem wordX_of_fields {w : Word} (h : w.extractLsb' 12 4 = 0xF#4) :
    wordX (w.extractLsb' 9 3) (w.extractLsb' 6 3) (w.extractLsb' 3 3) (w.extractLsb' 0 3) = w := by
  apply BitVec.eq_of_getLsbD_eq
  intro i hi
  rw [wordX_getLsbD]
  by_cases h12 : i < 12
  · simp only [BitVec.getLsbD_extractLsb']
    interval_cases i <;> simp
  · rw [if_neg (by omega), if_neg (by omega), if_neg (by omega), if_neg h12, ← top_bits h (by omega)]
    congr 1
    omega

/-- The opcode 7 and bit 12 are the four top bits. -/
theorem top_of_opcode {w : Word} (hop : w.extractLsb' 13 3 = 7) :
    w.extractLsb' 12 4 = if w.extractLsb' 12 1 = 0 then 0xE#4 else 0xF#4 := by
  have hw := w.isLt
  have h := congrArg BitVec.toNat hop
  split <;> rename_i hbit <;> rw [BitVec.toNat_eq] at hbit ⊢ <;>
    simp only [BitVec.extractLsb'_toNat, Nat.shiftRight_eq_div_pow, BitVec.ofNat_eq_ofNat, BitVec.toNat_ofNat]
      at h hbit ⊢ <;> omega

/-! ### Encoding a decoding -/

theorem field_cases (f : BitVec 3) :
    f = 0 ∨ f = 1 ∨ f = 2 ∨ f = 3 ∨ f = 4 ∨ f = 5 ∨ f = 6 ∨ f = 7 := by
  revert f
  decide

/-- `i` is a well-formed instruction with the word `w`. -/
def HasWord (i : Instr) (w : Word) : Prop := i.wellFormed = true ∧ encode i = w

/-- A table's answer at field value `f`: the escape at 7, else the instruction that `w` encodes. -/
def OpensOrHasWord (f : BitVec 3) (answer : Option Instr) (w : Word) : Prop :=
  f = 7 ∧ answer = none ∨ ∃ i, answer = some i ∧ HasWord i w

theorem decodeXop_opensOrHasWord (x : BitVec 3) (rA rB rC : RegField) :
    OpensOrHasWord x (decodeXop x rA rB rC) (wordX x rC rB rA) := by
  rcases field_cases x with rfl | rfl | rfl | rfl | rfl | rfl | rfl | rfl
  case inr.inr.inr.inr.inr.inr.inr => exact .inl ⟨rfl, rfl⟩
  all_goals exact .inr ⟨_, rfl, rfl, rfl⟩

theorem decodeYop_opensOrHasWord (y : BitVec 3) (rA rB : RegField) :
    OpensOrHasWord y (decodeYop y rA rB) (wordX 7 y rB rA) := by
  rcases field_cases y with rfl | rfl | rfl | rfl | rfl | rfl | rfl | rfl
  case inr.inr.inr.inr.inr.inr.inr => exact .inl ⟨rfl, rfl⟩
  case inr.inr.inr.inr.inr.inl =>
    by_cases hrB : rB = 0
    · subst hrB; exact .inr ⟨_, rfl, rfl, rfl⟩
    · exact .inr ⟨_, if_neg hrB, bne_iff_ne.mpr hrB, rfl⟩
  all_goals exact .inr ⟨_, rfl, rfl, rfl⟩

theorem decodeZop_opensOrHasWord (z : BitVec 3) (rA : RegField) :
    OpensOrHasWord z (decodeZop z rA) (wordX 7 7 z rA) := by
  rcases field_cases z with rfl | rfl | rfl | rfl | rfl | rfl | rfl | rfl
  case inr.inr.inr.inr.inr.inr.inr => exact .inl ⟨rfl, rfl⟩
  all_goals exact .inr ⟨_, rfl, rfl, rfl⟩

theorem decodeVop_hasWord (v : BitVec 3) : HasWord (decodeVop v) (wordX 7 7 7 v) := by
  rcases field_cases v with rfl | rfl | rfl | rfl | rfl | rfl | rfl | rfl <;> exact ⟨rfl, rfl⟩

theorem decodeBranch_hasWord (cond : BitVec 3) (imm10 : BitVec 10) :
    HasWord (decodeBranch cond imm10) (wordB 6 imm10 cond) := by
  rcases field_cases cond with rfl | rfl | rfl | rfl | rfl | rfl | rfl | rfl <;> exact ⟨rfl, rfl⟩

theorem decode_wordX_hasWord (x : BitVec 3) (rC rB rA : RegField) :
    HasWord (decode (wordX x rC rB rA)) (wordX x rC rB rA) := by
  rw [decode_wordX_tables]
  rcases decodeXop_opensOrHasWord x rA rB rC with ⟨rfl, eX⟩ | ⟨i, eX, hi⟩
  · rcases decodeYop_opensOrHasWord rC rA rB with ⟨rfl, eY⟩ | ⟨i, eY, hi⟩
    · rcases decodeZop_opensOrHasWord rB rA with ⟨rfl, eZ⟩ | ⟨i, eZ, hi⟩
      · rw [eX, eY, eZ]; exact decodeVop_hasWord rA
      · rw [eX, eY, eZ]; exact hi
    · rw [eX, eY]; exact hi
  · rw [eX]; exact hi

/-- A word of opcode 0 to 4 that is not 0 is not LDW with all its fields 0. -/
theorem ldw_wellFormed_of_ne_zero {rA rB : RegField} {imm7 : BitVec 7} (h : wordM 0 imm7 rB rA ≠ 0) :
    (Instr.ldw rA rB imm7).wellFormed = true := by
  by_contra hwf
  simp only [Instr.wellFormed, Bool.not_eq_true', Bool.not_eq_false, Bool.and_eq_true, beq_iff_eq] at hwf
  obtain ⟨⟨rfl, rfl⟩, rfl⟩ := hwf
  exact h (by decide)

/-- Decoding is total and loses nothing (`30_encoding.md` R310). -/
theorem decode_hasWord (w : Word) : HasWord (decode w) w := by
  by_cases hw : w = 0
  · subst hw; exact ⟨rfl, rfl⟩
  have hM := wordM_of_fields w
  have hB := wordB_of_fields w
  rw [decode_of_ne_zero hw]
  rcases field_cases (w.extractLsb' 13 3) with hop | hop | hop | hop | hop | hop | hop | hop <;>
    rw [hop] at hM hB ⊢
  case inl =>
    rw [← hM] at hw
    exact ⟨ldw_wellFormed_of_ne_zero hw, hM⟩
  case inr.inr.inr.inr.inr.inl => exact ⟨rfl, hB⟩
  case inr.inr.inr.inr.inr.inr.inl =>
    obtain ⟨hwf, he⟩ := decodeBranch_hasWord (w.extractLsb' 0 3) (w.extractLsb' 3 10)
    exact ⟨hwf, he.trans hB⟩
  case inr.inr.inr.inr.inr.inr.inr =>
    have htop := top_of_opcode hop
    change HasWord (if w.extractLsb' 12 1 = 0 then _ else _) w
    split at htop <;> rename_i hbit
    · rw [if_pos hbit]
      exact ⟨rfl, wordJ_of_fields htop⟩
    · rw [if_neg hbit]
      have h := decode_wordX_hasWord (w.extractLsb' 9 3) (w.extractLsb' 6 3) (w.extractLsb' 3 3) (w.extractLsb' 0 3)
      rwa [decode_wordX, wordX_of_fields htop] at h
  all_goals exact ⟨rfl, hM⟩

/-- Every well-formed instruction's word is in its row (the lemmas of `Laws.TableRow`, one for each constructor). -/
theorem encode_mem_tableRow : ∀ i : Instr, Laws.TableRow.Statement i
  | .ldw _ _ _ => Laws.TableRow.ldw _ _ _
  | .ldb _ _ _ => Laws.TableRow.ldb _ _ _
  | .stw _ _ _ => Laws.TableRow.stw _ _ _
  | .stb _ _ _ => Laws.TableRow.stb _ _ _
  | .adi _ _ _ => Laws.TableRow.adi _ _ _
  | .lui _ _ => Laws.TableRow.lui _ _
  | .br _ => Laws.TableRow.br _
  | .brl _ => Laws.TableRow.brl _
  | .brz _ => Laws.TableRow.brz _
  | .brnz _ => Laws.TableRow.brnz _
  | .brc _ => Laws.TableRow.brc _
  | .brnc _ => Laws.TableRow.brnc _
  | .brsge _ => Laws.TableRow.brsge _
  | .brslt _ => Laws.TableRow.brslt _
  | .jal _ _ _ => Laws.TableRow.jal _ _ _
  | .sbb _ _ _ => Laws.TableRow.sbb _ _ _
  | .adc _ _ _ => Laws.TableRow.adc _ _ _
  | .sub _ _ _ => Laws.TableRow.sub _ _ _
  | .add _ _ _ => Laws.TableRow.add _ _ _
  | .xor _ _ _ => Laws.TableRow.xor _ _ _
  | .or _ _ _ => Laws.TableRow.or _ _ _
  | .and _ _ _ => Laws.TableRow.and _ _ _
  | .lsp _ _ => Laws.TableRow.lsp _ _
  | .lsi _ _ => Laws.TableRow.lsi _ _
  | .ssp _ _ => Laws.TableRow.ssp _ _
  | .ssi _ _ => Laws.TableRow.ssi _ _
  | .lcw _ _ => Laws.TableRow.lcw _ _
  | .sys _ => Laws.TableRow.sys _
  | .tst _ _ => Laws.TableRow.tst _ _
  | .not _ => Laws.TableRow.not _
  | .neg _ => Laws.TableRow.neg _
  | .dub _ => Laws.TableRow.dub _
  | .sxt _ => Laws.TableRow.sxt _
  | .sra _ => Laws.TableRow.sra _
  | .srl _ => Laws.TableRow.srl _
  | .ji _ => Laws.TableRow.ji _
  | .ccf => Laws.TableRow.ccf
  | .scf => Laws.TableRow.scf
  | .di => Laws.TableRow.di
  | .ei => Laws.TableRow.ei
  | .hlt => Laws.TableRow.hlt
  | .brk => Laws.TableRow.brk
  | .rti => Laws.TableRow.rti
  | .die => Laws.TableRow.die
  | .illegalZero => Laws.TableRow.illegalZero
  | .illegalSysRb _ _ => Laws.TableRow.illegalSysRb _ _

/-- Settles O3: opcode by opcode, and for the extended words table by table, the word is put together again from the
fields the decoder read; the row is then that of the encoding. -/
theorem encodeDecode : Obligations.EncodeDecode := by
  unfold Obligations.EncodeDecode
  intro w
  obtain ⟨hwf, he⟩ := decode_hasWord w
  have hrow : encode (decode w) &&& (decode w).tableRow.1 = (decode w).tableRow.2 := encode_mem_tableRow (decode w) hwf
  rw [he] at hrow
  exact ⟨hwf, he, hrow⟩

/-- Settles O1: the words are closed terms, and decoding computes. -/
theorem specWordsDecode : Obligations.SpecWordsDecode := by
  unfold Obligations.SpecWordsDecode
  decide

end Sys2Proof

/-! Proofs about the invariant (`20_memory.md` R204, `60_exceptions.md` R613, R650, R667, `10_state.md` R115, R116): it
holds after reset, every shared operation keeps it, and so every step does. -/

namespace Sys2Proof.Machine

/-! ### What a special-register read leaves of the devices -/

/-- Of the FIFOs a read takes at most the oldest received byte (`60_exceptions.md` R652). -/
theorem State.readSpr_fifos {s t : State} {r : Spr} {v : Word} (h : s.readSpr r = .ok (v, t)) :
    t.uart.txq = s.uart.txq ∧ ∃ n, t.uart.rxq = s.uart.rxq.drop n := by
  cases r <;> simp only [State.readSpr] at h
  case userGen i =>
    split at h
    · cases h
    · obtain ⟨b, _, hb⟩ := Action.bind_ok_iff.mp h
      cases hb; exact ⟨rfl, 0, rfl⟩
  case userReserved | userCode | userData =>
    obtain ⟨b, _, hb⟩ := Action.bind_ok_iff.mp h
    cases hb; exact ⟨rfl, 0, rfl⟩
  case uartRx =>
    unfold Uart.receive at h
    cases hq : s.uart.rxq with
    | nil => rw [hq] at h; cases h; exact ⟨rfl, 0, rfl⟩
    | cons b rest => rw [hq] at h; cases h; exact ⟨rfl, 1, rfl⟩
  case spiData => split at h <;> (cases h; exact ⟨rfl, 0, rfl⟩)
  all_goals (cases h; exact ⟨rfl, 0, rfl⟩)

/-- Of the SPI interface a read takes response bytes at most. -/
theorem State.readSpr_spi {s t : State} {r : Spr} {v : Word} (h : s.readSpr r = .ok (v, t)) :
    ∃ reply, t.spi = { s.spi with card := { s.spi.card with reply := reply } } := by
  cases r <;> simp only [State.readSpr] at h
  case userGen i =>
    split at h
    · cases h
    · obtain ⟨b, _, hb⟩ := Action.bind_ok_iff.mp h
      cases hb; exact ⟨_, rfl⟩
  case userReserved | userCode | userData =>
    obtain ⟨b, _, hb⟩ := Action.bind_ok_iff.mp h
    cases hb; exact ⟨_, rfl⟩
  case uartRx => split at h <;> (cases h; exact ⟨_, rfl⟩)
  case spiData =>
    obtain ⟨reply, hp⟩ := s.spi.fetchByte_spi
    split at h <;> rename_i p hf <;> rw [hf] at hp <;> (cases h; exact ⟨reply, hp⟩)
  all_goals (cases h; exact ⟨_, rfl⟩)

/-! ### The devices' FIFOs -/

theorem Uart.transmit_fifos (u : Uart) (b : Byte) (h : u.txq.length ≤ fifoSize) :
    (u.transmit b).txq.length ≤ fifoSize ∧ (u.transmit b).rxq = u.rxq := by
  unfold Uart.transmit
  split
  · refine ⟨?_, rfl⟩
    simp only [List.length_append, List.length_singleton]
    omega
  · exact ⟨h, rfl⟩

theorem Uart.hostMoves_fifos (u : Uart) (typed : List Byte) (shown : Nat) (htx : u.txq.length ≤ fifoSize)
    (hrx : u.rxq.length ≤ fifoSize) :
    (u.hostMoves typed shown).txq.length ≤ fifoSize ∧ (u.hostMoves typed shown).rxq.length ≤ fifoSize := by
  simp only [Uart.hostMoves, List.length_drop, List.length_append, List.length_take]
  omega

/-! ### The shared operations -/

namespace State.Inv

variable {s t u : State}

theorem cur_lt (h : s.Inv) : s.cur < nctx := by
  unfold State.cur
  split
  · unfold nctx; omega
  · exact h.context

theorem pc (h : s.Inv) (p : Word) : ({ s with pc := p } : State).Inv := { h with }

theorem setBankOf (h : s.Inv) {c : Nat} (hc : c < nctx) (b : Bank) : (s.setBankOf c b).Inv :=
  { h with banks := s.setBankOf_banksWf c b hc h.banks }

theorem setBank (h : s.Inv) (b : Bank) : (s.setBank b).Inv := h.setBankOf h.cur_lt b

theorem putByte (h : s.Inv) (a : PhysAddr) (b : Byte) : (s.putByte a b).Inv :=
  { h with
    mem := s.putByte_memWf a b h.mem
    stored := marksWf_setMark s.stored a true h.stored
    loaded := marksWf_setMark s.loaded a false h.loaded }

theorem withWord (h : s.Inv) (a : PhysAddr) (v : Word) : (s.withWord a v).Inv := (h.putByte a _).putByte _ _

/-- The host's moves keep the FIFOs within their size. -/
theorem hostMoves (h : s.Inv) (typed : List Byte) (shown : Nat) (cyc : BitVec 32) (ticks : Nat) :
    ({ s with uart := s.uart.hostMoves typed shown, cyc := cyc, ticks := ticks } : State).Inv := by
  obtain ⟨htx, hrx⟩ := s.uart.hostMoves_fifos typed shown h.txq h.rxq
  exact { h with txq := htx, rxq := hrx }

theorem tick (h : s.Inv) : s.tick.Inv := h.hostMoves _ _ _ _

theorem idle (h : s.Inv) : s.idle.Inv := h.hostMoves _ _ _ _

theorem enterKernel (h : s.Inv) (c : Cause) : (s.enterKernel c).Inv :=
  { h with user := nofun, halted := fun _ => rfl }

theorem haltDouble (h : s.Inv) (hm : s.mode = .kernel) : s.haltDouble.Inv :=
  { h with halted := fun _ => hm }

/-- A reset keeps of the state what it keeps, and the rest it puts in canonical form. -/
theorem resetAgain (h : s.Inv) : s.resetAgain.Inv where
  mem := s.resetAgain_memWf
  banks := sparseWf_put _ _ _ _ _ (by unfold nctx; omega) (sparseWf_normal _ _ _)
  stored := rfl
  loaded := h.loaded
  store := h.store
  size := h.size
  txq := by simp only [State.resetAgain, List.length_take]; omega
  rxq := by simp only [State.resetAgain, List.length_take]; omega
  context := by
    simp only [State.resetAgain]
    split
    · assumption
    · unfold nctx; simp
  user := nofun
  halted := nofun

theorem doubleFault (h : s.Inv) (hm : s.mode = .kernel) : s.doubleFault.Inv := by
  rcases s.doubleFault_cases with e | e <;> rw [e]
  · exact h.resetAgain
  · exact h.haltDouble hm

theorem raise (h : s.Inv) (c : Cause) : (s.raise c).Inv := by
  rcases s.raise_cases c with ⟨hd, e⟩ | ⟨_, e⟩ <;> rw [e]
  · exact h.doubleFault (State.isDoubleFault_kernel hd).1
  · exact h.enterKernel c

theorem traceCleared (h : s.Inv) (r : TrapBit) : (s.traceCleared r).Inv := { h with }

/-! ### Special registers -/

theorem readSpr (h : s.Inv) {r : Spr} {v : Word} (hr : s.readSpr r = .ok (v, t)) : t.Inv := by
  obtain ⟨htx, n, hrx⟩ := State.readSpr_fifos hr
  obtain ⟨reply, hspi⟩ := State.readSpr_spi hr
  rw [State.readSpr_ok hr]
  refine { h with store := ?_, size := ?_, txq := ?_, rxq := ?_ }
  · rw [hspi]; exact h.store
  · rw [hspi]; exact h.size
  · rw [htx]; exact h.txq
  · rw [hrx, List.length_drop]; exact (Nat.sub_le _ _).trans h.rxq

theorem sprRead (h : s.Inv) {k v : Word} (hr : s.sprRead k = .ok (v, t)) : t.Inv :=
  h.readSpr (State.sprRead_ok_iff.mp hr).2.2

/-- A write of CONTEXT could leave user mode in context 0, but only kernel mode can write it. -/
theorem writeSpr (h : s.Inv) {r : Spr} {v : Word} (hc : r = .context → s.mode = .kernel)
    (hw : s.writeSpr r v = .ok u) : u.Inv := by
  have hzero : 0 < nctx := by unfold nctx; omega
  cases r <;> simp only [State.writeSpr] at hw
  case link => cases hw; exact h.setBank _
  case flags =>
    cases hw
    unfold State.writeFlags
    split
    · exact { h.setBank _ with }
    · exact h.setBank _
  case irr | isr => cases hw; exact { h with }
  case context =>
    split at hw
    · rename_i hlt
      cases hw
      exact { h with context := hlt, user := fun hu => absurd ((hc rfl).symm.trans hu) (by decide) }
    · cases hw
  case userGen i =>
    split at hw
    · cases hw
    · obtain ⟨b, _, hb⟩ := Action.bind_ok_iff.mp hw
      cases hb; exact h.setBankOf h.context _
  case userReserved => obtain ⟨b, _, hb⟩ := Action.bind_ok_iff.mp hw; cases hb; exact h
  case userCode | userData =>
    obtain ⟨b, _, hb⟩ := Action.bind_ok_iff.mp hw
    cases hb; exact h.setBankOf h.context _
  case kernCode =>
    split at hw
    · cases hw
    · cases hw; exact h.setBankOf hzero _
  case kernData => cases hw; exact h.setBankOf hzero _
  case uartTx =>
    cases hw
    obtain ⟨htx, hrx⟩ := s.uart.transmit_fifos (lowByte v) h.txq
    exact { h with txq := htx, rxq := hrx ▸ h.rxq }
  case uartTxStatus | uartRxStatus => cases hw; exact { h with }
  case spiData =>
    cases hw
    exact { h with store := Spi.send_storeWf _ _ h.store, size := Spi.send_sizeWf _ _ h.size }
  case spiSelect => cases hw; exact { h with }
  all_goals (cases hw; exact h)

theorem sprWrite (h : s.Inv) {k v : Word} (hw : s.sprWrite k v = .ok u) : u.Inv := by
  obtain ⟨r, hr, hw⟩ := Action.bind_ok_iff.mp hw
  refine h.writeSpr (fun hrc => ?_) hw
  cases hm : s.mode with
  | kernel => rfl
  | user => rcases State.user_sprNumber hm hr with e | e | e | e | e <;> rw [hrc] at e <;> cases e

/-! ### What an instruction and a step do -/

theorem registersOnly (h : s.Inv) (hd : RegistersOnly s t) : t.Inv := by
  obtain ⟨b, p, _, _, rfl⟩ := hd
  exact (h.setBank b).pc p

theorem stored_step (h : s.Inv) (hd : Stored s t) : t.Inv := by
  rcases hd with ⟨va, b, _, rfl⟩ | ⟨va, v, _, rfl⟩
  · exact (h.putByte _ b).pc _
  · exact (h.withWord _ v).pc _

theorem afterFaultingRead (h : s.Inv) (ht : t.Inv) : (s.afterFaultingRead t).Inv := by
  unfold State.afterFaultingRead
  split
  · exact { ht with }
  · exact { h with }

theorem readSpr_step (h : s.Inv) {k : Word} (hd : ReadSpr s k t) : t.Inv := by
  obtain ⟨v, r, hr, hd⟩ := hd
  have hri := h.sprRead hr
  rcases hd with ⟨rA, rfl⟩ | ⟨va, _, rfl⟩ | ⟨c, rfl⟩
  · exact (hri.setBank _).pc _
  · exact (hri.withWord _ v).pc _
  · exact (h.afterFaultingRead hri).raise c

theorem wroteSpr_step (h : s.Inv) {k : Word} (hd : WroteSpr s k t) : t.Inv := by
  obtain ⟨v, u, hw, rfl⟩ := hd
  exact (h.sprWrite hw).pc _

theorem raise_step (h : s.Inv) (hd : ∃ c, t = s.raise c) : t.Inv := by
  obtain ⟨c, rfl⟩ := hd
  exact h.raise c

theorem exec (h : s.Inv) {i : Instr} (hh : s.halted = false) (he : exec i s = .next t) : t.Inv := by
  have hd := exec_did he
  cases i <;> simp only [Did] at hd
  case ldw | ldb | lcw => exact hd.elim (fun d => h.registersOnly d.registersOnly) h.raise_step
  case stw | stb => exact hd.elim h.stored_step h.raise_step
  case lui | brl | jal => exact h.registersOnly hd.registersOnly
  case br | brz | brnz | brc | brnc | brsge | brslt | ji => obtain ⟨p, rfl⟩ := hd; exact h.pc p
  case lsp | lsi => exact hd.elim h.readSpr_step h.raise_step
  case ssp | ssi => exact hd.elim h.wroteSpr_step h.raise_step
  case sys | illegalSysRb | die | illegalZero => exact h.raise_step hd
  case di | ei =>
    rcases hd with ⟨hm, rfl⟩ | ⟨_, hd⟩
    · exact { h with user := fun hu => absurd (hm.symm.trans hu) (by decide) }
    · exact h.raise_step hd
  case hlt =>
    rcases hd with ⟨hm, rfl⟩ | ⟨_, hd⟩
    · exact { h with halted := fun _ => hm }
    · exact h.raise_step hd
  case rti =>
    rcases hd with ⟨_, m, _, hcontext, rfl⟩ | ⟨_, hd⟩
    · exact { h with
        user := fun hu => ⟨rfl, fun hz => hcontext ⟨hu, hz⟩⟩
        halted := fun hb => absurd (hh.symm.trans hb) (by decide) }
    · exact h.raise_step hd
  case brk => obtain ⟨_, rfl⟩ := hd; exact { h with }
  all_goals exact h.registersOnly hd

theorem runTraced (h : s.Inv) {r : TrapBit} {i : Instr} (hh : s.halted = false)
    (hr : s.runTraced r i = .next t) : t.Inv := by
  rcases runTraced_did hr with rfl | ⟨u, he, ⟨_, rfl⟩ | ⟨hm, rfl | rfl⟩⟩
  · exact (h.traceCleared r).raise _
  · exact ((h.exec hh he).traceCleared r).raise _
  · exact h.exec hh he
  · exact (h.exec hh he).doubleFault hm

theorem step (h : s.Inv) (hs : step s = .next t) : t.Inv := by
  cases hh : s.halted with
  | true =>
    have e : Machine.step s = .next s.idle := if_pos hh
    cases hs.symm.trans e
    exact h.idle
  | false =>
    rcases step_did hh hs with ⟨c, rfl⟩ | ⟨w, _, ⟨_, he⟩ | ⟨_, r, _, hr⟩⟩
    · exact h.tick.raise c
    · exact h.tick.exec hh he
    · exact h.tick.runTraced hh hr

end State.Inv

/-- Settles O19: a halted machine lets the host move, and of every other step's parts, the host's moves, an exception, an
instruction and the trap bit, each keeps the invariant. -/
theorem stepKeepsInv : Obligations.StepKeepsInv := by
  unfold Obligations.StepKeepsInv
  exact fun s t h hs => h.step hs

theorem State.reset_inv : State.reset.Inv where
  mem := State.reset_memWf
  banks := rfl
  stored := rfl
  loaded := rfl
  store := rfl
  size := rfl
  txq := by decide
  rxq := by decide
  context := by unfold nctx; simp [State.reset]
  user := nofun
  halted := nofun

/-- Settles O18: nothing is listed, queued or attached after reset, and CONTEXT is 0. -/
theorem resetInv : Obligations.ResetInv := by
  unfold Obligations.ResetInv
  exact State.reset_inv

end Sys2Proof.Machine

/-! Proofs about special registers (`10_state.md` R120 to R142, `44_yop.md` R461 to R464): what every read answers and
does to the devices, what every write leaves in each part of the state, and the four instructions that reach them. -/

namespace Sys2Proof.Machine

/-! ### A number stands for one register -/

theorem Spr.ofNumber_of_hasNumber {r : Spr} {n : Nat} (h : r.hasNumber n) : Spr.ofNumber (BitVec.ofNat 7 n) = r := by
  cases r <;> simp only [Spr.hasNumber] at h
  case undefined | reserved | userReserved | unassigned =>
    obtain ⟨hlo, hhi⟩ := h
    interval_cases n <;> rfl
  case userGen i | userCode i | userData i | kernCode i | kernData i =>
    subst h
    revert i
    decide
  all_goals subst h; rfl

theorem Spr.number_le {r : Spr} {n : Nat} (h : r.hasNumber n) : n ≤ 127 := by
  cases r <;> simp only [Spr.hasNumber] at h <;> omega

/-- The register past the number check, told by its number. -/
theorem State.sprNumber_eq_iff {s : State} {k : Word} {r : Spr} (h : s.sprNumber k = .ok r) (r' : Spr) :
    r = r' ↔ r'.hasNumber k.toNat := by
  obtain ⟨hk, -, rfl⟩ := State.sprNumber_ok_iff.mp h
  refine ⟨fun e => e ▸ Spr.ofNumber_hasNumber k hk, fun hr => ?_⟩
  have hlow : k.extractLsb' 0 7 = BitVec.ofNat 7 k.toNat := by simp [BitVec.extractLsb']
  rw [hlow, Spr.ofNumber_of_hasNumber hr]

/-- A read of number `k` is a read of the register that has it. -/
theorem State.sprRead_as {s t : State} {k v : Word} (h : s.sprRead k = .ok (v, t)) {r : Spr}
    (hr : r.hasNumber k.toNat) : s.readSpr r = .ok (v, t) := by
  obtain ⟨r', hn, h⟩ := Action.bind_ok_iff.mp h
  rwa [(State.sprNumber_eq_iff hn r).mpr hr] at h

/-- A read leaves all but the devices and the free-value counter. -/
theorem State.sprRead_state {s t : State} {k v : Word} (h : s.sprRead k = .ok (v, t)) :
    ∃ uart spi draws, t = { s with uart := uart, spi := spi, draws := draws } :=
  ⟨_, _, _, State.readSpr_ok (State.sprRead_ok_iff.mp h).2.2⟩

/-! ### What s0 answers -/

theorem Spi.selected_iff {p : Spi} : p.selected = true ↔ p.sel.getLsbD 0 = false := by
  simp [Spi.selected]

/-- The time-out value, whether the card is selected or not (`60_exceptions.md` R664, R665). -/
theorem Spi.fetchByte_timeOut {p : Spi} (hp : p.card.present = true)
    (h : p.card.phase = .failed ∨ p.card.reply = []) : p.fetchByte = (some 0xFF#8, p) := by
  unfold Spi.fetchByte
  rw [hp]
  cases hphase : p.card.phase <;> cases hreply : p.card.reply <;> simp_all

theorem Spi.fetchByte_reply {p : Spi} {b : Byte} {rest : List Byte} (hp : p.card.present = true)
    (hs : p.sel.getLsbD 0 = false) (hphase : p.card.phase ≠ .failed) (hreply : p.card.reply = b :: rest) :
    p.fetchByte = (some b, { p with card := { p.card with reply := rest } }) := by
  unfold Spi.fetchByte
  rw [hp, hreply, Spi.selected_iff.mpr hs]
  cases h : p.card.phase <;> simp_all

/-- Without a card, deselected or in the error state nothing is consumed (entries 27 and 47). -/
theorem Spi.fetchByte_keeps {p : Spi}
    (h : p.card.present = false ∨ p.sel.getLsbD 0 = true ∨ p.card.phase = .failed) : p.fetchByte.2 = p := by
  unfold Spi.fetchByte Spi.selected
  split
  · rfl
  · rename_i hp
    split
    · rfl
    · rfl
    · rename_i hphase
      rcases h with h | h | h
      · simp [h] at hp
      · simp only [h, Bool.not_true, Bool.false_eq_true, if_false]
      · exact absurd h hphase

/-! ### What a read answers -/

theorem State.flagsWord_bits (s : State) :
    s.flagsWord.getLsbD 0 = s.flags.c ∧ s.flagsWord.getLsbD 1 = s.flags.z ∧ s.flagsWord.getLsbD 2 = s.flags.n ∧
      s.flagsWord.getLsbD 3 = s.flags.v ∧ s.flagsWord.getLsbD 8 = s.t ∧ s.flagsWord.getLsbD 9 = s.ie := by
  unfold State.flagsWord Flags.toBits
  generalize s.flags.c = c, s.flags.z = z, s.flags.n = n, s.flags.v = v, s.t = t, s.ie = ie
  revert c z n v t ie
  decide

/-- The four flags are seen in both modes, T and IE in kernel mode (`10_state.md` R125). -/
theorem State.flagsMask_bit {s : State} {i : Nat} (h : i < 4 ∨ s.mode = .kernel ∧ (i = 8 ∨ i = 9)) :
    s.flagsMask.getLsbD i = true := by
  unfold State.flagsMask
  rcases h with h | ⟨hm, rfl | rfl⟩
  · interval_cases i <;> cases s.mode <;> rfl
  · rw [hm]; rfl
  · rw [hm]; rfl

/-- The registers whose every read is a draw. -/
theorem State.readSpr_undefined {s t : State} {r : Spr} {v : Word} {n : Nat} (h : s.readSpr r = .ok (v, t))
    (hn : r.hasNumber n) (hu : undefinedSpr n) : v = Config.draw s.draws := by
  unfold undefinedSpr at hu
  cases r <;> simp only [Spr.hasNumber] at hn
  case undefined | reserved | uartTx | spiSelect | unassigned => cases h; rfl
  case userReserved => obtain ⟨b, _, hb⟩ := Action.bind_ok_iff.mp h; cases hb; rfl
  all_goals omega

/-- The registers of the context CONTEXT names. -/
theorem State.userBank_bind_ok {s : State} {α : Type} {f : Bank → α} {x : α}
    (h : (s.userBank.bind fun b => .ok (f b)) = .ok x) : x = f (s.bankOf s.context.toNat) := by
  obtain ⟨b, hb, hx⟩ := Action.bind_ok_iff.mp h
  obtain ⟨-, rfl⟩ := State.userBank_ok_iff.mp hb
  cases hx
  rfl

theorem State.readSpr_userGen {s t : State} {i : RegField} {v : Word} (h : s.readSpr (.userGen i) = .ok (v, t)) :
    v = (s.bankOf s.context.toNat).get i := by
  simp only [State.readSpr] at h
  split at h
  · cases h
  · exact congrArg Prod.fst (State.userBank_bind_ok h)

/-- A read that answers is the one the spec states. -/
theorem State.sprRead_reads {s t : State} {k v : Word} (h : s.sprRead k = .ok (v, t)) : SprReads s k v where
  link := by rintro rfl; cases State.sprRead_as (r := .link) h rfl; rfl
  flags := by
    rintro rfl
    cases State.sprRead_as (r := .flags) h rfl
    obtain ⟨hc, hz, hn, hv, -, -⟩ := s.flagsWord_bits
    refine ⟨?_, ?_, ?_, ?_⟩ <;> rw [mixBits_getLsbD _ _ _ _ (State.flagsMask_bit (.inl (by decide)))] <;> assumption
  trapBits := by
    rintro rfl hm
    cases State.sprRead_as (r := .flags) h rfl
    obtain ⟨-, -, -, -, ht, hie⟩ := s.flagsWord_bits
    refine ⟨?_, ?_⟩
    · rw [mixBits_getLsbD _ _ _ _ (State.flagsMask_bit (.inr ⟨hm, .inl rfl⟩)), ht]
    · rw [mixBits_getLsbD _ _ _ _ (State.flagsMask_bit (.inr ⟨hm, .inr rfl⟩)), hie]
  cycLo := by rintro rfl; cases State.sprRead_as (r := .cycLo) h rfl; rfl
  cycHi := by rintro rfl; cases State.sprRead_as (r := .cycHi) h rfl; rfl
  irr := by rintro rfl; cases State.sprRead_as (r := .irr) h rfl; rfl
  icr := by rintro rfl; cases State.sprRead_as (r := .icr) h rfl; rfl
  idr := by rintro rfl; cases State.sprRead_as (r := .idr) h rfl; rfl
  isr := by rintro rfl; cases State.sprRead_as (r := .isr) h rfl; rfl
  context := by rintro rfl; cases State.sprRead_as (r := .context) h rfl; rfl
  userGen i hk := State.readSpr_userGen (State.sprRead_as h hk)
  userCode slot hk := congrArg Prod.fst (State.userBank_bind_ok (State.sprRead_as (r := .userCode slot) h hk))
  userData slot hk := congrArg Prod.fst (State.userBank_bind_ok (State.sprRead_as (r := .userData slot) h hk))
  kernCode slot hk := by cases State.sprRead_as (r := .kernCode slot) h hk; rfl
  kernData slot hk := by cases State.sprRead_as (r := .kernData slot) h hk; rfl
  rxEmpty := by
    rintro rfl hq
    have h := State.sprRead_as (r := .uartRx) h rfl
    simp only [State.readSpr, Uart.receive, hq] at h
    cases h; rfl
  rxByte := by
    rintro rfl b rest hq
    have h := State.sprRead_as (r := .uartRx) h rfl
    simp only [State.readSpr, Uart.receive, hq] at h
    cases h; exact lowByte_mixBits b _
  txStatus := by
    rintro rfl
    cases State.sprRead_as (r := .uartTxStatus) h rfl
    obtain ⟨h0, h7, h15⟩ := statusWord_bits s.uart.txovf s.uart.txie s.uart.txq.isEmpty
    refine ⟨?_, ?_, ?_⟩ <;> rw [mixBits_getLsbD _ _ _ _ (by decide)]
    · exact h0
    · exact h7
    · exact h15.trans (by cases s.uart.txq <;> rfl)
  rxStatus := by
    rintro rfl
    cases State.sprRead_as (r := .uartRxStatus) h rfl
    obtain ⟨h0, h7, h15⟩ := statusWord_bits s.uart.rxunf s.uart.rxie (!s.uart.rxq.isEmpty)
    refine ⟨?_, ?_, ?_⟩ <;> rw [mixBits_getLsbD _ _ _ _ (by decide)]
    · exact h0
    · exact h7
    · exact h15.trans (by cases s.uart.rxq <;> simp)
  timeOut := by
    rintro rfl hp hf
    have h := State.sprRead_as (r := .spiData) h rfl
    simp only [State.readSpr, Spi.fetchByte_timeOut hp hf] at h
    cases h; exact lowByte_mixBits _ _
  reply := by
    rintro rfl hp hs hphase b rest hr
    have h := State.sprRead_as (r := .spiData) h rfl
    simp only [State.readSpr, Spi.fetchByte_reply hp hs hphase hr] at h
    cases h; exact lowByte_mixBits _ _
  undefined hu := by
    obtain ⟨hk, -, h⟩ := State.sprRead_ok_iff.mp h
    exact State.readSpr_undefined h (Spr.ofNumber_hasNumber k hk) hu

/-! ### What a read does to the devices -/

theorem State.readSpr_uart {s t : State} {r : Spr} {v : Word} (h : s.readSpr r = .ok (v, t)) (h1 : r ≠ .uartRx)
    (h2 : r ≠ .uartTxStatus) (h3 : r ≠ .uartRxStatus) : t.uart = s.uart := by
  cases r <;> simp only [State.readSpr] at h
  case userGen i =>
    split at h
    · cases h
    · exact congrArg (fun x => x.2.uart) (State.userBank_bind_ok h)
  case userReserved | userCode | userData => exact congrArg (fun x => x.2.uart) (State.userBank_bind_ok h)
  case uartRx | uartTxStatus | uartRxStatus => contradiction
  case spiData => split at h <;> (cases h; rfl)
  all_goals (cases h; rfl)

theorem State.readSpr_spi_eq {s t : State} {r : Spr} {v : Word} (h : s.readSpr r = .ok (v, t)) (h1 : r ≠ .spiData) :
    t.spi = s.spi := by
  cases r <;> simp only [State.readSpr] at h
  case userGen i =>
    split at h
    · cases h
    · exact congrArg (fun x => x.2.spi) (State.userBank_bind_ok h)
  case userReserved | userCode | userData => exact congrArg (fun x => x.2.spi) (State.userBank_bind_ok h)
  case uartRx => split at h <;> (cases h; rfl)
  case spiData => contradiction
  all_goals (cases h; rfl)

theorem State.readSpr_spiData {s t : State} {v : Word} (h : s.readSpr .spiData = .ok (v, t)) :
    t.spi = s.spi.fetchByte.2 := by
  simp only [State.readSpr] at h
  split at h <;> rename_i hf <;> (cases h; rw [hf])

theorem State.sprRead_register {s t : State} {k v : Word} (h : s.sprRead k = .ok (v, t)) :
    ∃ r, s.readSpr r = .ok (v, t) ∧ r.hasNumber k.toNat := by
  obtain ⟨hk, -, h⟩ := State.sprRead_ok_iff.mp h
  exact ⟨_, h, Spr.ofNumber_hasNumber k hk⟩

/-- A read that answers has the effect the spec states, and no other. -/
theorem State.sprRead_effect {s t : State} {k v : Word} (h : s.sprRead k = .ok (v, t)) : SprReadEffect s k t := by
  obtain ⟨r, hr, hn⟩ := State.sprRead_register h
  have hnumber {r' : Spr} {n : Nat} (hne : k ≠ BitVec.ofNat 16 n) (h16 : n < 2 ^ 16)
      (hone : r'.hasNumber k.toNat → k.toNat = n) : r ≠ r' := by
    rintro rfl
    exact hne (BitVec.eq_of_toNat_eq (by rw [hone hn, BitVec.toNat_ofNat, Nat.mod_eq_of_lt h16]))
  have hstate := State.readSpr_ok hr
  refine {
    processor := ?_, banks := ?_, mmu := ?_, link := ?_, flags := ?_, uart := ?_, receive := ?_, txStatus := ?_,
    rxStatus := ?_, spi := ?_, card := ?_ }
  · rw [hstate]; exact ⟨rfl, rfl, rfl, rfl, rfl, rfl, rfl, rfl, rfl, rfl, rfl, rfl, rfl⟩
  · rw [hstate]; exact fun _ _ => rfl
  · rw [hstate]; exact ⟨rfl, rfl⟩
  · rw [hstate]; rfl
  · rw [hstate]; rfl
  · intro h97 h98 h99
    exact State.readSpr_uart hr (hnumber h97 (by decide) id) (hnumber h98 (by decide) id) (hnumber h99 (by decide) id)
  · rintro rfl
    have hr := State.sprRead_as (r := .uartRx) h rfl
    simp only [State.readSpr, Uart.receive] at hr
    cases hq : s.uart.rxq <;> rw [hq] at hr <;> cases hr <;> simp
  · rintro rfl; cases State.sprRead_as (r := .uartTxStatus) h rfl; rfl
  · rintro rfl; cases State.sprRead_as (r := .uartRxStatus) h rfl; rfl
  · intro h100; exact State.readSpr_spi_eq hr (hnumber h100 (by decide) id)
  · rintro rfl
    have hspi := State.readSpr_spiData (State.sprRead_as (r := .spiData) h rfl)
    obtain ⟨reply, hreply⟩ := s.spi.fetchByte_spi
    rw [hspi]
    refine ⟨by rw [hreply], reply, by rw [hreply], fun hp hs hphase => ?_, fun hkeeps => ?_⟩
    · cases hq : s.spi.card.reply with
      | nil =>
        rw [Spi.fetchByte_timeOut hp (.inr hq)] at hreply
        have := congrArg (fun p => p.card.reply) hreply
        exact this.symm.trans hq
      | cons b rest =>
        rw [Spi.fetchByte_reply hp hs hphase hq] at hreply
        exact (congrArg (fun p => p.card.reply) hreply).symm
    · rw [Spi.fetchByte_keeps hkeeps] at hreply
      exact (congrArg (fun p => p.card.reply) hreply).symm

/-! ### The effect of a read in what follows it -/

theorem SameProcessor.trans {s t u : State} (h : SameProcessor s t) (h' : SameProcessor t u) : SameProcessor s u where
  mode := h'.mode.trans h.mode
  halted := h'.halted.trans h.halted
  trap := h'.trap.trans h.trap
  ie := h'.ie.trans h.ie
  context := h'.context.trans h.context
  irr := h'.irr.trans h.irr
  icr := h'.icr.trans h.icr
  idr := h'.idr.trans h.idr
  isr := h'.isr.trans h.isr
  cyc := h'.cyc.trans h.cyc
  platform := h'.platform.trans h.platform
  ticks := h'.ticks.trans h.ticks
  debugEvents := h'.debugEvents.trans h.debugEvents

/-- What leaves the devices, the MMU registers, LINK and the flags alone leaves the effect of a read. -/
theorem SprReadEffect.then {s t u : State} {k : Word} (h : SprReadEffect s k t) (hcontrol : SameControl t u)
    (hothers : SameOtherContexts t u) (hmmu : SameMmu t u) (hlink : u.link = t.link) (hflags : u.flags = t.flags) :
    SprReadEffect s k u := by
  obtain ⟨hprocessor, huart, hspi⟩ := hcontrol
  have hcur : t.cur = s.cur := State.cur_congr h.processor.mode h.processor.context
  refine {
    processor := h.processor.trans hprocessor
    banks := fun c hc => (hothers c (hcur ▸ hc)).trans (h.banks c hc)
    mmu := ⟨hmmu.1.trans h.mmu.1, hmmu.2.trans h.mmu.2⟩
    link := hlink.trans h.link
    flags := hflags.trans h.flags
    uart := ?_, receive := ?_, txStatus := ?_, rxStatus := ?_, spi := ?_, card := ?_ }
  · rw [huart]; exact h.uart
  · rw [huart]; exact h.receive
  · rw [huart]; exact h.txStatus
  · rw [huart]; exact h.rxStatus
  · rw [hspi]; exact h.spi
  · rw [hspi]; exact h.card

/-! ### When an access answers -/

/-- With a stated result the windows 16 to 63 are read in kernel mode with CONTEXT a user context's, and 16 is not
read. -/
theorem State.SprStated.context {s : State} {k : Word} (h : s.SprStated k) (hlo : 16 ≤ k.toNat) (hhi : k.toNat ≤ 63) :
    s.context ≠ 0#16 ∧ k ≠ 16#16 := by
  cases hm : s.mode with
  | user => have := h.1 hm; omega
  | kernel => obtain ⟨_, h16, hc⟩ := h.2 hm; exact ⟨hc ⟨hlo, hhi⟩, h16⟩

theorem State.userBank_of_context {s : State} (h : s.context ≠ 0#16) :
    s.userBank = .ok (s.bankOf s.context.toNat) := if_neg h

theorem userGen_ne_zero {k : Word} {i : RegField} (hn : k.toNat = 16 + i.toNat) (h16 : k ≠ 16#16) : i ≠ 0#3 := by
  rintro rfl
  exact h16 (BitVec.eq_of_toNat_eq hn)

theorem State.sprRead_of_stated {s : State} {k : Word} (h : s.SprStated k) : ∃ v t, s.sprRead k = .ok (v, t) := by
  obtain ⟨hk, hnum⟩ := State.sprNumber_of_stated h
  have hn := Spr.ofNumber_hasNumber k hk
  simp only [State.sprRead, hnum, Action.bind_ok]
  generalize Spr.ofNumber (k.extractLsb' 0 7) = r at hn
  cases r <;> simp only [Spr.hasNumber] at hn <;> simp only [State.readSpr]
  case userGen i =>
    obtain ⟨hcontext, h16⟩ := h.context (by omega) (by omega)
    rw [if_neg (userGen_ne_zero hn h16), State.userBank_of_context hcontext]
    exact ⟨_, _, rfl⟩
  case userReserved | userCode | userData =>
    obtain ⟨hcontext, -⟩ := h.context (by omega) (by omega)
    rw [State.userBank_of_context hcontext]
    exact ⟨_, _, rfl⟩
  case uartRx => split <;> exact ⟨_, _, rfl⟩
  case spiData => split <;> exact ⟨_, _, rfl⟩
  all_goals exact ⟨_, _, rfl⟩

/-! ### LSP and LSI -/

theorem exec_lsp_of_read {s r : State} {rA rB : RegField} {v : Word} (h : s.sprRead (s.reg rB) = .ok (v, r)) :
    exec (.lsp rA rB) s = .next (r.setReg rA v).advance := by
  simp only [exec, execLsp, h, Action.bind_ok, State.finish_ok]

/-- Settles O46: the read answers and has its effect, and writing rA leaves that effect. -/
theorem lspReads : Obligations.LspReads := by
  unfold Obligations.LspReads
  intro s rA rB hs
  obtain ⟨v, r, hr⟩ := State.sprRead_of_stated hs
  have hw := r.setReg_regWritten rA v (r.pc + 2)
  have heffect := (State.sprRead_effect hr).then hw.frame.control hw.frame.others hw.frame.mmu hw.link hw.flags
  obtain ⟨uart, spi, draws, rfl⟩ := State.sprRead_state hr
  exact ⟨_, v, exec_lsp_of_read hr, rfl, State.sprRead_reads hr, heffect, hw.frame.memory, hw.frame.stored,
    hw.frame.loaded, hw.value, hw.others⟩

theorem exec_lsi_of_store {s r t : State} {rA rB : RegField} {v : Word} (h : s.sprRead (s.reg rB) = .ok (v, r))
    (hw : r.storeWord (s.reg rA) v = .ok t) : exec (.lsi rA rB) s = .next t.advance := by
  simp only [exec, execLsi, h, hw]

theorem exec_lsi_of_fault {s r : State} {rA rB : RegField} {v : Word} {c : Cause}
    (h : s.sprRead (s.reg rB) = .ok (v, r)) (hw : r.storeWord (s.reg rA) v = .trap c) :
    exec (.lsi rA rB) s = .next ((s.afterFaultingRead r).raise c) := by
  simp only [exec, execLsi, h, hw]

theorem exec_lsi_of_stuck {s r : State} {rA rB : RegField} {v : Word} {f : Fault}
    (h : s.sprRead (s.reg rB) = .ok (v, r)) (hw : r.storeWord (s.reg rA) v = .stuck f) :
    exec (.lsi rA rB) s = .fault f := by
  simp only [exec, execLsi, h, hw]

/-- Settles O47: the read answers and has its effect, and the store of its word leaves that effect. -/
theorem lsiStores : Obligations.LsiStores := by
  unfold Obligations.LsiStores
  intro s rA rB hs hstore
  obtain ⟨v, r, hr⟩ := State.sprRead_of_stated hs
  have heffect := State.sprRead_effect hr
  have hreads := State.sprRead_reads hr
  obtain ⟨uart, spi, draws, rfl⟩ := State.sprRead_state hr
  have hexec := exec_lsi_of_store (rA := rA) hr (State.storeWord_ok_iff.mpr ⟨hstore, rfl⟩)
  have hframe := State.withWord_storeFrame { s with uart := uart, spi := spi, draws := draws }
    (s.physical .data (s.reg rA)) v (s.pc + 2)
  obtain ⟨hregs, hlink, hflags⟩ := hframe.registers
  obtain ⟨hlow, hhigh, hothers, hram⟩ := State.withWord_put { s with uart := uart, spi := spi, draws := draws }
    (s.physical .data (s.reg rA)) v
  exact ⟨_, v, hexec, rfl, hreads, heffect.then hframe.control hframe.others hframe.mmu hlink hflags, hregs,
    hlow, hhigh, hothers, hram⟩

theorem State.draws_sameControl (s : State) (n : Nat) : SameControl s { s with draws := n } :=
  ⟨⟨rfl, rfl, rfl, rfl, rfl, rfl, rfl, rfl, rfl, rfl, rfl, rfl, rfl⟩, rfl, rfl⟩

/-- The state in which the fault of LSI's store is taken: nothing has happened, or the read has. -/
theorem State.afterFaultingRead_cases {s r : State} {k v : Word} (h : s.sprRead k = .ok (v, r)) :
    s.afterFaultingRead r = { s with draws := (s.afterFaultingRead r).draws } ∨
      SprReadEffect s k (s.afterFaultingRead r) ∧ SameMemory s (s.afterFaultingRead r) ∧
        ∀ j, (s.afterFaultingRead r).reg j = s.reg j := by
  have heffect := (State.sprRead_effect h).then (r.draws_sameControl (r.draws + 1)) (fun _ _ => rfl) ⟨rfl, rfl⟩ rfl rfl
  obtain ⟨uart, spi, draws, rfl⟩ := State.sprRead_state h
  unfold State.afterFaultingRead
  split
  · exact .inr ⟨heffect, fun _ => rfl, fun _ => rfl⟩
  · exact .inl rfl

theorem State.afterFaultingRead_control {s r : State} {k v : Word} (h : s.sprRead k = .ok (v, r)) :
    (s.afterFaultingRead r).mode = s.mode ∧ (s.afterFaultingRead r).ie = s.ie ∧
      (s.afterFaultingRead r).pc = s.pc := by
  obtain ⟨uart, spi, draws, rfl⟩ := State.sprRead_state h
  unfold State.afterFaultingRead
  split <;> exact ⟨rfl, rfl, rfl⟩

/-- A store faults through an invalid and through a read-only page (`20_memory.md` R223). -/
theorem verdict_store_pageFault {p : Permission} (h : p = .invalid ∨ p = .readOnly) :
    verdict p .store = .pageFault := by
  rcases h with rfl | rfl <;> rfl

/-- Settles O27: the fault is taken in the state before or after the read, and nothing else has happened. -/
theorem lsiPageFault : Obligations.LsiPageFault := by
  unfold Obligations.LsiPageFault
  intro s rA rB hallowed hs hodd hperm
  obtain ⟨v, r, hr⟩ := State.sprRead_of_stated hs
  obtain ⟨hmode, hie, hpc⟩ := State.afterFaultingRead_control hr
  have hfault : r.storeWord (s.reg rA) v = .trap (.pageFault .data (s.reg rA) .store) := by
    obtain ⟨uart, spi, draws, rfl⟩ := State.sprRead_state hr
    exact State.storeWord_trap_iff.mpr ⟨hodd, verdict_store_pageFault hperm, rfl⟩
  have hallowed' : (s.afterFaultingRead r).TrapsAllowed := by
    unfold State.TrapsAllowed
    rwa [hmode, hie]
  refine ⟨s.afterFaultingRead r, _, exec_lsi_of_fault hr hfault, ?_, State.afterFaultingRead_cases hr⟩
  rw [State.raise_of_allowed _ hallowed', ← hpc]
  exact State.enterKernel_entered _ _

end Sys2Proof.Machine

/-! Proofs about special-register writes (`10_state.md` R122 to R142, `44_yop.md` R463, R464): what a write that answers
leaves in each part of the state, when it answers, and where SSP, SSI and the other accesses stop by name. -/

namespace Sys2Proof.Machine

/-! ### The banks after a write -/

/-- The bank of context `c` after a write of `v` to register `r` (`10_state.md` R124, R125, R134 to R139). -/
def State.bankAfter (s : State) (r : Spr) (v : Word) (c : Nat) : Bank :=
  let b := s.bankOf c
  match r with
  | .link => if c = s.cur then { b with link := v } else b
  | .flags => if c = s.cur then { b with flags := Flags.ofWord v } else b
  | .userGen i => if c = s.context.toNat then b.set i v else b
  | .userCode slot => if c = s.context.toNat then { b with cmmu := b.cmmu.set slot.toNat v slot.isLt } else b
  | .userData slot => if c = s.context.toNat then { b with dmmu := b.dmmu.set slot.toNat v slot.isLt } else b
  | .kernCode slot => if c = 0 then { b with cmmu := b.cmmu.set slot.toNat v slot.isLt } else b
  | .kernData slot => if c = 0 then { b with dmmu := b.dmmu.set slot.toNat v slot.isLt } else b
  | _ => b

theorem State.bankOf_setBankOf (s : State) (c d : Nat) (b : Bank) :
    (s.setBankOf c b).bankOf d = if d = c then b else s.bankOf d := by
  split
  · rename_i h; rw [h, State.bankOf_setBankOf_self]
  · rename_i h; exact s.bankOf_setBankOf_ne c d b h

/-- A bank replaced by one that is made from it. -/
theorem State.bankOf_setBankOf_map (s : State) (c d : Nat) (f : Bank → Bank) :
    (s.setBankOf c (f (s.bankOf c))).bankOf d = if d = c then f (s.bankOf d) else s.bankOf d := by
  rw [State.bankOf_setBankOf]
  split
  · rename_i h; rw [h]
  · rfl

theorem State.writeSpr_bankOf {s u : State} {r : Spr} {v : Word} (h : s.writeSpr r v = .ok u) (c : Nat) :
    u.bankOf c = s.bankAfter r v c := by
  cases r <;> simp only [State.writeSpr] at h
  case link => cases h; exact s.bankOf_setBankOf_map s.cur c fun b => { b with link := v }
  case flags =>
    cases h
    have hflags := s.bankOf_setBankOf_map s.cur c fun b => { b with flags := Flags.ofWord v }
    unfold State.writeFlags
    split <;> exact hflags
  case context => split at h <;> cases h; rfl
  case userGen i =>
    split at h
    · cases h
    · rw [State.userBank_bind_ok h]
      exact s.bankOf_setBankOf_map s.context.toNat c fun b => b.set i v
  case userReserved => rw [State.userBank_bind_ok h]; rfl
  case userCode slot =>
    rw [State.userBank_bind_ok h]
    exact s.bankOf_setBankOf_map s.context.toNat c fun b => { b with cmmu := b.cmmu.set slot.toNat v slot.isLt }
  case userData slot =>
    rw [State.userBank_bind_ok h]
    exact s.bankOf_setBankOf_map s.context.toNat c fun b => { b with dmmu := b.dmmu.set slot.toNat v slot.isLt }
  case kernCode slot =>
    split at h
    · cases h
    · cases h
      exact s.bankOf_setBankOf_map 0 c fun b => { b with cmmu := b.cmmu.set slot.toNat v slot.isLt }
  case kernData slot =>
    cases h
    exact s.bankOf_setBankOf_map 0 c fun b => { b with dmmu := b.dmmu.set slot.toNat v slot.isLt }
  all_goals (cases h; rfl)

theorem State.link_bankAfter (s : State) (r : Spr) (v : Word) (c : Nat) :
    (s.bankAfter r v c).link = if c = s.cur ∧ r = .link then v else (s.bankOf c).link := by
  unfold State.bankAfter
  cases r <;> simp <;> split <;> simp

theorem State.flags_bankAfter (s : State) (r : Spr) (v : Word) (c : Nat) :
    (s.bankAfter r v c).flags = if c = s.cur ∧ r = .flags then Flags.ofWord v else (s.bankOf c).flags := by
  unfold State.bankAfter
  cases r <;> simp <;> split <;> simp

theorem State.get_bankAfter (s : State) (r : Spr) (v : Word) (c : Nat) {i : RegField} (hi : i ≠ 0#3) :
    (s.bankAfter r v c).get i = if c = s.context.toNat ∧ r = .userGen i then v else (s.bankOf c).get i := by
  unfold State.bankAfter
  cases r
  case userGen j =>
    by_cases hc : c = s.context.toNat
    · by_cases hj : j = i
      · subst hj; simp [hc, Bank.get_set_self _ _ _ hi]
      · simp [hc, hj, Bank.get_set_ne _ _ _ _ (Ne.symm hj)]
    · simp [hc]
  all_goals simp
  all_goals split <;> rfl

theorem slot_toNat_inj {a b : BitVec 4} : a.toNat = b.toNat ↔ a = b := BitVec.toNat_inj

theorem State.cmmu_bankAfter (s : State) (r : Spr) (v : Word) (c : Nat) (slot : BitVec 4) :
    (s.bankAfter r v c).cmmu[slot.toNat]'(slot.isLt) =
      if c = 0 ∧ r = .kernCode slot ∨ c = s.context.toNat ∧ r = .userCode slot then v
      else (s.bankOf c).cmmu[slot.toNat]'(slot.isLt) := by
  unfold State.bankAfter
  cases r
  case userCode slot' =>
    by_cases hc : c = s.context.toNat <;> simp [hc, Vector.getElem_set, slot_toNat_inj]
  case kernCode slot' =>
    by_cases hc : c = 0 <;> simp [hc, Vector.getElem_set, slot_toNat_inj]
  all_goals simp
  all_goals split <;> simp

theorem State.dmmu_bankAfter (s : State) (r : Spr) (v : Word) (c : Nat) (slot : BitVec 4) :
    (s.bankAfter r v c).dmmu[slot.toNat]'(slot.isLt) =
      if c = 0 ∧ r = .kernData slot ∨ c = s.context.toNat ∧ r = .userData slot then v
      else (s.bankOf c).dmmu[slot.toNat]'(slot.isLt) := by
  unfold State.bankAfter
  cases r
  case userData slot' =>
    by_cases hc : c = s.context.toNat <;> simp [hc, Vector.getElem_set, slot_toNat_inj]
  case kernData slot' =>
    by_cases hc : c = 0 <;> simp [hc, Vector.getElem_set, slot_toNat_inj]
  all_goals simp
  all_goals split <;> simp

/-! ### The rest of the state after a write -/

/-- The state after a write, its banks aside: the six registers and devices a write can reach, and for each when it
does. -/
theorem State.writeSpr_eq {s u : State} {r : Spr} {v : Word} (h : s.writeSpr r v = .ok u) :
    u = { s with
      banks := u.banks
      t := if r = .flags ∧ s.mode = .kernel then v.getLsbD 8 else s.t
      irr := if r = .irr then v else s.irr
      isr := if r = .isr then v else s.isr
      context := if r = .context then v else s.context
      uart :=
        if r = .uartTx then s.uart.transmit (lowByte v)
        else if r = .uartTxStatus then { s.uart with txie := v.getLsbD 7 }
        else if r = .uartRxStatus then { s.uart with rxie := v.getLsbD 7 }
        else s.uart
      spi :=
        if r = .spiData then s.spi.send (lowByte v) else if r = .spiSelect then s.spi.select v else s.spi } := by
  cases r <;> simp only [State.writeSpr] at h
  case flags =>
    cases h
    unfold State.writeFlags
    cases hm : s.mode <;> simp [State.setFlags, State.setBank, State.setBankOf, hm]
  case context => split at h <;> cases h; rfl
  case userGen i =>
    split at h
    · cases h
    · rw [State.userBank_bind_ok h]; rfl
  case userReserved | userCode | userData => rw [State.userBank_bind_ok h]; rfl
  case kernCode => split at h <;> cases h; rfl
  all_goals (cases h; rfl)

/-- A number below 128 that an operand can hold, as a number. -/
theorem word_eq_ofNat_iff {k : Word} {n : Nat} (hn : n < 2 ^ 16) : k = BitVec.ofNat 16 n ↔ k.toNat = n := by
  rw [BitVec.toNat_eq, BitVec.toNat_ofNat, Nat.mod_eq_of_lt hn]

theorem Uart.transmit_eq (u : Uart) (b : Byte) :
    u.transmit b = if u.txq.length < 64 then { u with txq := u.txq ++ [b] } else { u with txovf := true } := rfl

/-- A write that answers leaves what the spec states, in every part of the state. -/
theorem State.sprWrite_written {s u : State} {k v : Word} (h : s.sprWrite k v = .ok u) : SprWritten s k v u := by
  obtain ⟨r, hnum, hw⟩ := Action.bind_ok_iff.mp h
  have hbank := State.writeSpr_bankOf hw
  have hstate := State.writeSpr_eq hw
  have number (r' : Spr) {n : Nat} (hn : n < 2 ^ 16) (hone : r'.hasNumber k.toNat ↔ k.toNat = n) :
      r = r' ↔ k = BitVec.ofNat 16 n :=
    ((State.sprNumber_eq_iff hnum r').trans hone).trans (word_eq_ofNat_iff hn).symm
  have window (r' : Spr) : r = r' ↔ r'.hasNumber k.toNat := State.sprNumber_eq_iff hnum r'
  refine {
    link := fun c => ?_, flags := fun c => ?_, trap := ?_, irr := ?_, isr := ?_, context := ?_
    regs := fun c i hi => ?_, cmmu := fun c slot => ?_, dmmu := fun c slot => ?_, uart := ?_, spi := ?_
    memory := ?_, stored := ?_, loaded := ?_, mode := ?_, halted := ?_, ie := ?_, icr := ?_, idr := ?_, cyc := ?_
    platform := ?_, ticks := ?_, debugEvents := ?_ }
  · simp only [hbank, State.link_bankAfter, number .link (n := 0) (by decide) Iff.rfl]
  · simp only [hbank, State.flags_bankAfter, number .flags (n := 1) (by decide) Iff.rfl]
    rfl
  · rw [hstate]; simp only [number .flags (n := 1) (by decide) Iff.rfl]
  · rw [hstate]; simp only [number .irr (n := 8) (by decide) Iff.rfl]
  · rw [hstate]; simp only [number .isr (n := 11) (by decide) Iff.rfl]
  · rw [hstate]; simp only [number .context (n := 15) (by decide) Iff.rfl]
  · simp only [hbank, State.get_bankAfter _ _ _ _ hi, window, Spr.hasNumber]
  · simp only [hbank, State.cmmu_bankAfter, window, Spr.hasNumber]
  · simp only [hbank, State.dmmu_bankAfter, window, Spr.hasNumber]
  · rw [hstate]
    simp only [number .uartTx (n := 96) (by decide) Iff.rfl, number .uartTxStatus (n := 98) (by decide) Iff.rfl,
      number .uartRxStatus (n := 99) (by decide) Iff.rfl, Uart.transmit_eq]
  · rw [hstate]
    simp only [number .spiData (n := 100) (by decide) Iff.rfl, number .spiSelect (n := 101) (by decide) Iff.rfl,
      Spi.select]
  all_goals rw [hstate]
  exact fun _ => rfl

theorem State.sprWrite_pc {s u : State} {k v : Word} (h : s.sprWrite k v = .ok u) : u.pc = s.pc := by
  rw [State.writeSpr_ok (State.sprWrite_ok_iff.mp h).2.2]

theorem SprWritten.advance {s u : State} {k v : Word} (h : SprWritten s k v u) : SprWritten s k v u.advance :=
  { h with }

/-! ### When a write answers -/

theorem State.sprWrite_of_stated {s : State} {k v : Word} (h : s.SprWriteStated k v) :
    ∃ u, s.sprWrite k v = .ok u := by
  obtain ⟨hs, hcontext, hremap⟩ := h
  obtain ⟨hk, hnum⟩ := State.sprNumber_of_stated hs
  have hn := Spr.ofNumber_hasNumber k hk
  simp only [State.sprWrite, hnum, Action.bind_ok]
  generalize Spr.ofNumber (k.extractLsb' 0 7) = r at hn
  cases r <;> simp only [Spr.hasNumber] at hn <;> simp only [State.writeSpr]
  case context => rw [if_pos (hcontext ((word_eq_ofNat_iff (by decide)).mpr hn))]; exact ⟨_, rfl⟩
  case userGen i =>
    obtain ⟨hc, h16⟩ := hs.context (by omega) (by omega)
    rw [if_neg (userGen_ne_zero hn h16), State.userBank_of_context hc]
    exact ⟨_, rfl⟩
  case userReserved | userCode | userData =>
    obtain ⟨hc, -⟩ := hs.context (by omega) (by omega)
    rw [State.userBank_of_context hc]
    exact ⟨_, rfl⟩
  case kernCode slot =>
    rw [if_neg fun ⟨hslot, hne⟩ => hne (hremap slot hslot hn)]
    exact ⟨_, rfl⟩
  all_goals exact ⟨_, rfl⟩

/-! ### SSP and SSI -/

theorem exec_ssp_of_write {s u : State} {rA rB : RegField} (h : s.sprWrite (s.reg rB) (s.reg rA) = .ok u) :
    exec (.ssp rA rB) s = .next u.advance := by
  simp only [exec, execSsp, h, Action.bind_ok, State.finish_ok]

/-- Settles O48: a write with a stated result answers, and leaves what the spec states. -/
theorem sspWrites : Obligations.SspWrites := by
  unfold Obligations.SspWrites
  intro s rA rB hs
  obtain ⟨u, hw⟩ := State.sprWrite_of_stated hs
  refine ⟨u.advance, exec_ssp_of_write hw, ?_, (State.sprWrite_written hw).advance⟩
  rw [State.pc_advance, State.sprWrite_pc hw]
  rfl

theorem exec_ssi_of_write {s u : State} {rA rB : RegField} {v : Word}
    (hv : s.loadWord .data (s.reg rB) .load = .ok v) (h : s.sprWrite (s.reg rA) v = .ok u) :
    exec (.ssi rA rB) s = .next u.advance := by
  obtain ⟨r, hr, hw⟩ := Action.bind_ok_iff.mp h
  simp only [exec, execSsi, hr, hv, hw, Action.bind_ok, State.finish_ok]

/-- Settles O49: the word is loaded, its write has a stated result and answers. -/
theorem ssiWrites : Obligations.SsiWrites := by
  unfold Obligations.SsiWrites
  intro s rA rB hread hs
  obtain ⟨u, hw⟩ := State.sprWrite_of_stated hs
  refine ⟨u.advance, exec_ssi_of_write (State.loadWord_ok_iff.mpr ⟨hread, rfl⟩) hw, ?_,
    s.readsWord .load _, (State.sprWrite_written hw).advance⟩
  rw [State.pc_advance, State.sprWrite_pc hw]
  rfl

/-! ### Accesses the spec states no result for -/

theorem State.privileged_stuck_of_kernel {s : State} (h : s.mode = .kernel) {x : Action State} {f : Fault}
    (hx : x = .stuck f) : s.privileged x = .fault f := by
  rw [State.privileged_of_kernel h, hx, State.finish_stuck]

theorem modeOfIsr_eq_none {w : Word} (hk : w ≠ isrEnc .kernel) (hu : w ≠ isrEnc .user) : modeOfIsr w = none := by
  rw [modeOfIsr, if_neg hu, if_neg hk]

/-- The four instructions on a special-register number that the check refuses. -/
theorem special_number_stops {s : State} {rB : RegField} {f : Fault} (h : s.sprNumber (s.reg rB) = .stuck f)
    (rA : RegField) :
    exec (.lsp rA rB) s = .fault f ∧ exec (.lsi rA rB) s = .fault f ∧ exec (.ssp rA rB) s = .fault f ∧
      exec (.ssi rB rA) s = .fault f := by
  refine ⟨?_, ?_, ?_, ?_⟩
  · simp only [exec, execLsp, State.sprRead, h, Action.bind_stuck, State.finish_stuck]
  · simp only [exec, execLsi, State.sprRead, h, Action.bind_stuck]
  · simp only [exec, execSsp, State.sprWrite, h, Action.bind_stuck, State.finish_stuck]
  · simp only [exec, execSsi, h, Action.bind_stuck, State.finish_stuck]

theorem exec_ssp_of_register {s : State} {rA rB : RegField} {r : Spr} (hr : s.sprNumber (s.reg rB) = .ok r) :
    exec (.ssp rA rB) s = s.finish ((s.writeSpr r (s.reg rA)).bind fun t => .ok t.advance) := by
  simp only [exec, execSsp, State.sprWrite, hr, Action.bind_ok]

theorem exec_ssi_of_register {s : State} {rB rC : RegField} {r : Spr} (hr : s.sprNumber (s.reg rB) = .ok r)
    (hread : s.CanReadWord .data (s.reg rC) .load) :
    exec (.ssi rB rC) s =
      s.finish ((s.writeSpr r (s.wordAt .data (s.reg rC) .load)).bind fun t => .ok t.advance) := by
  simp only [exec, execSsi, hr, State.loadWord_ok_iff.mpr ⟨hread, rfl⟩, Action.bind_ok]

/-- The four instructions on a register that neither a read nor a write reaches. -/
theorem special_access_stops {s : State} {rB : RegField} {r : Spr} {f : Fault} (hr : s.sprNumber (s.reg rB) = .ok r)
    (hread : s.readSpr r = .stuck f) (hwrite : ∀ v, s.writeSpr r v = .stuck f) (rA : RegField) :
    exec (.lsp rA rB) s = .fault f ∧ exec (.lsi rA rB) s = .fault f ∧ exec (.ssp rA rB) s = .fault f ∧
      ∀ rC, s.CanReadWord .data (s.reg rC) .load → exec (.ssi rB rC) s = .fault f := by
  refine ⟨?_, ?_, ?_, fun rC hload => ?_⟩
  · simp only [exec, execLsp, State.sprRead, hr, hread, Action.bind_ok, Action.bind_stuck, State.finish_stuck]
  · simp only [exec, execLsi, State.sprRead, hr, hread, Action.bind_ok]
  · rw [exec_ssp_of_register hr, hwrite, Action.bind_stuck, State.finish_stuck]
  · rw [exec_ssi_of_register hr hload, hwrite, Action.bind_stuck, State.finish_stuck]

/-- In kernel mode the check passes every number to 127, and tells the register by its number. -/
theorem State.sprNumber_of_kernel {s : State} {k : Word} {r : Spr} (hm : s.mode = .kernel)
    (hr : r.hasNumber k.toNat) : s.sprNumber k = .ok r := by
  have hk := Spr.number_le hr
  have hok : s.sprNumber k = .ok (Spr.ofNumber (k.extractLsb' 0 7)) :=
    State.sprNumber_ok_iff.mpr ⟨hk, fun hu => absurd (hm.symm.trans hu) (by decide), rfl⟩
  rw [hok, (State.sprNumber_eq_iff hok r).mpr hr]

/-- With CONTEXT = 0 the registers 17 to 63 cannot be accessed (`10_state.md` R134, R136, R137). -/
theorem State.context_zero_stops {s : State} {r : Spr} {n : Nat} (hn : r.hasNumber n) (hlo : 17 ≤ n) (hhi : n ≤ 63)
    (hc : s.context = 0#16) : s.readSpr r = .stuck .contextZero ∧ ∀ v, s.writeSpr r v = .stuck .contextZero := by
  have hbank : s.userBank = .stuck .contextZero := if_pos hc
  cases r <;> simp only [Spr.hasNumber] at hn
  case userGen i =>
    have hi : i ≠ 0#3 := by rintro rfl; simp at hn; omega
    simp only [State.readSpr, State.writeSpr, hbank, if_neg hi, Action.bind_stuck, implies_true, and_self]
  case userReserved | userCode | userData =>
    simp only [State.readSpr, State.writeSpr, hbank, Action.bind_stuck, implies_true, and_self]
  all_goals omega

theorem State.remap_stops {s : State} {slot : BitVec 4} {v : Word} (hslot : slot = s.pc.extractLsb' 12 4)
    (hv : v ≠ (s.bankOf 0).cmmu[slot.toNat]'(slot.isLt)) : s.writeSpr (.kernCode slot) v = .stuck .remapExecuting :=
  if_pos ⟨hslot, hv⟩

/-- Settles O16: each access by the register its number names, and where the read or the write of that one stops. -/
theorem unstatedSpecialAccessStops : Obligations.UnstatedSpecialAccessStops := by
  unfold Obligations.UnstatedSpecialAccessStops
  refine ⟨fun s hm hk hu => ?_, fun s hm hisr hc => ?_, fun s rA rB h => ?_, fun s rA rB hm h => ?_,
    fun s rA rB hm hc hlo hhi => ?_, fun s rA rB hm h => ?_, fun s rA rB slot hm hslot h => ?_⟩
  · rw [exec_rti]
    refine State.privileged_stuck_of_kernel hm ?_
    simp only [State.returnFromTrap, modeOfIsr_eq_none hk hu]
  · rw [exec_rti]
    refine State.privileged_stuck_of_kernel hm ?_
    simp only [State.returnFromTrap, hisr, modeOfIsr_isrEnc, hc, and_self, if_true]
  · exact special_number_stops (State.sprNumber_of_range h) rA
  · have hr : s.sprNumber (s.reg rB) = .ok (.userGen 0) := State.sprNumber_of_kernel hm (by rw [h]; rfl)
    exact special_access_stops hr rfl (fun _ => rfl) rA
  · obtain ⟨r, hr, hn⟩ : ∃ r, s.sprNumber (s.reg rB) = .ok r ∧ r.hasNumber (s.reg rB).toNat :=
      have hn := Spr.ofNumber_hasNumber (s.reg rB) (by omega)
      ⟨_, State.sprNumber_of_kernel hm hn, hn⟩
    obtain ⟨hread, hwrite⟩ := State.context_zero_stops hn hlo hhi hc
    exact special_access_stops hr hread hwrite rA
  · have hr : s.sprNumber (s.reg rB) = .ok .context := State.sprNumber_of_kernel hm (by rw [h]; rfl)
    refine ⟨?_, fun rC hload => ?_⟩
    · rw [exec_ssp_of_register hr]
      simp only [State.writeSpr]
      split <;> rfl
    · rw [exec_ssi_of_register hr hload]
      simp only [State.writeSpr]
      split <;> rfl
  · have hr : s.sprNumber (s.reg rB) = .ok (.kernCode slot) := State.sprNumber_of_kernel hm h
    refine ⟨fun hv => ?_, fun rC hload hv => ?_⟩
    · rw [exec_ssp_of_register hr, State.remap_stops hslot hv, Action.bind_stuck, State.finish_stuck]
    · rw [exec_ssi_of_register hr hload, State.remap_stops hslot hv, Action.bind_stuck, State.finish_stuck]

end Sys2Proof.Machine

/-! Proofs about what every step of user mode can reach (`60_exceptions.md` R628, R636, R637): its own registers, its own
writable pages, and trap entry. -/

namespace Sys2Proof.Machine

/-! ### One step of user mode -/

/-- What a step from the user-mode state `s` has reached in `u`, a trace trap's double fault aside: nothing beyond its
context, and it is still in user mode with the trap registers and IE as before, or it has entered the kernel. -/
structure UserStep (s u : State) : Prop where
  confined : Confined s u
  trap     : s.t = false → u.t = false
  way      : (u.mode = .user ∧ u.ie = s.ie ∧ u.irr = s.irr ∧ u.icr = s.icr ∧ u.idr = s.idr ∧ u.isr = s.isr) ∨
    (u.mode = .kernel ∧ u.ie = false ∧ u.isr = isrEnc .user ∧
      (∃ c, u.icr = icrCode c ∧ u.pc = vectorAddress (vectorOf c)) ∧
      (s.t = false → (∀ c, u.bankOf c = s.bankOf c) ∧ SameMemory s u))

/-- The host's moves are all that has happened to the UART before the instruction. -/
theorem State.tick_uart (s : State) : ∃ shown typed, s.tick.uart =
    { s.uart with
      txq := s.uart.txq.drop shown
      rxq := s.uart.rxq ++ typed
      console := s.uart.console ++ s.uart.txq.take shown } := s.tick_ticked.uart

theorem State.cur_of_user {s : State} (hm : s.mode = .user) : s.cur = s.context.toNat := by
  rw [State.cur, hm]

namespace UserStep

/-- Registers of the context, the pc and the model's counters. -/
theorem bank {s : State} (hm : s.mode = .user) {b : Bank} (hc : b.cmmu = s.bank.cmmu) (hd : b.dmmu = s.bank.dmmu)
    (p : Word) (draws events : Nat) :
    UserStep s { s.tick.setBank b with pc := p, draws := draws, debugEvents := events } := by
  have hcur : s.tick.cur = s.context.toNat := State.cur_of_user hm
  have hself : (s.tick.setBank b).bankOf s.context.toNat = b := by
    rw [← hcur]; exact s.tick.bank_setBank b
  have hbank : s.bankOf s.context.toNat = s.bank := by rw [State.bank, State.cur_of_user hm]
  refine ⟨?_, id, .inl ⟨hm, rfl, rfl, rfl, rfl, rfl⟩⟩
  exact {
    context := rfl, halted := rfl, trap := .inl rfl, spi := rfl, platform := rfl
    others := fun c hne => s.tick.bankOf_setBank_ne b c (hcur ▸ hne)
    cmmu := (congrArg Bank.cmmu hself).trans (hc.trans (congrArg Bank.cmmu hbank).symm)
    dmmu := (congrArg Bank.dmmu hself).trans (hd.trans (congrArg Bank.dmmu hbank).symm)
    uart := s.tick_uart
    memory := fun a h => absurd rfl h }

/-- Memory, where a data page of the context allows a store, and the model's counters. -/
theorem memory {s : State} (hm : s.mode = .user) {mem : List Host.Cell} {stored loaded : List (Nat × Bool)}
    (h : ∀ a, memRead mem a ≠ memRead s.mem a → ∃ va, s.permission .data va = .all ∧ s.physical .data va = a)
    (p : Word) (draws events : Nat) :
    UserStep s { s.tick with
      mem := mem, stored := stored, loaded := loaded, pc := p, draws := draws, debugEvents := events } where
  confined := {
    context := rfl, halted := rfl, trap := .inl rfl, spi := rfl, platform := rfl, others := fun _ _ => rfl
    cmmu := rfl, dmmu := rfl, uart := s.tick_uart, memory := h }
  trap := id
  way := .inl ⟨hm, rfl, rfl, rfl, rfl, rfl⟩

theorem tick {s : State} (hm : s.mode = .user) (p : Word) (draws events : Nat) :
    UserStep s { s.tick with pc := p, draws := draws, debugEvents := events } :=
  memory hm (fun _ h => absurd rfl h) p draws events

theorem verdict_store_allowed {p : Permission} (h : verdict p .store = .allowed) : p = .all := by
  cases p <;> cases h
  rfl

theorem putByte {s : State} (hm : s.mode = .user) {va : Word} (hc : s.CanStoreByte va) (b : Byte) (p : Word)
    (draws events : Nat) :
    UserStep s { s.tick.putByte (s.physical .data va) b with pc := p, draws := draws, debugEvents := events } := by
  refine memory hm (fun a ha => ⟨va, verdict_store_allowed hc.1, ?_⟩) p draws events
  by_contra hne
  exact ha (s.tick.putByte_ne (s.physical .data va) a b (Ne.symm hne))

/-- The byte above an even address is in the same page. -/
theorem withWord {s : State} (hm : s.mode = .user) {va : Word} (hc : s.CanStoreWord va) (v : Word) (p : Word)
    (draws events : Nat) :
    UserStep s { s.tick.withWord (s.physical .data va) v with pc := p, draws := draws, debugEvents := events } := by
  obtain ⟨hodd, hperm, -, -⟩ := hc
  obtain ⟨hphys, hsame⟩ := s.physical_succ .data va hodd
  refine memory hm (fun a ha => ?_) p draws events
  by_cases h0 : a = s.physical .data va
  · exact ⟨va, verdict_store_allowed hperm, h0.symm⟩
  by_cases h1 : a = s.physical .data va + 1#24
  · exact ⟨va + 1#16, hsame.trans (verdict_store_allowed hperm), hphys.trans h1.symm⟩
  · exact absurd ((s.tick.withWord_put _ v).others a (by simp [h0, h1])) ha

/-- Trap entry out of user mode changes no register and no memory of itself. -/
theorem enterKernel {s r : State} (h : UserStep s r) (hm : r.mode = .user)
    (hsame : s.t = false → (∀ c, r.bankOf c = s.bankOf c) ∧ SameMemory s r) (c : Cause) :
    UserStep s (r.raise c) := by
  rw [State.raise_of_allowed c (.inl hm)]
  refine ⟨{ h.confined with }, h.trap, .inr ⟨rfl, rfl, ?_, ⟨c, rfl, rfl⟩, hsame⟩⟩
  rw [State.isr_enterKernel, hm]

/-- A trace trap clears at most a T that was set. -/
theorem traceCleared {s u : State} (h : UserStep s u) (ht : s.t = true) (r : TrapBit) :
    UserStep s (u.traceCleared r) :=
  ⟨{ h.confined with trap := .inr ht }, fun hf => absurd (ht.symm.trans hf) (by decide), h.way⟩

/-- What an instruction does in user mode. -/
theorem of_did {s t : State} (hm : s.mode = .user) (h : UserDid s.tick t) : UserStep s t := by
  rcases h with ⟨d, b, p, hc, hd, rfl⟩ | ⟨p, d, e, rfl⟩ | ⟨d, ⟨va, b, hs, rfl⟩ | ⟨va, v, hs, rfl⟩⟩ | ⟨c, d, rfl⟩
  · exact bank hm hc hd p d s.debugEvents
  · exact tick hm p d e
  · exact putByte hm hs b _ d s.debugEvents
  · exact withWord hm hs v _ d s.debugEvents
  · exact enterKernel (tick hm s.pc d s.debugEvents) hm (fun _ => ⟨fun _ => rfl, fun _ => rfl⟩) c

/-- What a step does in user mode; with T = 1 a double fault may follow the entry. -/
theorem of_step {s t : State} (hm : s.mode = .user) (h : step s = .next t) :
    ∃ u, UserStep s u ∧ (t = u ∨ s.t = true ∧ u.mode = .kernel ∧ t = u.doubleFault) := by
  have hentry (c : Cause) : UserStep s (s.tick.raise c) :=
    enterKernel (tick hm s.pc s.draws s.debugEvents) hm (fun _ => ⟨fun _ => rfl, fun _ => rfl⟩) c
  have hexec {i : Instr} {u : State} (he : exec i s.tick = .next u) : UserStep s u := of_did hm (exec_userDid hm he)
  have htraced {u : State} (hu : UserStep s u) (hum : u.mode = .user) (ht : s.t = true) (r : TrapBit) :
      UserStep s ((u.traceCleared r).raise .traceTrap) :=
    enterKernel (hu.traceCleared ht r) hum (fun hf => absurd (ht.symm.trans hf) (by decide)) _
  by_cases hh : s.halted = true
  · have e : Machine.step s = .next s.idle := if_pos hh
    cases h.symm.trans e
    refine ⟨s.idle, ⟨?_, id, .inl ⟨hm, rfl, rfl, rfl, rfl, rfl⟩⟩, .inl rfl⟩
    exact { (tick hm s.pc s.draws s.debugEvents).confined with }
  · rcases step_did (by simpa using hh) h with ⟨c, rfl⟩ | ⟨w, _, ⟨_, he⟩ | ⟨⟨_, ht⟩, r, _, hr⟩⟩
    · exact ⟨_, hentry c, .inl rfl⟩
    · exact ⟨t, hexec he, .inl rfl⟩
    · rcases runTraced_did hr with rfl | ⟨u, he, ⟨hum, rfl⟩ | ⟨huk, rfl | rfl⟩⟩
      · exact ⟨_, htraced (tick hm s.pc s.draws s.debugEvents) hm ht r, .inl rfl⟩
      · exact ⟨_, htraced (hexec he) hum ht r, .inl rfl⟩
      · exact ⟨_, hexec he, .inl rfl⟩
      · exact ⟨u, hexec he, .inr ⟨ht, huk, rfl⟩⟩

end UserStep

/-- Settles O57: a step of user mode is an instruction's own effect, a permitted store or trap entry, and a trace trap
adds an entry or a double fault. -/
theorem userModeConfined : Obligations.UserModeConfined := by
  unfold Obligations.UserModeConfined
  intro s t hm h
  obtain ⟨u, hu, ht⟩ := UserStep.of_step hm h
  exact ⟨u, hu.confined, ht.imp_right fun ⟨hs, _, e⟩ => ⟨hs, e⟩, hu.trap, hu.way⟩

end Sys2Proof.Machine

/-! Proofs about the parts of the state that few instructions may change: the cycle counter, the mode, the interrupt
enable, T, the flags and the SD card (`10_state.md` R109, R111, `60_exceptions.md` R613, R637, R645, R665). -/

namespace Sys2Proof.Machine

/-! ### The SD card -/

/-- The error state is for good, whatever is sent (`60_exceptions.md` R665). -/
theorem Spi.send_of_failed {p : Spi} (h : p.card.phase = .failed) (b : Byte) :
    (p.send b).card.phase = .failed ∧ (p.send b).card.store = p.card.store := by
  unfold Spi.send
  split
  · exact ⟨h, rfl⟩
  split
  · simp only [SdCard.accept, h, SdPhase.onSelected, and_self]
  · simp only [SdCard.idleByte, h, and_self]

/-- Too few bytes of 0xFF before the card is selected (`60_exceptions.md` R665). -/
theorem Spi.send_of_idle {p : Spi} {n : Nat} (hp : p.card.present = true) (hs : p.sel.getLsbD 0 = false)
    (hphase : p.card.phase = .idle n) (hn : n < 10) (b : Byte) : (p.send b).card.phase = .failed := by
  simp only [Spi.send, hp, Spi.selected_iff.mpr hs, SdCard.accept, hphase, SdPhase.onSelected, hn, Bool.not_true,
    Bool.false_eq_true, if_false, if_true]

/-- Only an initialised card is in the phase `ready` when a byte comes. -/
theorem SdPhase.onSelected_eq_ready {p : SdPhase} (h : p.onSelected = .ready) : p = .ready := by
  unfold SdPhase.onSelected at h
  split at h
  · split at h <;> cases h
  · exact h

/-- Only CMD24 with a sector's address changes the store, and then its sector is the command's data. -/
theorem SdCard.storeAfter_cases (k : SdCard) (cmd : Option SdCommand) :
    k.storeAfter cmd = k.store ∨ ∃ address data, cmd = some (.cmd24 address data) ∧ k.hasSector address = true ∧
      ∀ a, sparseGet unlistedByte (k.storeAfter cmd) a =
        if h : address.toNat ≤ a ∧ a < address.toNat + 512 then data[a - address.toNat]'(by omega)
        else sparseGet unlistedByte k.store a := by
  unfold SdCard.storeAfter
  split
  · rename_i address data
    by_cases hs : k.hasSector address = true
    · refine .inr ⟨address, data, rfl, hs, fun a => ?_⟩
      rw [if_pos hs, sparseGet_sdWriteBytes]
      simp only [Vector.length_toList, Vector.getElem_toList]
    · exact .inl (if_neg hs)
  · exact .inl rfl

theorem Spi.send_store (p : Spi) (b : Byte) :
    (p.send b).card.store = p.card.store ∨
      p.card.phase = .ready ∧ (p.send b).card.store = p.card.storeAfter (sdCommand (p.card.received ++ [b])) := by
  rcases p.send_cases b with ⟨_, e⟩ | ⟨_, phase, hphase, _, _, e⟩ <;> rw [e]
  · exact .inl rfl
  · by_cases h : phase = .ready
    · exact .inr ⟨SdPhase.onSelected_eq_ready (hphase.symm.trans h), if_pos h⟩
    · exact .inl (if_neg h)

theorem Spi.send_of_selected {p : Spi} (hp : p.card.present = true) (hs : p.sel.getLsbD 0 = false) (b : Byte) :
    p.send b = { p with card := p.card.accept b } := by
  simp only [Spi.send, hp, Spi.selected_iff.mpr hs, Bool.not_true, Bool.false_eq_true, if_false, if_true]

/-- The response of an initialised card is made once its phase and its store are those after the byte. -/
theorem SdCard.accept_reply_of_ready {k : SdCard} (h : k.phase = .ready) (b : Byte) :
    ∃ moved : SdCard, moved.sectors = k.sectors ∧ moved.store = (k.accept b).store ∧
      (k.accept b).reply = moved.replyAfter (sdCommand (k.received ++ [b])) b := by
  let cmd := sdCommand (k.received ++ [b])
  refine ⟨{ k with phase := SdPhase.ready.after cmd, received := k.received ++ [b], store := k.storeAfter cmd },
    rfl, ?_, ?_⟩ <;> simp only [SdCard.accept, h, SdPhase.onSelected, if_true, cmd]

theorem SdCard.replyAfter_cmd17 {k : SdCard} {address : BitVec 32} (h : k.hasSector address = true) (b : Byte) :
    k.replyAfter (some (.cmd17 address)) b =
      (Config.sdReply k (some (.cmd17 address)) b).flatMap SdItem.bytes ++ k.sector address ++
        (Config.sdReadTail k).flatMap SdItem.bytes := by
  simp only [SdCard.replyAfter, h, if_true]

/-! ### What every exception leaves -/

theorem State.doubleFault_outcome (s : State) :
    Config.doubleFaultResets = true ∧ IsReset s.doubleFault ∨ HaltedFrom s s.doubleFault := by
  have h := s.doubleFault_isReset_or_haltedFrom
  by_cases hr : Config.doubleFaultResets = true
  · rw [if_pos hr] at h; exact .inl ⟨hr, h⟩
  · rw [if_neg hr] at h; exact .inr h

/-- The three outcomes of taking an exception. -/
theorem State.raise_outcome (s : State) (c : Cause) :
    Config.doubleFaultResets = true ∧ IsReset (s.raise c) ∨ HaltedFrom s (s.raise c) ∨
      Entered s c (s.returnPc c) (s.raise c) := by
  rcases s.raise_cases c with ⟨_, e⟩ | ⟨_, e⟩ <;> rw [e]
  · exact s.doubleFault_outcome.imp_right .inl
  · exact .inr (.inr (s.enterKernel_entered c))

/-! ### What an instruction leaves of the status -/

/-- The instructions `10_state.md` R109 names as those that write the arithmetic flags. -/
def WritesFlags (i : Instr) (s : State) : Prop :=
  (∃ rA rB imm7, i = .adi rA rB imm7) ∨
  (∃ rA rB rC, i = .sbb rA rB rC ∨ i = .adc rA rB rC ∨ i = .sub rA rB rC ∨ i = .add rA rB rC ∨
    i = .xor rA rB rC ∨ i = .or rA rB rC ∨ i = .and rA rB rC) ∨
  (∃ rA rB, i = .tst rA rB ∨ i = .ssp rA rB ∧ s.reg rB = 1#16 ∨ i = .ssi rA rB ∧ s.reg rA = 1#16) ∨
  (∃ rA, i = .not rA ∨ i = .neg rA ∨ i = .dub rA ∨ i = .sxt rA ∨ i = .sra rA ∨ i = .srl rA) ∨
  i = .ccf ∨ i = .scf

/-- SSP or SSI of special register 1, FLAGS. -/
def WritesFlagsRegister (i : Instr) (s : State) : Prop :=
  ∃ rA rB, i = .ssp rA rB ∧ s.reg rB = 1#16 ∨ i = .ssi rA rB ∧ s.reg rA = 1#16

theorem WritesFlagsRegister.writesFlags {i : Instr} {s : State} (h : WritesFlagsRegister i s) : WritesFlags i s := by
  obtain ⟨rA, rB, h⟩ := h
  exact .inr (.inr (.inl ⟨rA, rB, .inr h⟩))

/-- RTI's return (`60_exceptions.md` R630). -/
def Returned (i : Instr) (s t : State) : Prop :=
  i = .rti ∧ s.isr = isrEnc t.mode ∧ ¬(t.mode = .user ∧ s.context = 0#16) ∧ t.pc = s.irr

/-- What instruction `i` leaves of cycle counter, mode, IE, T, flags and card where it ends without an exception. -/
structure Completed (i : Instr) (s t : State) : Prop where
  cyc   : t.cyc = s.cyc
  mode  : t.mode = s.mode ∨ Returned i s t
  ie    : t.ie = s.ie ∨ i = .di ∨ i = .ei ∨ i = .rti
  trap  : t.t = s.t ∨ s.mode = .kernel ∧ WritesFlagsRegister i s
  flags : (∀ c, (t.bankOf c).flags = (s.bankOf c).flags) ∨ WritesFlags i s
  card  : s.spi.card.phase = .failed → t.spi.card.phase = .failed ∧ t.spi.card.store = s.spi.card.store

/-- What does not write any of them. -/
structure StatusKept (s t : State) : Prop where
  cyc   : t.cyc = s.cyc
  mode  : t.mode = s.mode
  ie    : t.ie = s.ie
  trap  : t.t = s.t
  flags : ∀ c, (t.bankOf c).flags = (s.bankOf c).flags
  phase : t.spi.card.phase = s.spi.card.phase
  store : t.spi.card.store = s.spi.card.store

theorem StatusKept.completed {s t : State} (h : StatusKept s t) (i : Instr) : Completed i s t where
  cyc := h.cyc
  mode := .inl h.mode
  ie := .inl h.ie
  trap := .inl h.trap
  flags := .inl h.flags
  card hf := ⟨h.phase.trans hf, h.store⟩

theorem StatusKept.refl (s : State) : StatusKept s s := ⟨rfl, rfl, rfl, rfl, fun _ => rfl, rfl, rfl⟩

theorem StatusKept.pc {s t : State} (h : StatusKept s t) (p : Word) : StatusKept s { t with pc := p } := { h with }

/-- A bank of the current context with the same flags. -/
theorem StatusKept.setBank {s t : State} (h : StatusKept s t) {b : Bank} (hb : b.flags = t.bank.flags) :
    StatusKept s (t.setBank b) where
  cyc := h.cyc
  mode := h.mode
  ie := h.ie
  trap := h.trap
  flags c := by
    rw [State.setBank, State.bankOf_setBankOf]
    split
    · rename_i hc; rw [hb, ← h.flags c, hc]; rfl
    · exact h.flags c
  phase := h.phase
  store := h.store

theorem RegistersNotFlags.statusKept {s t : State} (h : RegistersNotFlags s t) : StatusKept s t := by
  obtain ⟨b, p, _, _, hb, rfl⟩ := h
  exact ((StatusKept.refl s).setBank hb).pc p

theorem RegistersOnly.completed {i : Instr} {s t : State} (h : RegistersOnly s t) (hi : WritesFlags i s) :
    Completed i s t := by
  obtain ⟨b, p, _, _, rfl⟩ := h
  exact ⟨rfl, .inl rfl, .inl rfl, .inl rfl, .inr hi, fun hf => ⟨hf, rfl⟩⟩

theorem Stored.statusKept {s t : State} (h : Stored s t) : StatusKept s t := by
  rcases h with ⟨_, _, _, rfl⟩ | ⟨_, _, _, rfl⟩ <;> exact ⟨rfl, rfl, rfl, rfl, fun _ => rfl, rfl, rfl⟩

theorem State.sprRead_statusKept {s r : State} {k v : Word} (h : s.sprRead k = .ok (v, r)) : StatusKept s r := by
  obtain ⟨reply, hspi⟩ := State.readSpr_spi (State.sprRead_ok_iff.mp h).2.2
  obtain ⟨uart, spi, draws, rfl⟩ := State.sprRead_state h
  exact ⟨rfl, rfl, rfl, rfl, fun _ => rfl, by rw [hspi], by rw [hspi]⟩

/-- LSP and LSI have kept the status, or LSI's fault is raised in a state that has. -/
theorem ReadSpr.status {s t : State} {k : Word} (h : ReadSpr s k t) :
    StatusKept s t ∨ ∃ r c, StatusKept s r ∧ t = r.raise c := by
  obtain ⟨v, r, hr, h⟩ := h
  have hkept := State.sprRead_statusKept hr
  rcases h with ⟨rA, rfl⟩ | ⟨va, _, rfl⟩ | ⟨c, rfl⟩
  · exact .inl ((hkept.setBank (r.bank.flags_set rA v)).pc _)
  · exact .inl { hkept with }
  · refine .inr ⟨_, c, ?_, rfl⟩
    unfold State.afterFaultingRead
    split
    · exact { hkept with }
    · exact { StatusKept.refl s with }

/-- SSP and SSI write T and the flags through special register 1 only. -/
theorem WroteSpr.completed {i : Instr} {s t : State} {k : Word} (h : WroteSpr s k t)
    (hi : k = 1#16 → WritesFlagsRegister i s) : Completed i s t := by
  obtain ⟨v, u, hw, rfl⟩ := h
  have hu := State.sprWrite_written hw
  refine ⟨hu.cyc, .inl hu.mode, .inl hu.ie, ?_, ?_, fun hf => ?_⟩
  · have htrap := hu.trap
    split at htrap
    · rename_i hk; exact .inr ⟨hk.2, hi hk.1⟩
    · exact .inl htrap
  · by_cases hk : k = 1#16
    · exact .inr (hi hk).writesFlags
    · exact .inl fun c => (hu.flags c).trans (if_neg fun h => hk h.2)
  · show u.spi.card.phase = _ ∧ u.spi.card.store = _
    rw [hu.spi]
    split
    · exact Spi.send_of_failed hf _
    · split <;> exact ⟨hf, rfl⟩

/-- An instruction that has a next state has completed, or an exception was raised with the status as before. -/
theorem exec_status {i : Instr} {s t : State} (h : exec i s = .next t) :
    Completed i s t ∨ ∃ r c, StatusKept s r ∧ t = r.raise c := by
  have hd := exec_did h
  have hraise {t : State} (h : ∃ c, t = s.raise c) : ∃ r c, StatusKept s r ∧ t = r.raise c := by
    obtain ⟨c, e⟩ := h
    exact ⟨s, c, .refl s, e⟩
  cases i <;> simp only [Did] at hd
  case ldw | ldb | lcw => exact hd.imp (fun d => d.statusKept.completed _) hraise
  case stw | stb => exact hd.imp (fun d => d.statusKept.completed _) hraise
  case lui | brl | jal => exact .inl (hd.statusKept.completed _)
  case br | brz | brnz | brc | brnc | brsge | brslt | ji =>
    obtain ⟨p, rfl⟩ := hd
    exact .inl (((StatusKept.refl s).pc p).completed _)
  case lsp | lsi =>
    rcases hd with hd | hd
    · exact hd.status.imp_left fun d => d.completed _
    · exact .inr (hraise hd)
  case ssp rA rB => exact hd.imp (fun d => d.completed fun hk => ⟨rA, rB, .inl ⟨rfl, hk⟩⟩) hraise
  case ssi rA rB => exact hd.imp (fun d => d.completed fun hk => ⟨rA, rB, .inr ⟨rfl, hk⟩⟩) hraise
  case sys | illegalSysRb | die | illegalZero => exact .inr (hraise hd)
  case di =>
    refine hd.imp (fun ⟨_, e⟩ => e ▸ ?_) (fun d => hraise d.2)
    exact ⟨rfl, .inl rfl, .inr (.inl rfl), .inl rfl, .inl fun _ => rfl, fun hf => ⟨hf, rfl⟩⟩
  case ei =>
    refine hd.imp (fun ⟨_, e⟩ => e ▸ ?_) (fun d => hraise d.2)
    exact ⟨rfl, .inl rfl, .inr (.inr (.inl rfl)), .inl rfl, .inl fun _ => rfl, fun hf => ⟨hf, rfl⟩⟩
  case hlt =>
    refine hd.imp (fun ⟨_, e⟩ => e ▸ ?_) (fun d => hraise d.2)
    exact ⟨rfl, .inl rfl, .inl rfl, .inl rfl, .inl fun _ => rfl, fun hf => ⟨hf, rfl⟩⟩
  case rti =>
    refine hd.imp (fun ⟨_, m, hisr, hcontext, e⟩ => e ▸ ?_) (fun d => hraise d.2)
    exact ⟨rfl, .inr ⟨rfl, hisr, hcontext, rfl⟩, .inr (.inr (.inr rfl)), .inl rfl, .inl fun _ => rfl,
      fun hf => ⟨hf, rfl⟩⟩
  case brk =>
    obtain ⟨_, rfl⟩ := hd
    exact .inl ⟨rfl, .inl rfl, .inl rfl, .inl rfl, .inl fun _ => rfl, fun hf => ⟨hf, rfl⟩⟩
  case adi => exact .inl (hd.completed (.inl ⟨_, _, _, rfl⟩))
  case tst => exact .inl (hd.completed (.inr (.inr (.inl ⟨_, _, .inl rfl⟩))))
  case ccf => exact .inl (hd.completed (.inr (.inr (.inr (.inr (.inl rfl))))))
  case scf => exact .inl (hd.completed (.inr (.inr (.inr (.inr (.inr rfl))))))
  case not rA | neg rA | dub rA | sxt rA | sra rA | srl rA =>
    exact .inl (hd.completed (.inr (.inr (.inr (.inl ⟨rA, by simp⟩)))))
  case sbb rA rB rC | adc rA rB rC | sub rA rB rC | add rA rB rC | xor rA rB rC | or rA rB rC | and rA rB rC =>
    exact .inl (hd.completed (.inr (.inl ⟨rA, rB, rC, by simp⟩)))

/-! ### The four statements -/

/-- Settles O59: an instruction that has completed wrote what it names, and an exception only clears IE on its way into
the kernel, a reset aside. -/
theorem statusWrittenOnlyByItsInstructions : Obligations.StatusWrittenOnlyByItsInstructions := by
  unfold Obligations.StatusWrittenOnlyByItsInstructions
  intro i s t h hreset
  rcases exec_status h with hc | ⟨r, c, hr, rfl⟩
  · refine ⟨fun ⟨c, hne⟩ => hc.flags.resolve_left fun hsame => hne (hsame c), fun hne => ?_,
      fun hne => hc.trap.resolve_left hne⟩
    rcases hc.ie.resolve_left hne with h | h | h
    · exact .inl h
    · exact .inr (.inl h)
    · exact .inr (.inr (.inl h))
  · rcases r.raise_outcome c with h | h | h
    · exact absurd h hreset
    · refine ⟨fun ⟨c', hne⟩ => absurd ?_ hne, fun hne => absurd (h.ie.trans hr.ie) hne,
        fun hne => absurd (h.trap.trans hr.trap) hne⟩
      rw [h.banks, hr.flags]
    · refine ⟨fun ⟨c', hne⟩ => absurd ?_ hne, fun _ => .inr (.inr (.inr ⟨h.mode, h.ie, ?_, c, ?_⟩)),
        fun hne => absurd (h.trap.trans hr.trap) hne⟩
      · rw [h.banks, hr.flags]
      · rw [h.isr, hr.mode]
      · exact BitVec.eq_of_toNat_eq (h.pc.trans (vectorAddress_toNat _).symm)

/-- The first part of O60: no instruction leaves the error state. -/
theorem exec_card_failed {i : Instr} {s t : State} (h : exec i s = .next t) (hf : s.spi.card.phase = .failed) :
    t.spi.card.phase = .failed ∧ t.spi.card.store = s.spi.card.store ∨
      (Config.doubleFaultResets = true ∧ IsReset t) := by
  rcases exec_status h with hc | ⟨r, c, hr, rfl⟩
  · exact .inl (hc.card hf)
  · have hkept (hspi : (r.raise c).spi = r.spi) :
        (r.raise c).spi.card.phase = .failed ∧ (r.raise c).spi.card.store = s.spi.card.store := by
      rw [hspi]
      exact ⟨hr.phase.trans hf, hr.store⟩
    rcases r.raise_outcome c with h | h | h
    · exact .inr h
    · exact .inl (hkept h.spi)
    · exact .inl (hkept h.spi)

/-- Settles O60: the device operations by phase and command, and of the instructions that only SSP and SSI send a
byte. -/
theorem sdCardErrorStateIsForGood : Obligations.SdCardErrorStateIsForGood := by
  unfold Obligations.SdCardErrorStateIsForGood
  refine ⟨fun i s t => exec_card_failed, fun p => Spi.fetchByte_timeOut,
    fun p n b hp hs hphase hn => Spi.send_of_idle hp hs hphase hn b, fun p b => ?_, fun p b hp hs hphase => ?_,
    fun k b address hmod hend => ?_⟩
  · rcases p.send_store b with h | ⟨hready, h⟩
    · exact .inl h
    · rw [h]
      refine (p.card.storeAfter_cases _).imp_right fun ⟨address, data, hcmd, hsector, hget⟩ => ?_
      obtain ⟨hmod, hend⟩ := SdCard.hasSector_iff.mp hsector
      exact ⟨hready, address, data, hcmd, hmod, hend, hget⟩
  · rw [Spi.send_of_selected hp hs]
    exact SdCard.accept_reply_of_ready hphase b
  · exact ⟨_, _, SdCard.replyAfter_cmd17 (SdCard.hasSector_iff.mpr ⟨hmod, hend⟩) b⟩

/-- The counter moves only with the clock: an instruction leaves it, an exception leaves it or resets the machine. -/
theorem State.cyc_raise (s : State) (c : Cause) :
    (s.raise c).cyc = s.cyc ∨ Config.doubleFaultResets = true ∧ IsReset (s.raise c) := by
  rcases s.raise_outcome c with h | h | h
  · exact .inr h
  · exact .inl h.cyc
  · exact .inl h.cyc

theorem exec_cyc {i : Instr} {s t : State} (h : exec i s = .next t) :
    t.cyc = s.cyc ∨ Config.doubleFaultResets = true ∧ IsReset t := by
  rcases exec_status h with hc | ⟨r, c, hr, rfl⟩
  · exact .inl hc.cyc
  · exact (r.cyc_raise c).imp_left fun e => e.trans hr.cyc

theorem runTraced_cyc {s t : State} {r : TrapBit} {i : Instr} (h : s.runTraced r i = .next t) :
    t.cyc = s.cyc ∨ Config.doubleFaultResets = true ∧ IsReset t := by
  rcases runTraced_did h with rfl | ⟨u, he, hu⟩
  · exact (s.traceCleared r).cyc_raise .traceTrap
  · rcases hu with ⟨hum, rfl⟩ | ⟨_, rfl | rfl⟩
    · rcases exec_cyc he with e | ⟨_, hreset⟩
      · exact ((u.traceCleared r).cyc_raise .traceTrap).imp_left fun e' => e'.trans e
      · exact absurd (hum.symm.trans hreset.mode) (by decide)
    · exact exec_cyc he
    · rcases u.doubleFault_outcome with h | h
      · exact .inr h
      · rcases exec_cyc he with e | ⟨hcfg, _⟩
        · exact .inl (h.cyc.trans e)
        · have e : u.doubleFault = u.resetAgain := if_pos hcfg
          exact .inr ⟨hcfg, e ▸ u.resetAgain_isReset⟩

/-- Settles O20: the tick before the step advances the counter, and no part of the step moves it again. -/
theorem cycleCounterOnlyAdvances : Obligations.CycleCounterOnlyAdvances := by
  unfold Obligations.CycleCounterOnlyAdvances
  intro s t hh h
  rcases step_did hh h with ⟨c, rfl⟩ | ⟨w, _, ⟨_, he⟩ | ⟨_, r, _, hr⟩⟩
  · exact s.tick.cyc_raise c
  · exact exec_cyc he
  · exact runTraced_cyc hr

/-- A fetched word, as the two bytes that decode to its instruction. -/
theorem State.fetchesInstr_iff {s : State} {i : Instr} :
    s.FetchesInstr i ↔ ∃ w, s.fetch s.pc = .ok w ∧ decode w = i := by
  constructor
  · rintro ⟨hread, hstale, hbytes⟩
    exact ⟨_, State.fetch_ok_iff.mpr ⟨hread, hstale, rfl⟩, congrArg Prod.fst (Except.ok.inj hbytes)⟩
  · rintro ⟨w, hw, rfl⟩
    obtain ⟨hread, hstale, rfl⟩ := State.fetch_ok_iff.mp hw
    exact ⟨hread, hstale, rfl⟩

/-- Settles O11: out of the kernel only RTI's return changes the mode, since every exception ends in kernel mode; out of
user mode only trap entry does. -/
theorem modeChangesOnlyByEntryAndRti : Obligations.ModeChangesOnlyByEntryAndRti := by
  unfold Obligations.ModeChangesOnlyByEntryAndRti
  refine ⟨fun s t h hk hu => ?_, fun s t h hu hk => ?_, State.mode_raise, rfl⟩
  · have hnot (r : State) (c : Cause) (e : t = r.raise c) : False := by
      rw [e, State.mode_raise] at hu
      cases hu
    cases hh : s.halted with
    | true =>
      have e : step s = .next s.idle := if_pos hh
      cases h.symm.trans e
      exact absurd (hk.symm.trans hu) (by decide)
    | false =>
      rcases step_did hh h with ⟨c, e⟩ | ⟨w, hw, ⟨_, he⟩ | ⟨⟨hm, _⟩, _⟩⟩
      · exact (hnot _ c e).elim
      · rcases exec_status he with hc | ⟨r, c, _, e⟩
        · rcases hc.mode with hm | ⟨hi, hisr, hcontext, hpc⟩
          · exact absurd ((hk.symm.trans hm.symm).trans hu) (by decide)
          · rw [hu] at hisr
            exact ⟨State.fetchesInstr_iff.mpr ⟨w, hw, hi⟩, hisr, fun hz => hcontext ⟨hu, hz⟩, hpc⟩
        · exact (hnot r c e).elim
      · exact absurd (hk.symm.trans hm) (by decide)
  · obtain ⟨u, hstep, ht⟩ := UserStep.of_step hu h
    have huk : u.mode = .kernel := by
      rcases ht with rfl | ⟨_, huk, _⟩
      · exact hk
      · exact huk
    rcases hstep.way with ⟨hum, _⟩ | ⟨_, hie, hisr, ⟨c, hicr, hpc⟩, _⟩
    · exact absurd (huk.symm.trans hum) (by decide)
    · exact ⟨c, u, hpc, hicr, hisr, hie, huk, ht.imp_right fun ⟨hs, _, e⟩ => ⟨hs, e⟩⟩

end Sys2Proof.Machine

/-! Proofs about the step (`00_scope.md` R20, `60_exceptions.md` R605, R611 to R615) and about taking an exception (R620
to R629): the order of checks, the trap bit, the interrupt, and the instructions that are an exception or stop the
machine. -/

namespace Sys2Proof.Machine

/-! ### The order of checks in a step -/

theorem step_of_running {s : State} (hh : s.halted = false) : step s = s.tick.runStep :=
  if_neg (by simp [hh])

theorem step_of_halted {s : State} (hh : s.halted = true) : step s = .next s.idle := if_pos hh

theorem State.runStep_of_due {s : State} (h : s.interruptDue = true) : s.runStep = .next (s.raise .uart) := if_pos h

theorem State.runStep_of_fetch {s : State} {w : Word} (hi : s.interruptDue = false) (hf : s.fetch s.pc = .ok w) :
    s.runStep = s.runWord w := by
  simp only [State.runStep, hi, hf, Bool.false_eq_true, if_false]

theorem State.runStep_of_fault {s : State} {c : Cause} (hi : s.interruptDue = false) (hf : s.fetch s.pc = .trap c) :
    s.runStep = .next (s.raise c) := by
  simp only [State.runStep, hi, hf, Bool.false_eq_true, if_false]

theorem State.runStep_of_stuck {s : State} {f : Fault} (hi : s.interruptDue = false) (hf : s.fetch s.pc = .stuck f) :
    s.runStep = .fault f := by
  simp only [State.runStep, hi, hf, Bool.false_eq_true, if_false]

theorem State.runWord_of_untraced {s : State} (w : Word) (h : s.mode = .user → s.t = false) :
    s.runWord w = exec (decode w) s :=
  if_neg fun ⟨hm, ht⟩ => absurd (ht.symm.trans (h hm)) (by decide)

theorem State.runWord_of_traced {s : State} (w : Word) {r : TrapBit} (hm : s.mode = .user) (ht : s.t = true)
    (hr : Config.trapBit = some r) : s.runWord w = s.runTraced r (decode w) := by
  simp only [State.runWord, hm, ht, hr, and_self, if_true]

theorem State.runWord_of_trapBit_none {s : State} (w : Word) (hm : s.mode = .user) (ht : s.t = true)
    (hr : Config.trapBit = none) : s.runWord w = .fault .trapBit := by
  simp only [State.runWord, hm, ht, hr, and_self, if_true]

/-- Settles O4: no interrupt and no trap bit stand before the fetch and the decoded instruction. -/
theorem stepRunsDecodedInstruction : Obligations.StepRunsDecodedInstruction := by
  unfold Obligations.StepRunsDecodedInstruction
  intro s i hh hi ht hf
  obtain ⟨w, hw, rfl⟩ := State.fetchesInstr_iff.mp hf
  obtain ⟨hwf, -⟩ := decode_hasWord w
  refine ⟨hwf, ?_, s.tick_ticked⟩
  rw [step_of_running hh, State.runStep_of_fetch hi hw, State.runWord_of_untraced (s := s.tick) w ht]

/-- Settles O5: the fetch answers the page fault, and taking it is trap entry. -/
theorem stepFetchPageFault : Obligations.StepFetchPageFault := by
  unfold Obligations.StepFetchPageFault
  intro s hh hi hodd hperm hallowed
  have hfetch : s.tick.fetch s.tick.pc = .trap (.pageFault .code s.pc .fetch) :=
    State.fetch_trap_iff.mpr ⟨hodd, congrArg (verdict · .fetch) hperm, rfl⟩
  refine ⟨_, (step_of_running hh).trans (State.runStep_of_fault hi hfetch), ?_⟩
  rw [State.raise_of_allowed (s := s.tick) _ hallowed]
  exact s.tick.enterKernel_entered _

/-- The level of the interrupt in the terms of the FIFOs (`60_exceptions.md` R611). -/
theorem State.interruptDue_iff (s : State) : s.interruptDue = true ↔
    s.ie = true ∧ (s.uart.txie = true ∧ s.uart.txq = [] ∨ s.uart.rxie = true ∧ s.uart.rxq ≠ []) := by
  simp [State.interruptDue, Uart.pending]

/-- Settles O6: a due interrupt comes before the fetch, and it is never a double fault. -/
theorem stepTakesInterrupt : Obligations.StepTakesInterrupt := by
  unfold Obligations.StepTakesInterrupt
  refine ⟨fun s hh hie hpending => ?_, State.interruptDue_iff⟩
  have hdue : s.tick.interruptDue = true := s.tick.interruptDue_iff.mpr ⟨hie, hpending⟩
  refine ⟨_, (step_of_running hh).trans (State.runStep_of_due hdue), ?_, ?_⟩
  · rw [State.raise_uart]
    exact s.tick.enterKernel_entered .uart
  · rw [State.raise_uart, State.pc_enterKernel]
    decide

/-- Settles O8: the step of a halted machine is `idle`, whose parts are those of the machine before but for the clock
and the host's moves. -/
theorem haltedStays : Obligations.HaltedStays := by
  unfold Obligations.HaltedStays
  intro s hh
  exact ⟨s.idle, step_of_halted hh, hh, rfl, rfl, rfl, rfl, rfl, rfl, rfl, rfl, rfl, fun _ => rfl, fun _ => rfl, rfl,
    rfl, rfl, rfl, rfl, _, _, rfl⟩

/-! ### The trap bit -/

theorem State.traceCleared_of_set {s : State} (h : s.t = true) (r : TrapBit) :
    s.traceCleared r = { s with t := !r.clearsT } := by
  rw [State.traceCleared, h, Bool.true_and]

theorem State.runTraced_of_replaces {s : State} {r : TrapBit} (h : r.replaces = true) (i : Instr) :
    s.runTraced r i = .next ((s.traceCleared r).raise .traceTrap) := if_pos h

theorem State.runTraced_of_follows {s u : State} {r : TrapBit} {i : Instr} (h : ¬r.replaces = true)
    (he : exec i s = .next u) (hm : u.mode = .user) :
    s.runTraced r i = .next ((u.traceCleared r).raise .traceTrap) := by
  simp only [State.runTraced, h, he, hm, if_true, Bool.false_eq_true, if_false]

/-- In user mode an instruction that stays there leaves T (`60_exceptions.md` R605, D36). -/
theorem exec_trap_of_user {i : Instr} {s u : State} (hm : s.mode = .user) (he : exec i s = .next u)
    (hu : u.mode = .user) : u.t = s.t := by
  rcases exec_status he with hc | ⟨r, c, _, rfl⟩
  · exact hc.trap.resolve_right fun ⟨hk, _⟩ => absurd (hm.symm.trans hk) (by decide)
  · rw [State.mode_raise] at hu
    cases hu

/-- Settles O10: each value of `TRAP_BIT` by where the trap stands; in user mode it is trap entry. -/
theorem traceTrapStep : Obligations.TraceTrapStep := by
  unfold Obligations.TraceTrapStep
  intro s w hh hi hm ht hf
  have hstep : step s = s.tick.runWord w := (step_of_running hh).trans (State.runStep_of_fetch hi hf)
  cases hr : Config.trapBit with
  | none => exact hstep.trans (State.runWord_of_trapBit_none w hm ht hr)
  | some r =>
    have htraced : step s = s.tick.runTraced r (decode w) := hstep.trans (State.runWord_of_traced w hm ht hr)
    simp only
    split
    · rename_i hrep
      refine ⟨_, htraced.trans (State.runTraced_of_replaces hrep _), ?_⟩
      rw [State.traceCleared_of_set (s := s.tick) ht]
      exact State.raise_entered_of_user (s := { s.tick with t := !r.clearsT }) hm .traceTrap
    · rename_i hrep
      intro u he hu
      refine ⟨_, htraced.trans (State.runTraced_of_follows hrep he hu), ?_⟩
      rw [State.traceCleared_of_set ((exec_trap_of_user (s := s.tick) hm he hu).trans ht)]
      exact State.raise_entered_of_user (s := { u with t := !r.clearsT }) hu .traceTrap

/-! ### Taking an exception -/

theorem vectorOf_sys_toNat (n : BitVec 3) : (vectorOf (.sys n)).toNat = 8 + n.toNat := by
  revert n
  decide

/-- Settles O12: what is not a double fault is trap entry, cause by cause. -/
theorem trapEntry : Obligations.TrapEntry := by
  unfold Obligations.TrapEntry
  refine ⟨fun s c h => ?_, vectorOf_sys_toNat, by decide⟩
  have hraise : s.raise c = s.enterKernel c := by
    rcases h with h | rfl
    · exact s.raise_of_allowed c h
    · exact s.raise_uart
  rw [hraise]
  cases c <;> exact s.enterKernel_entered _

theorem Cause.isTfe_of_ne_uart {c : Cause} (h : c ≠ .uart) : c.isTfe = true := by
  cases c
  case uart => exact absurd rfl h
  all_goals rfl

/-- Settles O13: by the value of `DOUBLE_FAULT_RESETS`; a reset keeps the bytes that are provided. -/
theorem doubleFaultHaltsOrResets : Obligations.DoubleFaultHaltsOrResets := by
  unfold Obligations.DoubleFaultHaltsOrResets
  intro s c hc hm hie
  rw [State.raise_of_not_allowed (Cause.isTfe_of_ne_uart hc) hm hie]
  by_cases hcfg : Config.doubleFaultResets = true
  · have e : s.doubleFault = s.resetAgain := if_pos hcfg
    rw [if_pos hcfg, e]
    refine ⟨s.resetAgain_isReset, rfl, rfl, fun a ha => s.resetAgain_provided a ?_⟩
    simpa only [State.isProvided, Bool.or_eq_true, decide_eq_true_eq] using ha
  · have e : s.doubleFault = s.haltDouble := if_neg hcfg
    rw [if_neg hcfg, e]
    exact s.haltDouble_haltedFrom

theorem vectorAddress_inj {m n : BitVec 14} (h : vectorAddress m = vectorAddress n) : m = n := by
  have := congrArg BitVec.toNat h
  rw [vectorAddress_toNat, vectorAddress_toNat] at this
  exact BitVec.eq_of_toNat_eq (by omega)

/-- Settles O14: kinds that share a vector have codes that differ, by the law of `ICR_CODE`. -/
theorem icrTellsKinds : Obligations.IcrTellsKinds := by
  unfold Obligations.IcrTellsKinds
  intro s c d hallowed hkind
  rw [s.raise_of_allowed c hallowed, s.raise_of_allowed d hallowed]
  by_cases hvec : vectorOf c = vectorOf d
  · exact .inr (Config.icrCoding.law c d hkind hvec)
  · exact .inl fun hpc => hvec (vectorAddress_inj hpc)

/-! ### Instructions that raise, halt or stop -/

/-- Settles O51: SYS is the exception of its cause, on both paths. -/
theorem sysEnters : Obligations.SysEnters := by
  unfold Obligations.SysEnters
  intro s n
  refine ⟨fun hallowed => ⟨s.raise (.sys n), rfl, ?_⟩, fun hm hie => ⟨s.raise (.sys n), rfl, ?_⟩⟩
  · rw [s.raise_of_allowed _ hallowed]
    refine ⟨?_, s.enterKernel_entered (.sys n)⟩
    rw [State.pc_enterKernel, vectorAddress_toNat, vectorOf_sys_toNat]
    omega
  · rw [State.raise_of_not_allowed rfl hm hie]
    exact s.doubleFault_isReset_or_haltedFrom

/-- The four special-register instructions on a number that is illegal in user mode. -/
theorem special_number_raises {s : State} {i : Instr} {rA rB k : RegField} {c : Cause}
    (h : s.sprNumber (s.reg k) = .trap c)
    (hi : i = .lsp rA rB ∧ k = rB ∨ i = .lsi rA rB ∧ k = rB ∨ i = .ssp rA rB ∧ k = rB ∨ i = .ssi rA rB ∧ k = rA) :
    exec i s = .next (s.raise c) := by
  rcases hi with ⟨rfl, rfl⟩ | ⟨rfl, rfl⟩ | ⟨rfl, rfl⟩ | ⟨rfl, rfl⟩
  · simp only [exec, execLsp, State.sprRead, h, Action.bind_trap, State.finish_trap]
  · simp only [exec, execLsi, State.sprRead, h, Action.bind_trap]
  · simp only [exec, execSsp, State.sprWrite, h, Action.bind_trap, State.finish_trap]
  · simp only [exec, execSsi, h, Action.bind_trap, State.finish_trap]

theorem exec_hlt (s : State) : exec .hlt s = s.privileged (.ok { s.drawn with halted := true, pc := s.free }) := rfl

/-- Settles O53: the privilege check and the number check come first, and in user mode both are trap entry. -/
theorem privilegedInUserModeIsIllegal : Obligations.PrivilegedInUserModeIsIllegal := by
  unfold Obligations.PrivilegedInUserModeIsIllegal
  intro s hm
  refine ⟨fun i hi => ?_, fun i rA rB k hlo hhi hi => ?_⟩
  · rcases hi with rfl | rfl | rfl | rfl
    · rw [exec_di]; exact State.privileged_entered_of_user hm _
    · rw [exec_ei]; exact State.privileged_entered_of_user hm _
    · rw [exec_hlt]; exact State.privileged_entered_of_user hm _
    · rw [exec_rti]; exact State.privileged_entered_of_user hm _
  · have hnum : s.sprNumber (s.reg k) = .trap (.illegal .userSpr) :=
      State.sprNumber_trap_iff.mpr ⟨hhi, hm, hlo, rfl⟩
    exact ⟨_, special_number_raises hnum hi, State.raise_entered_of_user hm _⟩

/-- Settles O55: in kernel mode HLT passes the privilege check and changes the pc and the halted bit. -/
theorem hltHalts : Obligations.HltHalts := by
  unfold Obligations.HltHalts
  intro s hm
  refine ⟨{ s.drawn with halted := true, pc := s.free }, ?_, ?_, rfl, rfl, rfl, rfl⟩
  · rw [exec_hlt, State.privileged_of_kernel hm, State.finish_ok]
  · exact ⟨rfl, rfl, rfl, rfl, rfl, rfl, fun _ => rfl, fun _ => rfl, rfl, rfl, rfl, rfl, rfl, rfl, rfl⟩

theorem exec_brk_of_emulator {s : State} (h : s.platform.brk = .emulator) :
    exec .brk s = .next { s.advance with debugEvents := s.debugEvents + 1 } := by
  simp only [exec, execBrk, h]

theorem exec_brk_of_notGiven {s : State} (h : s.platform.brk = .notGiven) : exec .brk s = .fault .brkEffect := by
  simp only [exec, execBrk, h]

/-- Settles O56: by the value of `BRK_EFFECT`, which no mode check precedes. -/
theorem brkContinues : Obligations.BrkContinues := by
  unfold Obligations.BrkContinues
  refine ⟨fun s h => ⟨_, exec_brk_of_emulator h, rfl, ?_, ?_⟩, fun s h => exec_brk_of_notGiven h, rfl⟩
  · exact State.pc_sameRegisters { s with debugEvents := s.debugEvents + 1 } (s.pc + 2)
  · exact State.pc_registerFrame { s with debugEvents := s.debugEvents + 1 } (s.pc + 2)

end Sys2Proof.Machine

/-! Proofs about the arithmetic and logical instructions (`41_base_alu_imm.md`, `43_xop_alu.md`, `44_yop.md` R467,
`45_zop.md`, `46_vop.md` R501, R502): each is one write of a register and of the flags, and what is left is what the
result and the flags are. -/

namespace Sys2Proof.Machine

/-! ### One instruction -/

theorem State.pc_writeSum (s : State) (rA : RegField) (f : AddResult) : (s.writeSum rA f).pc = s.pc + 2#16 := rfl

theorem State.writeSum_regWritten (s : State) (rA : RegField) (f : AddResult) :
    RegWritten s rA f.r f.flags (s.writeSum rA f) :=
  s.setReg_setFlags_regWritten rA f.r f.flags _

theorem exec_add (rA rB rC : RegField) (s : State) :
    exec (.add rA rB rC) s = .next (s.writeSum rA (add16 (s.reg rB) (s.reg rC) false)) := rfl

theorem exec_adc (rA rB rC : RegField) (s : State) :
    exec (.adc rA rB rC) s = .next (s.writeSum rA (add16 (s.reg rB) (s.reg rC) s.flags.c)) := rfl

theorem exec_sub (rA rB rC : RegField) (s : State) :
    exec (.sub rA rB rC) s = .next (s.writeSum rA (sub16 (s.reg rB) (s.reg rC))) := rfl

theorem exec_sbb (rA rB rC : RegField) (s : State) :
    exec (.sbb rA rB rC) s = .next (s.writeSum rA (add16 (s.reg rB) (~~~(s.reg rC)) s.flags.c)) := rfl

/-- Settles O37: both are one sum written, with no carry in and with the carry flag. -/
theorem addAdc : Obligations.AddAdc := by
  unfold Obligations.AddAdc
  intro s rA rB rC
  exact ⟨⟨_, _, _, exec_add rA rB rC s, s.pc_writeSum rA _, add16_isSum _ _ _, s.writeSum_regWritten rA _⟩,
    ⟨_, _, _, exec_adc rA rB rC s, s.pc_writeSum rA _, add16_isSum _ _ _, s.writeSum_regWritten rA _⟩⟩

/-- Settles O38: both are one sum with the complement written, whose borrow is a clear carry. -/
theorem subSbb : Obligations.SubSbb := by
  unfold Obligations.SubSbb
  intro s rA rB rC
  exact ⟨⟨_, _, _, exec_sub rA rB rC s, s.pc_writeSum rA _, sub16_isDifference _ _, s.writeSum_regWritten rA _⟩,
    ⟨_, _, _, exec_sbb rA rB rC s, s.pc_writeSum rA _, add16_isDifference _ _ _, s.writeSum_regWritten rA _⟩⟩

/-- What ADI leaves. -/
def State.afterAdi (s : State) (rA rB : RegField) (imm7 : BitVec 7) : State :=
  let f := add16 (s.reg rB) (imm7.signExtend 16) false
  ((s.setRegL rA f.r).setFlags f.flags).advance

theorem exec_adi (rA rB : RegField) (imm7 : BitVec 7) (s : State) :
    exec (.adi rA rB imm7) s = .next (s.afterAdi rA rB imm7) := rfl

theorem State.pc_afterAdi (s : State) (rA rB : RegField) (imm7 : BitVec 7) :
    (s.afterAdi rA rB imm7).pc = s.pc + 2#16 := by
  rw [State.afterAdi, State.pc_advance, State.pc_setFlags, State.pc_setRegL]
  rfl

theorem State.afterAdi_regLinkWritten (s : State) (rA rB : RegField) (imm7 : BitVec 7) :
    RegLinkWritten s rA (add16 (s.reg rB) (imm7.signExtend 16) false).r
      (add16 (s.reg rB) (imm7.signExtend 16) false).flags (s.afterAdi rA rB imm7) :=
  s.setRegL_setFlags_regLinkWritten rA _ _ _

/-- Settles O28: one sum written through `xl`. -/
theorem adiAdds : Obligations.AdiAdds := by
  unfold Obligations.AdiAdds
  intro s rA rB imm7
  exact ⟨_, _, _, exec_adi rA rB imm7 s, s.pc_afterAdi rA rB imm7, add16_isSum _ _ _,
    s.afterAdi_regLinkWritten rA rB imm7⟩

theorem exec_tst (rA rB : RegField) (s : State) :
    exec (.tst rA rB) s = .next (s.setFlags (sub16 (s.reg rA) (s.reg rB)).flags).advance := rfl

/-- Settles O41: the flags of the difference, and no register. -/
theorem tstCompares : Obligations.TstCompares := by
  unfold Obligations.TstCompares
  intro s rA rB
  exact ⟨_, _, _, exec_tst rA rB s, rfl, sub16_isDifference _ _, s.setFlags_regWritten _ _ _⟩

theorem State.logic_regWritten (s : State) (op : LogicOp) (rA rB rC : RegField) :
    RegWritten s rA (logicResult op (s.reg rB) (s.reg rC)) (logicFlags op (s.reg rB) (s.reg rC) s.flags)
      (s.logic op rA rB rC) :=
  s.setReg_setFlags_regWritten rA _ _ _

/-- Z and N of a logical result (`00_scope.md` R17). -/
theorem logicFlags_zn (op : LogicOp) (a b : Word) (old : Flags) :
    (logicFlags op a b old).z = decide (logicResult op a b = 0#16) ∧
      (logicFlags op a b old).n = (logicResult op a b).getLsbD 15 :=
  ⟨rfl, BitVec.msb_eq_getLsbD_last (logicResult op a b)⟩

theorem exec_logic {s : State} {rA rB rC : RegField} {i : Instr} {r : Word}
    (h : i = .xor rA rB rC ∧ r = s.reg rB ^^^ s.reg rC ∨ i = .or rA rB rC ∧ r = s.reg rB ||| s.reg rC ∨
      i = .and rA rB rC ∧ r = s.reg rB &&& s.reg rC) :
    ∃ op, exec i s = .next (s.logic op rA rB rC) ∧ r = logicResult op (s.reg rB) (s.reg rC) := by
  rcases h with ⟨rfl, rfl⟩ | ⟨rfl, rfl⟩ | ⟨rfl, rfl⟩
  · exact ⟨.xor, rfl, rfl⟩
  · exact ⟨.or, rfl, rfl⟩
  · exact ⟨.and, rfl, rfl⟩

/-- Settles O40: the three operations share one meaning, with C and V as `LOGIC_CV` gives them. -/
theorem logicalResults : Obligations.LogicalResults := by
  unfold Obligations.LogicalResults
  intro s rA rB rC i r h
  obtain ⟨op, hexec, rfl⟩ := exec_logic h
  obtain ⟨hz, hn⟩ := logicFlags_zn op (s.reg rB) (s.reg rC) s.flags
  exact ⟨_, _, hexec, rfl, hz, hn, s.logic_regWritten op rA rB rC⟩

theorem zopResult_neg_add (a : Word) : zopResult .neg a + a = 0#16 := BitVec.sub_add_cancel 0#16 a

theorem zopResult_dub_bytes (a : Word) :
    (zopResult .dub a).extractLsb' 8 8 = a.extractLsb' 8 8 ∧
      (zopResult .dub a).extractLsb' 0 8 = a.extractLsb' 8 8 :=
  ⟨highByte_wordOfBytes _ _, lowByte_wordOfBytes _ _⟩

/-- Settles O42: three of the arithmetic ZOPs, by their results. -/
theorem notNegDub : Obligations.NotNegDub := by
  unfold Obligations.NotNegDub
  intro s rA
  obtain ⟨hhigh, hlow⟩ := zopResult_dub_bytes (s.reg rA)
  exact ⟨⟨s.zop .not rA, _, rfl, s.pc_zop .not rA, s.zop_regWritten .not rA⟩,
    ⟨s.zop .neg rA, _, _, rfl, s.pc_zop .neg rA, zopResult_neg_add (s.reg rA), s.zop_regWritten .neg rA⟩,
    ⟨s.zop .dub rA, _, _, rfl, s.pc_zop .dub rA, hhigh, hlow, s.zop_regWritten .dub rA⟩⟩

/-- An arithmetic shift by one is division by two that rounds down. -/
theorem zopResult_sra_toInt (a : Word) : (zopResult .sra a).toInt = a.toInt / 2 :=
  (BitVec.toInt_sshiftRight).trans (Int.shiftRight_eq_div_pow _ _)

theorem zopResult_srl_toNat (a : Word) : (zopResult .srl a).toNat = a.toNat / 2 :=
  (BitVec.toNat_ushiftRight _ _).trans (Nat.shiftRight_eq_div_pow _ _)

/-- Settles O44: two of the arithmetic ZOPs, by their results and the bit shifted out. -/
theorem shiftsRight : Obligations.ShiftsRight := by
  unfold Obligations.ShiftsRight
  intro s rA
  exact ⟨⟨s.zop .sra rA, _, _, rfl, s.pc_zop .sra rA, zopResult_sra_toInt (s.reg rA), rfl, s.zop_regWritten .sra rA⟩,
    ⟨s.zop .srl rA, _, _, rfl, s.pc_zop .srl rA, zopResult_srl_toNat (s.reg rA), rfl, s.zop_regWritten .srl rA⟩⟩

/-- Settles O45: the flags with another C, and no register. -/
theorem carryFlagSetAndCleared : Obligations.CarryFlagSetAndCleared := by
  unfold Obligations.CarryFlagSetAndCleared
  intro s
  exact ⟨⟨(s.setFlags { s.flags with c := false }).advance, rfl, rfl, s.setFlags_regWritten _ _ _⟩,
    ⟨(s.setFlags { s.flags with c := true }).advance, rfl, rfl, s.setFlags_regWritten _ _ _⟩⟩

/-! ### Two instructions -/

theorem toNat_append_words (hi lo : Word) : (hi ++ lo).toNat = hi.toNat * 65536 + lo.toNat := by
  rw [BitVec.toNat_append, ← Nat.shiftLeft_add_eq_or_of_lt lo.isLt, Nat.shiftLeft_eq]

/-- A sum of high words that takes in the carry of the low words' sum is the high half of the sum of the pairs. -/
theorem IsSum.pair {aLo bLo aHi bHi lo hi : Word} {fLo fHi : Flags} (hlo : IsSum aLo bLo false lo fLo)
    (hhi : IsSum aHi bHi fLo.c hi fHi) :
    hi ++ lo = (aHi ++ aLo) + (bHi ++ bLo) ∧
      fHi.c = decide (2 ^ 32 ≤ (aHi ++ aLo).toNat + (bHi ++ bLo).toNat) := by
  have haLo := aLo.isLt
  have hbLo := bLo.isLt
  have hcarry : fLo.c.toNat = if 65536 ≤ aLo.toNat + bLo.toNat then 1 else 0 := by
    rw [hlo.carry, Bool.toNat_false, Nat.add_zero]
    split <;> simp_all
  have hlo := hlo.result
  rw [Bool.toNat_false] at hlo
  constructor
  · apply BitVec.eq_of_toNat_eq
    rw [BitVec.toNat_add, toNat_append_words, toNat_append_words, toNat_append_words, hhi.result, hcarry, hlo]
    split <;> omega
  · rw [hhi.carry, hcarry, decide_eq_decide, toNat_append_words, toNat_append_words]
    split <;> omega

/-- The same for differences: the high words' borrow is a clear carry of the low words' difference. -/
theorem IsDifference.pair {aLo bLo aHi bHi lo hi : Word} {fLo fHi : Flags} (hlo : IsDifference aLo bLo false lo fLo)
    (hhi : IsDifference aHi bHi (!fLo.c) hi fHi) :
    hi ++ lo = (aHi ++ aLo) - (bHi ++ bLo) ∧
      fHi.c = decide ((bHi ++ bLo).toNat ≤ (aHi ++ aLo).toNat) := by
  have haLo := aLo.isLt
  have hbLo := bLo.isLt
  have haHi := aHi.isLt
  have hbHi := bHi.isLt
  have hborrow : (!fLo.c).toNat = if bLo.toNat ≤ aLo.toNat then 0 else 1 := by
    rw [hlo.carry, Bool.toNat_false, Nat.add_zero]
    split <;> simp_all
  have hlo := hlo.result
  rw [Bool.toNat_false] at hlo
  constructor
  · apply BitVec.eq_of_toNat_eq
    rw [BitVec.toNat_sub, toNat_append_words, toNat_append_words, toNat_append_words, hhi.result, hborrow, hlo]
    split <;> omega
  · rw [hhi.carry, hborrow, decide_eq_decide, toNat_append_words, toNat_append_words]
    split <;> omega

/-- Two sums written one after the other, the second to a register that is not the first's. -/
theorem State.writeSum_writeSum (s : State) {lo hi : RegField} (hlo : lo ≠ 0#3) (hhi : hi ≠ 0#3) (hne : lo ≠ hi)
    (f g : AddResult) :
    ((s.writeSum lo f).writeSum hi g).reg hi = g.r ∧ ((s.writeSum lo f).writeSum hi g).reg lo = f.r ∧
      ((s.writeSum lo f).writeSum hi g).flags = g.flags := by
  have hf := s.writeSum_regWritten lo f
  have hg := (s.writeSum lo f).writeSum_regWritten hi g
  exact ⟨hg.value hhi, (hg.others lo hne).trans (hf.value hlo), hg.flags⟩

/-- Settles O39: the second instruction reads the high words and the carry that the first one left. -/
theorem doubleWordArithmetic : Obligations.DoubleWordArithmetic := by
  unfold Obligations.DoubleWordArithmetic
  intro s lo hi aLo aHi bLo bHi hlo hhi hne haHi hbHi
  refine ⟨⟨_, _, exec_add lo aLo bLo s, exec_adc hi aHi bHi _, ?_⟩, ⟨_, _, exec_sub lo aLo bLo s,
    exec_sbb hi aHi bHi _, ?_⟩⟩
  · have hf := s.writeSum_regWritten lo (add16 (s.reg aLo) (s.reg bLo) false)
    rw [hf.others aHi haHi.symm, hf.others bHi hbHi.symm, hf.flags]
    obtain ⟨ehi, elo, eflags⟩ := s.writeSum_writeSum hlo hhi hne (add16 (s.reg aLo) (s.reg bLo) false)
      (add16 (s.reg aHi) (s.reg bHi) (add16 (s.reg aLo) (s.reg bLo) false).flags.c)
    rw [ehi, elo, eflags]
    exact (add16_isSum _ _ _).pair (add16_isSum _ _ _)
  · have hf := s.writeSum_regWritten lo (sub16 (s.reg aLo) (s.reg bLo))
    rw [hf.others aHi haHi.symm, hf.others bHi hbHi.symm, hf.flags]
    obtain ⟨ehi, elo, eflags⟩ := s.writeSum_writeSum hlo hhi hne (sub16 (s.reg aLo) (s.reg bLo))
      (add16 (s.reg aHi) (~~~(s.reg bHi)) (sub16 (s.reg aLo) (s.reg bLo)).flags.c)
    rw [ehi, elo, eflags]
    exact (sub16_isDifference _ _).pair (add16_isDifference _ _ _)

end Sys2Proof.Machine

/-! Proofs about control transfer (`42_base_control.md`, `45_zop.md` R487), about the pair that loads a 16-bit constant
(`41_base_alu_imm.md` R412) and about the expansions of the assembler's shorthands (`47_assembler_aliases.md`). -/

namespace Sys2Proof.Machine

/-! ### Branches -/

theorem State.pc_branchIf (s : State) (taken : Bool) (imm10 : BitVec 10) :
    (s.branchIf taken imm10).pc = if taken then s.pc + 2#16 + imm10.signExtend 16 else s.pc + 2#16 := by
  unfold State.branchIf
  split <;> rfl

theorem State.branchIf_frame (s : State) (taken : Bool) (imm10 : BitVec 10) :
    SameRegisters s (s.branchIf taken imm10) ∧ RegisterFrame s (s.branchIf taken imm10) := by
  obtain ⟨p, e⟩ := did_branch s taken imm10
  rw [e]
  exact ⟨s.pc_sameRegisters p, s.pc_registerFrame p⟩

/-- `i` is the conditional branch that is taken, on the flags `f`, exactly if `taken` (`42_base_control.md` R423 to
R428). -/
def BranchesOn (i : Instr) (imm10 : BitVec 10) (f : Flags) (taken : Bool) : Prop :=
  i = .brz imm10 ∧ taken = f.z ∨ i = .brnz imm10 ∧ taken = !f.z ∨
    i = .brc imm10 ∧ taken = f.c ∨ i = .brnc imm10 ∧ taken = !f.c ∨
    i = .brsge imm10 ∧ taken = decide (f.n = f.v) ∨ i = .brslt imm10 ∧ taken = decide (f.n ≠ f.v)

theorem exec_branchesOn {s : State} {i : Instr} {imm10 : BitVec 10} {taken : Bool}
    (h : BranchesOn i imm10 s.flags taken) : exec i s = .next (s.branchIf taken imm10) := by
  rcases h with ⟨rfl, rfl⟩ | ⟨rfl, rfl⟩ | ⟨rfl, rfl⟩ | ⟨rfl, rfl⟩ | ⟨rfl, rfl⟩ | ⟨rfl, rfl⟩
  case inr.inr.inr.inr.inl => rw [← Flags.signedGe_eq]; rfl
  case inr.inr.inr.inr.inr => rw [decide_not, ← Flags.signedGe_eq]; rfl
  all_goals rfl

/-- Settles O32: the branches share one meaning, each with its condition. -/
theorem conditionalBranches : Obligations.ConditionalBranches := by
  unfold Obligations.ConditionalBranches
  intro s imm10 i taken h
  obtain ⟨hregs, hframe⟩ := s.branchIf_frame taken imm10
  exact ⟨_, exec_branchesOn h, s.pc_branchIf taken imm10, hregs, hframe⟩

theorem exec_br (imm10 : BitVec 10) (s : State) : exec (.br imm10) s = .next (s.jump (s.branchTarget imm10)) := rfl

theorem exec_brl (imm10 : BitVec 10) (s : State) :
    exec (.brl imm10) s = .next ((s.setRegL 0#3 (s.pc + 2)).jump (s.branchTarget imm10)) := rfl

/-- Settles O31: a jump to the target, after LINK has been written or not. -/
theorem unconditionalBranches : Obligations.UnconditionalBranches := by
  unfold Obligations.UnconditionalBranches
  intro s imm10
  exact ⟨⟨_, exec_br imm10 s, rfl, s.pc_sameRegisters _, s.pc_registerFrame _⟩,
    ⟨_, exec_brl imm10 s, rfl, s.setRegL_regLinkWritten 0#3 (s.pc + 2) _⟩⟩

/-- The flags of a difference make each branch decide its comparison (`43_xop_alu.md` R448). -/
theorem IsDifference.branchesOn {a b r : Word} {f : Flags} (h : IsDifference a b false r f) {j : Instr}
    {imm10 : BitVec 10} {taken : Bool}
    (hj : j = .brz imm10 ∧ taken = decide (a = b) ∨ j = .brnz imm10 ∧ taken = decide (a ≠ b) ∨
      j = .brc imm10 ∧ taken = decide (b.toNat ≤ a.toNat) ∨ j = .brnc imm10 ∧ taken = decide (a.toNat < b.toNat) ∨
      j = .brsge imm10 ∧ taken = decide (b.toInt ≤ a.toInt) ∨ j = .brslt imm10 ∧ taken = decide (a.toInt < b.toInt)) :
    BranchesOn j imm10 f taken := by
  obtain ⟨hz, hc, hsge⟩ := h.decides
  rw [Flags.signedGe_eq] at hsge
  unfold BranchesOn
  rw [decide_not, hz, hc, hsge, ← decide_not, ← decide_not, ← decide_not]
  simpa only [not_le] using hj

theorem exec_compare {s : State} {i : Instr} {rA rB rD : RegField} (h : i = .tst rA rB ∨ i = .sub rD rA rB) :
    ∃ t, exec i s = .next t ∧ t.pc = s.pc + 2#16 ∧ t.flags = (sub16 (s.reg rA) (s.reg rB)).flags := by
  rcases h with rfl | rfl
  · exact ⟨_, exec_tst rA rB s, rfl, s.flags_setFlags _⟩
  · exact ⟨_, exec_sub rD rA rB s, rfl, (s.writeSum_regWritten rD _).flags⟩

/-- Settles O33: the comparison leaves the flags of the difference, on which the branch decides. -/
theorem compareThenBranch : Obligations.CompareThenBranch := by
  unfold Obligations.CompareThenBranch
  intro s i rA rB rD imm10 hi
  obtain ⟨t, hexec, hpc, hflags⟩ := exec_compare (s := s) hi
  refine ⟨t, hexec, fun j taken hj => ?_⟩
  have hbranch := (sub16_isDifference (s.reg rA) (s.reg rB)).branchesOn hj
  rw [← hflags] at hbranch
  refine ⟨_, exec_branchesOn hbranch, ?_⟩
  rw [State.pc_branchIf, hpc, BitVec.add_assoc s.pc 2#16 2#16]
  rfl

theorem exec_jal (rA rB : RegField) (imm6 : BitVec 6) (s : State) :
    exec (.jal rA rB imm6) s = .next ((s.setRegL rA (s.pc + 2)).jump (jalTarget (s.regL rB) imm6)) := rfl

/-- Settles O34: the target is made of the source as it was before the write. -/
theorem jalJumps : Obligations.JalJumps := by
  unfold Obligations.JalJumps
  intro s rA rB imm6
  exact ⟨_, exec_jal rA rB imm6 s, rfl, s.setRegL_regLinkWritten rA (s.pc + 2) _⟩

/-- Settles O35: a jump to the register read through `xl`. -/
theorem jiJumps : Obligations.JiJumps := by
  unfold Obligations.JiJumps
  intro s rA
  exact ⟨s.jump (s.regL rA), rfl, rfl, s.pc_sameRegisters _, s.pc_registerFrame _⟩

/-! ### One write after another -/

theorem SameControl.trans {s t u : State} (h : SameControl s t) (h' : SameControl t u) : SameControl s u where
  processor := h.processor.trans h'.processor
  uart := h'.uart.trans h.uart
  spi := h'.spi.trans h.spi

theorem RegisterFrame.trans {s t u : State} (h : RegisterFrame s t) (h' : RegisterFrame t u) : RegisterFrame s u where
  control := h.control.trans h'.control
  memory a := (h'.memory a).trans (h.memory a)
  stored := h'.stored.trans h.stored
  loaded := h'.loaded.trans h.loaded
  others c hc := by
    have hcur : t.cur = s.cur := State.cur_congr h.control.processor.mode h.control.processor.context
    exact (h'.others c (hcur ▸ hc)).trans (h.others c hc)
  mmu := ⟨h'.mmu.1.trans h.mmu.1, h'.mmu.2.trans h.mmu.2⟩

/-- Of two writes of one general register the second counts. -/
theorem RegLinkWritten.trans {s t u : State} {i : RegField} {v w : Word} {f g : Flags} (hi : i ≠ 0#3)
    (h : RegLinkWritten s i v f t) (h' : RegLinkWritten t i w g u) : RegLinkWritten s i w g u where
  value := h'.value
  others j hj := (h'.others j hj).trans (h.others j hj)
  link := by rw [h'.link, h.link, if_neg hi, if_neg hi, if_neg hi]
  flags := h'.flags
  frame := h.frame.trans h'.frame

/-- For a general register the two kinds of destination are one. -/
theorem RegLinkWritten.regWritten {s t : State} {i : RegField} {v : Word} {f : Flags} (hi : i ≠ 0#3)
    (h : RegLinkWritten s i v f t) : RegWritten s i v f t where
  value := h.value
  others := h.others
  link := h.link.trans (if_neg hi)
  flags := h.flags
  frame := h.frame

/-! ### The two parts of a constant -/

theorem luiValue_upper_toNat (k : Word) : (luiValue (upperPart k)).toNat = k.toNat / 64 * 64 := by
  have hk := k.isLt
  rw [luiValue_toNat, upperPart, BitVec.extractLsb'_toNat, Nat.shiftRight_eq_div_pow]
  omega

/-- The lower part is a positive immediate: its sign bit is 0. -/
theorem lowerPart_signExtend_toNat (k : Word) : ((lowerPart k).signExtend 16).toNat = k.toNat % 64 := by
  have hlow : (lowerPart k).toNat = k.toNat % 64 := by
    simp only [lowerPart, BitVec.toNat_setWidth, BitVec.extractLsb'_toNat, Nat.shiftRight_zero]
    omega
  have hmsb : (lowerPart k).msb = false := by
    rw [BitVec.msb_eq_decide, hlow]
    simp only [decide_eq_false_iff_not]
    omega
  rw [BitVec.toNat_signExtend, hmsb, BitVec.toNat_setWidth, hlow]
  simp only [Bool.false_eq_true, if_false]
  omega

/-- The parts of a constant add up to it, with no carry and no overflow (`41_base_alu_imm.md` R412). -/
theorem add16_parts (k : Word) :
    add16 (luiValue (upperPart k)) ((lowerPart k).signExtend 16) false =
      { r := k, flags := { c := false, z := decide (k = 0#16), n := k.getLsbD 15, v := false } } := by
  have hk := k.isLt
  have hsum : (luiValue (upperPart k)).toNat + ((lowerPart k).signExtend 16).toNat + (false : Bool).toNat = k.toNat := by
    rw [luiValue_upper_toNat, lowerPart_signExtend_toNat, Bool.toNat_false]
    omega
  have hmsb : (luiValue (upperPart k)).msb = k.msb := by
    rw [BitVec.msb_eq_decide, BitVec.msb_eq_decide, luiValue_upper_toNat, decide_eq_decide]
    omega
  have hcarry : decide (2 ^ 16 ≤ k.toNat) = false := by
    rw [decide_eq_false_iff_not]
    omega
  simp only [add16, hsum, BitVec.ofNat_toNat, BitVec.setWidth_eq, hcarry, hmsb, bne_self_eq_false, Bool.and_false]
  rw [BitVec.msb_eq_getLsbD_last]
  rfl

theorem exec_lui_regLinkWritten (rT : RegField) (imm10 : BitVec 10) (s : State) :
    ∃ u, exec (.lui rT imm10) s = .next u ∧ u.pc = s.pc + 2#16 ∧
      RegLinkWritten s rT (luiValue imm10) s.flags u := by
  refine ⟨_, exec_lui rT imm10 s, ?_, s.setRegL_regLinkWritten rT (luiValue imm10) _⟩
  rw [State.pc_advance, State.pc_setRegL]
  rfl

/-- Settles O30: LUI puts the upper part, and ADI reads it and adds the lower one. -/
theorem luiAdiConstant : Obligations.LuiAdiConstant := by
  unfold Obligations.LuiAdiConstant
  intro s rT k hrT
  obtain ⟨u, hlui, hpc, hu⟩ := exec_lui_regLinkWritten rT (upperPart k) s
  have hadi := u.afterAdi_regLinkWritten rT rT (lowerPart k)
  rw [hu.value hrT, add16_parts k] at hadi
  refine ⟨u, _, hlui, exec_adi rT rT (lowerPart k) u, ?_, (hu.trans hrT hadi).regWritten hrT⟩
  rw [State.pc_afterAdi, hpc, BitVec.add_assoc s.pc 2#16 2#16]
  rfl

/-! ### Shorthands of the assembler -/

theorem execAll_cons {i : Instr} {rest : List Instr} {s t : State} (h : exec i s = .next t) :
    execAll (i :: rest) s = execAll rest t := by
  simp only [execAll, h]

theorem execAll_one {i : Instr} {s t : State} (h : exec i s = .next t) : execAll [i] s = .next t := execAll_cons h

theorem execAll_two {i j : Instr} {s u t : State} (h : exec i s = .next u) (h' : exec j u = .next t) :
    execAll [i, j] s = .next t := (execAll_cons h).trans (execAll_one h')

/-- A constant below 64 is its lower part. -/
theorem add16_lowerPart {k : Word} (h : k.toNat < 0x40) :
    (add16 0#16 ((lowerPart k).signExtend 16) false).r = k := by
  apply BitVec.eq_of_toNat_eq
  rw [(add16_isSum _ _ _).result, lowerPart_signExtend_toNat, Bool.toNat_false, BitVec.toNat_ofNat]
  omega

/-- A constant whose low six bits are 0 is its upper part. -/
theorem luiValue_upperPart {k : Word} (h : k &&& 0xFFC0 = k) : luiValue (upperPart k) = k := by
  have hbit (j : Nat) : k.getLsbD j = (k.getLsbD j && (0xFFC0 : Word).getLsbD j) := by
    rw [← BitVec.getLsbD_and, h]
  unfold luiValue upperPart
  apply BitVec.eq_of_getLsbD_eq
  intro j hj
  refine BitVec.getLsbD_append.trans ?_
  rw [BitVec.getLsbD_extractLsb', hbit j]
  interval_cases j <;> simp

/-- The one-instruction cases of `ldi`, whatever the destination (`47_assembler_aliases.md` R525). -/
theorem execAll_ldi_one {s : State} {rT : RegField} {k : Word} (h : k.toNat < 0x40 ∨ k &&& 0xFFC0 = k) :
    ∃ t f, execAll (expandLdi rT k) s = .next t ∧ (expandLdi rT k).length = 1 ∧ t.pc = s.pc + 2#16 ∧
      RegLinkWritten s rT k f t := by
  unfold expandLdi
  by_cases hlow : k.toNat < 0x40
  · rw [if_pos hlow]
    have hadi := s.afterAdi_regLinkWritten rT 0 (lowerPart k)
    rw [show s.reg 0 = 0#16 from rfl, add16_lowerPart hlow] at hadi
    exact ⟨_, _, execAll_one (exec_adi rT 0 (lowerPart k) s), rfl, s.pc_afterAdi rT 0 (lowerPart k), hadi⟩
  · have hmask := h.resolve_left hlow
    rw [if_neg hlow, if_pos hmask]
    obtain ⟨u, hlui, hpc, hu⟩ := exec_lui_regLinkWritten rT (upperPart k) s
    rw [luiValue_upperPart hmask] at hu
    exact ⟨u, _, execAll_one hlui, rfl, hpc, hu⟩

/-- `ldi` into a general register, in as many instructions as it has (`90_conflicts.md` C1). -/
theorem execAll_ldi (s : State) {rT : RegField} (hrT : rT ≠ 0#3) (k : Word) :
    ∃ t f, execAll (expandLdi rT k) s = .next t ∧
      t.pc = s.pc + BitVec.ofNat 16 (2 * (expandLdi rT k).length) ∧ RegWritten s rT k f t := by
  by_cases h : k.toNat < 0x40 ∨ k &&& 0xFFC0 = k
  · obtain ⟨t, f, hexec, hlength, hpc, ht⟩ := execAll_ldi_one (s := s) (rT := rT) h
    exact ⟨t, f, hexec, by rw [hlength]; exact hpc, ht.regWritten hrT⟩
  · obtain ⟨hlow, hmask⟩ := not_or.mp h
    unfold expandLdi
    rw [if_neg hlow, if_neg hmask]
    obtain ⟨u, t, hlui, hadi, hpc, ht⟩ := luiAdiConstant s rT k hrT
    exact ⟨t, _, execAll_two hlui hadi, hpc, ht⟩

theorem luiValue_upper (imm10 : BitVec 10) : (luiValue imm10).extractLsb' 6 10 = imm10 := by
  have h := imm10.isLt
  apply BitVec.eq_of_toNat_eq
  rw [BitVec.extractLsb'_toNat, luiValue_toNat, Nat.shiftRight_eq_div_pow]
  omega

/-- The upper and the lower part of a label are the label (`47_assembler_aliases.md` R526). -/
theorem jalTarget_parts (label : Word) :
    jalTarget (luiValue (upperPart label)) (label.extractLsb' 0 6) = label := by
  unfold jalTarget
  rw [luiValue_upper, upperPart]
  apply BitVec.eq_of_getLsbD_eq
  intro j hj
  refine BitVec.getLsbD_append.trans ?_
  rw [BitVec.getLsbD_extractLsb', BitVec.getLsbD_extractLsb']
  interval_cases j <;> simp

/-- `jal` with a label: LUI leaves the upper part in the register JAL then reads. -/
theorem execAll_jal (s : State) (rT : RegField) (label : Word) :
    ∃ t, execAll [.lui rT (upperPart label), .jal rT rT (label.extractLsb' 0 6)] s = .next t ∧ t.pc = label ∧
      t.regL rT = s.pc + 4#16 := by
  refine ⟨_, execAll_two (exec_lui rT _ s) (exec_jal rT rT _ _), ?_, ?_⟩
  · rw [State.pc_jump]
    exact (congrArg (jalTarget · _) (s.regL_setRegL_self rT _)).trans (jalTarget_parts label)
  · refine (State.regL_setRegL_self _ rT _).trans ?_
    rw [State.pc_advance, State.pc_setRegL, BitVec.add_assoc]
    rfl

/-- A register added to itself, with a carry: shifted left by one, the carry coming in and the top bit going out. -/
theorem add16_self (a : Word) (c : Bool) :
    (add16 a a c).r = a.extractLsb' 0 15 ++ BitVec.ofBool c ∧ (add16 a a c).flags.c = a.getLsbD 15 := by
  have ha := a.isLt
  have hc := Bool.toNat_le c
  have hsum := add16_isSum a a c
  constructor
  · apply BitVec.eq_of_toNat_eq
    have hbit := (BitVec.ofBool c).isLt
    rw [hsum.result, BitVec.toNat_append, ← Nat.shiftLeft_add_eq_or_of_lt hbit, Nat.shiftLeft_eq,
      BitVec.extractLsb'_toNat, Nat.shiftRight_zero, BitVec.toNat_ofBool]
    omega
  · have hmsb : a.getLsbD 15 = decide (32768 ≤ a.toNat) :=
      (BitVec.msb_eq_getLsbD_last a).symm.trans (BitVec.msb_eq_decide a)
    rw [hsum.carry, hmsb, decide_eq_decide]
    omega

/-- Settles O36: each expansion run instruction by instruction. -/
theorem aliasesDoWhatTheyAreFor : Obligations.AliasesDoWhatTheyAreFor := by
  unfold Obligations.AliasesDoWhatTheyAreFor
  refine ⟨fun s rT k hrT => ?_, fun s k h => ?_, fun s rT label => execAll_jal s rT label, fun s rN hrN => ?_⟩
  · obtain ⟨t, f, hexec, hpc, ht⟩ := execAll_ldi s hrT k
    exact ⟨t, hexec, ht.value hrT, ht.others, ht.link, hpc⟩
  · obtain ⟨t, f, hexec, -, hpc, ht⟩ := execAll_ldi_one (s := s) (rT := 0) h
    exact ⟨t, hexec, ht.link, hpc⟩
  · have hadd := s.writeSum_regWritten rN (add16 (s.reg rN) (s.reg rN) false)
    have hadc := s.writeSum_regWritten rN (add16 (s.reg rN) (s.reg rN) s.flags.c)
    obtain ⟨hr, hc⟩ := add16_self (s.reg rN) false
    obtain ⟨hr', hc'⟩ := add16_self (s.reg rN) s.flags.c
    exact ⟨_, _, execAll_one (exec_add rN rN rN s), execAll_one (exec_adc rN rN rN s), (hadd.value hrN).trans hr,
      (hadc.value hrN).trans hr', (congrArg Flags.c hadd.flags).trans hc, (congrArg Flags.c hadc.flags).trans hc'⟩

end Sys2Proof.Machine

/-! Proofs about memory access (`40_base_memory.md`, `44_yop.md` R465, `20_memory.md` R210 to R214, R223, R227, R240):
loads and stores that go through, what one reads of what another stored, and those that fault or stop. -/

namespace Sys2Proof.Machine

/-! ### Loads -/

/-- An instruction that ends with the value an access answers. -/
theorem State.finish_bind_ok {s t : State} {α : Type} {x : Action α} {a : α} {f : α → Action State} (hx : x = .ok a)
    (hf : f a = .ok t) : s.finish (x.bind f) = .next t := by
  rw [hx, Action.bind_ok, hf, State.finish_ok]

theorem exec_ldw_of_read {s : State} {rA rB : RegField} {imm7 : BitVec 7} {va : Word}
    (hva : s.effectiveAddress rB imm7 = va) (h : s.CanReadWord .data va .load) :
    exec (.ldw rA rB imm7) s = .next (s.setReg rA (s.wordAt .data va .load)).advance := by
  subst hva
  exact State.finish_bind_ok (State.loadWord_ok_iff.mpr ⟨h, rfl⟩) rfl

theorem exec_ldb_of_read {s : State} {rA rB : RegField} {imm7 : BitVec 7} {va : Word}
    (hva : s.effectiveAddress rB imm7 = va) (h : s.CanLoadByte va) :
    exec (.ldb rA rB imm7) s = .next (s.setReg rA ((s.byteAt va).signExtend 16)).advance := by
  subst hva
  exact State.finish_bind_ok (State.loadByte_ok_iff.mpr ⟨h, rfl⟩) rfl

theorem exec_lcw_of_read {s : State} {rA rB : RegField} (h : s.CanReadWord .code (s.reg rB) .codeRead) :
    exec (.lcw rA rB) s = .next (s.setReg rA (s.wordAt .code (s.reg rB) .codeRead)).advance :=
  State.finish_bind_ok (State.loadWord_ok_iff.mpr ⟨h, rfl⟩) rfl

/-- Settles O21: the word is loaded and one register written. -/
theorem ldwLoads : Obligations.LdwLoads := by
  unfold Obligations.LdwLoads
  intro s rA rB imm7 h
  exact ⟨_, _, exec_ldw_of_read rfl h, rfl, s.readsWord .load _, s.setReg_regWritten rA _ _⟩

/-- Settles O22: the byte is loaded, and one register written with it widened. -/
theorem ldbLoads : Obligations.LdbLoads := by
  unfold Obligations.LdbLoads
  intro s rA rB imm7 h
  exact ⟨_, _, exec_ldb_of_read rfl h, rfl, fun hm => State.byteThere_of_hasMemory hm, s.setReg_regWritten rA _ _⟩

/-- Settles O50: as LDW, through the code space. -/
theorem lcwLoads : Obligations.LcwLoads := by
  unfold Obligations.LcwLoads
  intro s rA rB h
  exact ⟨_, _, exec_lcw_of_read h, rfl, s.readsWord .codeRead _, s.setReg_regWritten rA _ _⟩

/-! ### Stores -/

theorem exec_stw_of_store {s : State} {rA rB : RegField} {imm7 : BitVec 7} {va : Word}
    (hva : s.effectiveAddress rB imm7 = va) (h : s.CanStoreWord va) :
    exec (.stw rA rB imm7) s = .next (s.withWord (s.physical .data va) (s.reg rA)).advance := by
  subst hva
  exact State.finish_bind_ok (State.storeWord_ok_iff.mpr ⟨h, rfl⟩) rfl

theorem exec_stb_of_store {s : State} {rA rB : RegField} {imm7 : BitVec 7} {va : Word}
    (hva : s.effectiveAddress rB imm7 = va) (h : s.CanStoreByte va) :
    exec (.stb rA rB imm7) s = .next (s.putByte (s.physical .data va) (lowByte (s.reg rA))).advance := by
  subst hva
  exact State.finish_bind_ok (State.storeByte_ok_iff.mpr ⟨h, rfl⟩) rfl

/-- Settles O23: the word is put, and nothing else is. -/
theorem stwStores : Obligations.StwStores := by
  unfold Obligations.StwStores
  intro s rA rB imm7 h
  refine ⟨_, exec_stw_of_store rfl h, rfl, ?_⟩
  rintro a rfl
  obtain ⟨hlow, hhigh, hothers, hram⟩ := s.withWord_put (s.physical .data (s.reg rB + imm7.signExtend 16)) (s.reg rA)
  exact ⟨⟨hlow, hhigh, hothers, hram⟩, s.withWord_storeFrame _ _ _⟩

/-- Settles O24: the byte is put where there is RAM, and nothing else is. -/
theorem stbStores : Obligations.StbStores := by
  unfold Obligations.StbStores
  intro s rA rB imm7 h
  refine ⟨_, exec_stb_of_store rfl h, rfl, ?_⟩
  rintro a rfl
  exact ⟨fun hram => s.putByte_self (lowByte (s.reg rA)) hram, s.putByte_storeFrame _ _ _⟩

/-! ### What is read of what was stored -/

theorem State.canRead_of_hasRam {s : State} {a : PhysAddr} (h : s.hasRam a) : s.canRead a := by
  intro he
  cases h.symm.trans he

theorem State.canWrite_of_hasRam {s : State} {a : PhysAddr} (h : s.hasRam a) : s.canWrite a := .inl h

/-- A page that may be stored to may be accessed in every way (`20_memory.md` R223). -/
theorem verdict_of_store_allowed {p : Permission} (h : verdict p .store = .allowed) (access : Access) :
    verdict p access = .allowed := by
  rw [UserStep.verdict_store_allowed h]
  rfl

/-- RAM gives the byte just stored in it, to every kind of access. -/
theorem State.byteThere_putByte_self {s : State} {a : PhysAddr} (h : s.hasRam a) (b : Byte) (access : Access) :
    (s.putByte a b).byteThere access a = b :=
  (State.byteThere_of_hasMemory (s := s.putByte a b) (.inl h)).trans (s.putByte_self b h)

theorem State.byteThere_putByte_ne {s : State} {a c : PhysAddr} (h : s.hasRam c) (hne : c ≠ a) (b : Byte)
    (access : Access) : (s.putByte a b).byteThere access c = s.byteThere access c :=
  (State.byteThere_of_hasMemory (s := s.putByte a b) (.inl h)).trans
    ((s.putByte_ne a c b hne).trans (State.byteThere_of_hasMemory (.inl h)).symm)

/-- The low byte of the word just stored. -/
theorem State.byteThere_withWord_low {s : State} {a : PhysAddr} (h : s.wordInRam a) (v : Word) (access : Access) :
    (s.withWord a v).byteThere access a = lowByte v :=
  (State.byteThere_putByte_ne (s := s.putByte a (lowByte v)) h.1 (succ_ne_self a).symm _ access).trans
    (State.byteThere_putByte_self h.1 _ access)

/-- The high byte, one address above. -/
theorem State.byteThere_withWord_high {s : State} {a : PhysAddr} (h : s.wordInRam a) (v : Word) (access : Access) :
    (s.withWord a v).byteThere access (a + 1#24) = highByte v :=
  State.byteThere_putByte_self (s := s.putByte a (lowByte v)) h.2 _ access

/-- A byte loaded into a register that is no black hole. -/
theorem exec_ldb_reg {s : State} {rA rB : RegField} {imm7 : BitVec 7} {va : Word} {b : Byte} (hrA : rA ≠ 0#3)
    (hva : s.effectiveAddress rB imm7 = va) (h : s.CanLoadByte va) (hb : s.byteAt va = b) :
    ∃ u, exec (.ldb rA rB imm7) s = .next u ∧ u.reg rA = b.signExtend 16 :=
  ⟨_, exec_ldb_of_read hva h, by rw [State.reg_advance, State.reg_setReg_self _ _ _ hrA, hb]⟩

/-- LDB after STW (`20_memory.md` R212). -/
theorem stw_then_ldb {s : State} {rA rB rC rD : RegField} {imm7 k : BitVec 7}
    (hstore : s.CanStoreWord (s.reg rB + imm7.signExtend 16))
    (hram : s.wordInRam (s.physical .data (s.reg rB + imm7.signExtend 16))) (hrC : rC ≠ 0#3) :
    ∃ t, exec (.stw rA rB imm7) s = .next t ∧
      (t.reg rD + k.signExtend 16 = s.reg rB + imm7.signExtend 16 →
        ∃ u, exec (.ldb rC rD k) t = .next u ∧ u.reg rC = (lowByte (s.reg rA)).signExtend 16) ∧
      (t.reg rD + k.signExtend 16 = s.reg rB + imm7.signExtend 16 + 1#16 →
        ∃ u, exec (.ldb rC rD k) t = .next u ∧ u.reg rC = (highByte (s.reg rA)).signExtend 16) := by
  obtain ⟨hodd, hperm, -, -⟩ := id hstore
  have hload := verdict_of_store_allowed hperm .load
  obtain ⟨hphys, hsame⟩ := s.physical_succ .data _ hodd
  refine ⟨_, exec_stw_of_store rfl hstore, fun hva => ?_, fun hva => ?_⟩
  · exact exec_ldb_reg hrC hva ⟨hload, State.canRead_of_hasRam hram.1⟩
      (State.byteThere_withWord_low hram (s.reg rA) .load)
  · refine exec_ldb_reg hrC hva ⟨(congrArg (verdict · .load) hsame).trans hload, ?_⟩ ?_
    · exact (congrArg s.canRead hphys).mpr (State.canRead_of_hasRam hram.2)
    · refine Eq.trans ?_ (State.byteThere_withWord_high hram (s.reg rA) .load)
      exact congrArg ((s.withWord _ (s.reg rA)).byteThere .load) hphys

/-- A byte stored above the one at an even address, and both loaded as a word. -/
theorem stb_then_ldw {t : State} {rC rD rE rB : RegField} {imm7 k : BitVec 7} {va : Word} {b : Byte}
    (hlow : t.effectiveAddress rB imm7 = va) (hhigh : t.effectiveAddress rD k = va + 1#16)
    (hodd : oddAddress va = false) (hperm : verdict (t.permission .data va) .store = .allowed)
    (hram : t.wordInRam (t.physical .data va)) (hrE : rE ≠ 0#3)
    (hb : t.byteThere .load (t.physical .data va) = b) :
    ∃ u, exec (.stb rC rD k) t = .next u ∧
      ∃ v, exec (.ldw rE rB imm7) u = .next v ∧ v.reg rE = wordOfBytes b (lowByte (t.reg rC)) := by
  obtain ⟨hphys, hsame⟩ := t.physical_succ .data va hodd
  have hstore : t.CanStoreByte (va + 1#16) :=
    ⟨(congrArg (verdict · .store) hsame).trans hperm,
      (congrArg t.canWrite hphys).mpr (State.canWrite_of_hasRam hram.2)⟩
  let u := (t.putByte (t.physical .data (va + 1#16)) (lowByte (t.reg rC))).advance
  have hread : u.CanReadWord .data va .load :=
    ⟨hodd, verdict_of_store_allowed hperm .load, State.canRead_of_hasRam hram.1, State.canRead_of_hasRam hram.2⟩
  refine ⟨u, exec_stb_of_store hhigh hstore, _, exec_ldw_of_read hlow hread, ?_⟩
  rw [State.reg_advance, State.reg_setReg_self _ _ _ hrE]
  have hu : u = (t.putByte (t.physical .data va + 1#24) (lowByte (t.reg rC))).advance := by rw [← hphys]
  rw [hu]
  refine congrArg₂ wordOfBytes ?_ (State.byteThere_putByte_self (s := t) hram.2 _ .load)
  exact (State.byteThere_putByte_ne (s := t) hram.1 (succ_ne_self _).symm _ .load).trans hb

/-- LDW after two STBs (`20_memory.md` R212). -/
theorem stb_stb_then_ldw {s : State} {rA rB rC rD rE : RegField} {imm7 k : BitVec 7}
    (hstore : s.CanStoreWord (s.reg rB + imm7.signExtend 16))
    (hram : s.wordInRam (s.physical .data (s.reg rB + imm7.signExtend 16))) (hrE : rE ≠ 0#3)
    (hva : s.reg rD + k.signExtend 16 = s.reg rB + imm7.signExtend 16 + 1#16) :
    ∃ t, exec (.stb rA rB imm7) s = .next t ∧
      ∃ u, exec (.stb rC rD k) t = .next u ∧
        ∃ v, exec (.ldw rE rB imm7) u = .next v ∧
          v.reg rE = wordOfBytes (lowByte (s.reg rA)) (lowByte (s.reg rC)) := by
  obtain ⟨hodd, hperm, -, -⟩ := hstore
  refine ⟨_, exec_stb_of_store rfl ⟨hperm, State.canWrite_of_hasRam hram.1⟩, ?_⟩
  exact stb_then_ldw rfl hva hodd hperm hram hrE (State.byteThere_putByte_self hram.1 _ .load)

/-- Settles O25: the byte order of a word is that of its two bytes at the even address and above it. -/
theorem mixedWidths : Obligations.MixedWidths := by
  unfold Obligations.MixedWidths
  exact ⟨fun _ _ _ _ _ _ _ => stw_then_ldb, fun _ _ _ _ _ _ _ _ => stb_stb_then_ldw⟩

/-- A word just stored is marked, so that its fetch is stale unless `IFETCH_COHERENT` (`20_memory.md` R240). -/
theorem State.fetchIsStale_withWord (s : State) (a : PhysAddr) (v : Word) :
    (s.withWord a v).fetchIsStale a = !Config.ifetchCoherent := by
  have hmark : isMarked (s.withWord a v).stored a = true :=
    (isMarked_setMark_ne (setMark s.stored a true) _ _ true (succ_ne_self a).symm).trans (isMarked_setMark_self _ _ _)
  rw [State.fetchIsStale, hmark, Bool.true_or, Bool.true_and]

/-- Settles O9: the fetch finds the page and the word, and asks `IFETCH_COHERENT` of the mark the store left. -/
theorem storeThenFetch : Obligations.StoreThenFetch := by
  unfold Obligations.StoreThenFetch
  intro s rA rB imm7 va hstore hfetch hram hsame
  refine ⟨_, exec_stw_of_store rfl hstore, ?_⟩
  obtain ⟨hodd, hperm, -, -⟩ := hfetch
  rw [State.effectiveAddress, ← hsame]
  let t := (s.withWord (s.physical .code va) (s.reg rA)).advance
  have htranslate : t.translate .code va .fetch = .ok (s.physical .code va) :=
    State.translate_ok_iff.mpr ⟨hperm, rfl⟩
  have hstale : t.fetchIsStale (s.physical .code va) = !Config.ifetchCoherent :=
    s.fetchIsStale_withWord _ _
  have hword : t.physReadWord .fetch (s.physical .code va) = .ok (s.reg rA) := by
    refine State.physReadWord_ok_iff.mpr ⟨State.canRead_of_hasRam hram.1, State.canRead_of_hasRam hram.2, ?_⟩
    exact ((s.withWord_put _ _).word hram rfl).symm
  show t.fetch va = _
  rw [State.fetch, hodd, htranslate, Action.bind_ok, hstale, hword]
  cases Config.ifetchCoherent <;> rfl

/-! ### Accesses that fault -/

/-- An instruction whose access faults, where traps are allowed: trap entry and nothing else. -/
theorem State.finish_bind_fault {s : State} {α : Type} {x : Action α} {c : Cause} (h : s.TrapsAllowed)
    (hx : x = .trap c) (f : α → Action State) :
    ∃ t, s.finish (x.bind f) = .next t ∧ Entered s c (s.returnPc c) t := by
  refine ⟨s.raise c, by rw [hx, Action.bind_trap, State.finish_trap], ?_⟩
  rw [s.raise_of_allowed c h]
  exact s.enterKernel_entered c

/-- Every access through an invalid page faults (`20_memory.md` R223). -/
theorem verdict_invalid {p : Permission} (h : p = .invalid) (access : Access) : verdict p access = .pageFault := by
  rw [h]
  rfl

/-- Settles O26: each access answers the page fault of its address before it touches anything. -/
theorem pageFaultsTaken : Obligations.PageFaultsTaken := by
  unfold Obligations.PageFaultsTaken
  refine ⟨?_, ?_, fun s rA rB hallowed hperm hodd => ?_, fun s rA rB hallowed hperm hodd hk hu => ?_⟩
  · rintro s rA rB imm7 _ rfl hallowed hperm
    have hverdict := verdict_invalid hperm .load
    exact ⟨State.finish_bind_fault hallowed (State.loadByte_trap_iff.mpr ⟨hverdict, rfl⟩) _,
      fun hodd => State.finish_bind_fault hallowed (State.loadWord_trap_iff.mpr ⟨hodd, hverdict, rfl⟩) _⟩
  · rintro s rA rB imm7 _ rfl hallowed hperm
    have hverdict := verdict_store_pageFault hperm
    exact ⟨State.finish_bind_fault hallowed (State.storeByte_trap_iff.mpr ⟨hverdict, rfl⟩) _,
      fun hodd => State.finish_bind_fault hallowed (State.storeWord_trap_iff.mpr ⟨hodd, hverdict, rfl⟩) _⟩
  · exact State.finish_bind_fault hallowed
      (State.loadWord_trap_iff.mpr ⟨hodd, verdict_invalid hperm .codeRead, rfl⟩) _
  · have hnum := State.sprNumber_ok_iff.mpr ⟨hk, hu, rfl⟩
    simp only [exec, execSsi, hnum, Action.bind_ok]
    exact State.finish_bind_fault hallowed
      (State.loadWord_trap_iff.mpr ⟨hodd, verdict_invalid hperm .load, rfl⟩) _

/-! ### Odd addresses -/

theorem State.loadWord_odd {s : State} {va : Word} (h : oddAddress va = true) (space : Space) (access : Access) :
    s.loadWord space va access = .stuck .misaligned := if_pos h

theorem State.storeWord_odd {s : State} {va : Word} (h : oddAddress va = true) (v : Word) :
    s.storeWord va v = .stuck .misaligned := if_pos h

theorem State.fetch_odd {s : State} {va : Word} (h : oddAddress va = true) : s.fetch va = .stuck .oddPc := if_pos h

theorem State.finish_bind_stuck {s : State} {α : Type} {x : Action α} {f : Fault} (hx : x = .stuck f)
    (g : α → Action State) : s.finish (x.bind g) = .fault f := by
  rw [hx, Action.bind_stuck, State.finish_stuck]

/-- Settles O7: each 16-bit access and the fetch check the address before anything else but the special-register
number. -/
theorem oddAddressesStop : Obligations.OddAddressesStop := by
  unfold Obligations.OddAddressesStop
  refine ⟨fun s hh hi hodd => ?_, fun s rA rB imm7 hodd => ⟨?_, ?_⟩, fun s rA rB hodd => ?_,
    fun s rA rB hs hodd => ?_, fun s rA rB hs hodd => ?_⟩
  · exact (step_of_running hh).trans (State.runStep_of_stuck hi (State.fetch_odd hodd))
  · exact State.finish_bind_stuck (State.loadWord_odd hodd .data .load) _
  · exact State.finish_bind_stuck (State.storeWord_odd hodd _) _
  · exact State.finish_bind_stuck (State.loadWord_odd hodd .code .codeRead) _
  · obtain ⟨v, r, hr⟩ := State.sprRead_of_stated hs
    exact exec_lsi_of_stuck hr (State.storeWord_odd hodd v)
  · obtain ⟨-, hnum⟩ := State.sprNumber_of_stated hs
    simp only [exec, execSsi, hnum, Action.bind_ok]
    exact State.finish_bind_stuck (State.loadWord_odd hodd .data .load) _

end Sys2Proof.Machine

/-! Proofs about what a user-mode program can see (`60_exceptions.md` R636): two machines that look alike to the program
answer every operation alike, and so every instruction. -/

namespace Sys2Proof.Machine

/-! ### Outcomes that agree -/

/-- Two machines in user mode that look alike to the program. -/
structure Alike (s s' : State) : Prop where
  user : s.mode = .user
  view : UserView s s'

/-- Two actions that stop alike, raise the same exception, or answer values that `R` relates. -/
def Action.Related {α β : Type} (R : α → β → Prop) (x : Action α) (y : Action β) : Prop :=
  match x, y with
  | .ok a, .ok b => R a b
  | .trap c, .trap d => c = d
  | .stuck f, .stuck g => f = g
  | _, _ => False

theorem Action.Related.bind {α β γ δ : Type} {R : α → β → Prop} {S : γ → δ → Prop} {x : Action α} {y : Action β}
    {f : α → Action γ} {g : β → Action δ} (h : x.Related R y) (hfg : ∀ a b, R a b → (f a).Related S (g b)) :
    (x.bind f).Related S (y.bind g) := by
  cases x <;> cases y
  case ok.ok a b => exact hfg a b h
  case trap.trap => exact h
  case stuck.stuck => exact h
  all_goals exact h.elim

theorem Action.Related.of_eq {α : Type} {x y : Action α} (h : y = x) : x.Related Eq y := by
  subst h
  cases y <;> rfl

/-- What two instructions leave: user mode and machines that look alike, or the same entry into the kernel. -/
structure SameOutcome (t t' : State) : Prop where
  mode   : t.mode = t'.mode
  user   : t.mode = .user → UserView t t'
  kernel : t.mode = .kernel → t.pc = t'.pc ∧ t.irr = t'.irr ∧ t.icr = t'.icr ∧ t.idr = t'.idr ∧ t.isr = t'.isr

/-- Two outcomes of an instruction that the program cannot tell apart. -/
def SameOut (o o' : Out) : Prop :=
  (∃ t t', o = .next t ∧ o' = .next t' ∧ SameOutcome t t') ∨ ∃ f, o = .fault f ∧ o' = .fault f

theorem Alike.sameOutcome {t t' : State} (h : Alike t t') : SameOutcome t t' where
  mode := h.view.mode.symm
  user _ := h.view
  kernel hk := absurd (h.user.symm.trans hk) (by decide)

theorem Alike.sameOut {t t' : State} (h : Alike t t') : SameOut (.next t) (.next t') :=
  .inl ⟨t, t', rfl, rfl, h.sameOutcome⟩

namespace Alike

variable {s s' : State}

/-! ### What the two machines share -/

theorem user' (h : Alike s s') : s'.mode = .user := h.view.mode.trans h.user

theorem reg (h : Alike s s') (i : RegField) : s'.reg i = s.reg i := by rw [State.reg, h.view.bank]; rfl

theorem link (h : Alike s s') : s'.link = s.link := by rw [State.link, h.view.bank]; rfl

theorem flags (h : Alike s s') : s'.flags = s.flags := by rw [State.flags, h.view.bank]; rfl

theorem regL (h : Alike s s') (i : RegField) : s'.regL i = s.regL i := by
  rw [State.regL, State.regL, h.reg, h.link]

theorem free (h : Alike s s') : s'.free = s.free := by rw [State.free, h.view.draws]; rfl

theorem effectiveAddress (h : Alike s s') (rB : RegField) (imm7 : BitVec 7) :
    s'.effectiveAddress rB imm7 = s.effectiveAddress rB imm7 := by
  rw [State.effectiveAddress, h.reg]; rfl

theorem mmuRegister (h : Alike s s') (space : Space) (va : Word) :
    s'.mmuRegister space va = s.mmuRegister space va := by
  cases space <;> simp only [State.mmuRegister, h.view.bank]

theorem translate (h : Alike s s') (space : Space) (va : Word) (access : Access) :
    s'.translate space va access = s.translate space va access := by
  simp only [State.translate, State.physical, h.mmuRegister]

/-! ### What they can do alike -/

theorem pc (h : Alike s s') (p : Word) : Alike { s with pc := p } { s' with pc := p } :=
  ⟨h.user, { h.view with pc := rfl }⟩

theorem advance (h : Alike s s') : Alike s.advance s'.advance := by
  unfold State.advance
  rw [h.view.pc]
  exact h.pc _

/-- A bank with the same MMU registers: the same bytes can be reached. -/
theorem setBank (h : Alike s s') {b : Bank} (hc : b.cmmu = s.bank.cmmu) (hd : b.dmmu = s.bank.dmmu) :
    Alike (s.setBank b) (s'.setBank b) where
  user := h.user
  view := {
    pc := h.view.pc
    mode := h.view.mode
    context := h.view.context
    bank := (s'.bank_setBank b).trans (s.bank_setBank b).symm
    cyc := h.view.cyc
    mem := fun a ha => by
      refine h.view.mem a ((State.reachable_congr (t := s.setBank b) ?_ ?_ a).mp ha)
      · rw [State.bank_setBank, hc]
      · rw [State.bank_setBank, hd]
    platform := h.view.platform
    ticks := h.view.ticks
    draws := h.view.draws }

theorem setReg (h : Alike s s') (i : RegField) (v : Word) : Alike (s.setReg i v) (s'.setReg i v) := by
  unfold State.setReg
  rw [h.view.bank]
  exact h.setBank (s.bank.cmmu_set i v) (s.bank.dmmu_set i v)

theorem setLink (h : Alike s s') (v : Word) : Alike (s.setLink v) (s'.setLink v) := by
  unfold State.setLink
  rw [h.view.bank]
  exact h.setBank rfl rfl

theorem setFlags (h : Alike s s') (f : Flags) : Alike (s.setFlags f) (s'.setFlags f) := by
  unfold State.setFlags
  rw [h.view.bank]
  exact h.setBank rfl rfl

theorem setRegL (h : Alike s s') (i : RegField) (v : Word) : Alike (s.setRegL i v) (s'.setRegL i v) := by
  unfold State.setRegL
  split
  · exact h.setLink v
  · exact h.setReg i v

theorem draws (h : Alike s s') (n : Nat) : Alike { s with draws := n } { s' with draws := n } :=
  ⟨h.user, { h.view with draws := rfl }⟩

theorem drawn (h : Alike s s') : Alike s.drawn s'.drawn := by
  unfold State.drawn
  rw [h.view.draws]
  exact h.draws _

theorem branchIf (h : Alike s s') (taken : Bool) (imm10 : BitVec 10) :
    Alike (s.branchIf taken imm10) (s'.branchIf taken imm10) := by
  unfold State.branchIf State.branchTarget
  rw [h.view.pc]
  split
  · exact h.pc _
  · exact h.advance

/-- The two machines enter the kernel alike. -/
theorem raise (h : Alike s s') (c : Cause) : SameOutcome (s.raise c) (s'.raise c) := by
  rw [State.raise_of_allowed c (.inl h.user), State.raise_of_allowed c (.inl h.user')]
  refine ⟨rfl, nofun, fun _ => ⟨rfl, ?_, rfl, ?_, ?_⟩⟩
  · cases c <;> simp only [State.irr_enterKernel, State.returnPc, h.view.pc]
  · cases c <;> simp only [State.idr_enterKernel, State.faultData, h.free]
  · rw [State.isr_enterKernel, State.isr_enterKernel, h.view.mode]

theorem raise_sameOut (h : Alike s s') (c : Cause) : SameOut (.next (s.raise c)) (.next (s'.raise c)) :=
  .inl ⟨_, _, rfl, rfl, h.raise c⟩

theorem finish (h : Alike s s') {x y : Action State} (hxy : x.Related Alike y) :
    SameOut (s.finish x) (s'.finish y) := by
  cases x <;> cases y
  case ok.ok => exact Alike.sameOut hxy
  case trap.trap c d => cases (hxy : c = d); exact h.raise_sameOut c
  case stuck.stuck f g => cases (hxy : f = g); exact .inr ⟨f, rfl, rfl⟩
  all_goals exact hxy.elim

/-! ### Memory -/

theorem byteThere (h : Alike s s') {a : PhysAddr} (ha : s.Reachable a) (access : Access) :
    s'.byteThere access a = s.byteThere access a := by
  simp only [State.byteThere, h.view.platform, h.view.ticks, h.view.draws, h.view.mem a ha]

theorem physRead (h : Alike s s') {a : PhysAddr} (ha : s.Reachable a) (access : Access) :
    s'.physRead access a = s.physRead access a := by
  simp only [State.physRead, h.byteThere ha, h.view.platform]

theorem physReadWord (h : Alike s s') {a : PhysAddr} (ha : s.Reachable a) (ha1 : s.Reachable (a + 1#24))
    (access : Access) : s'.physReadWord access a = s.physReadWord access a := by
  simp only [State.physReadWord, h.physRead ha, h.physRead ha1]

theorem loadByte (h : Alike s s') (va : Word) : s'.loadByte va = s.loadByte va := by
  unfold State.loadByte
  rw [h.translate]
  cases ht : s.translate .data va .load with
  | ok a => exact h.physRead (State.reachable_of_translate ht) .load
  | trap c => rfl
  | stuck f => rfl

theorem loadWord (h : Alike s s') (space : Space) (va : Word) (access : Access) :
    s'.loadWord space va access = s.loadWord space va access := by
  unfold State.loadWord
  cases hodd : oddAddress va
  · rw [h.translate]
    cases ht : s.translate space va access with
    | ok a =>
      exact h.physReadWord (State.reachable_of_translate ht) (State.reachable_succ_of_translate hodd ht) access
    | trap c => rfl
    | stuck f => rfl
  · rfl

/-- The same byte stored at the same place in both. -/
theorem putByte (h : Alike s s') (a : PhysAddr) (b : Byte) : Alike (s.putByte a b) (s'.putByte a b) where
  user := h.user
  view := { h.view with
    mem := fun c hc => by
      have hsame := h.view.mem c hc
      simp only [State.putByte, h.view.platform]
      split
      · by_cases hca : c = a
        · rw [hca, memRead_memWrite_self, memRead_memWrite_self]
        · rw [memRead_memWrite_ne _ _ _ _ hca, memRead_memWrite_ne _ _ _ _ hca, hsame]
      · exact hsame }

theorem physWrite (h : Alike s s') (a : PhysAddr) (b : Byte) :
    (s.physWrite a b).Related Alike (s'.physWrite a b) := by
  unfold State.physWrite
  rw [h.view.platform]
  cases physKind s.platform.regions a
  case ram | device => exact h.putByte a b
  case rom | nothing => rfl

theorem storeByte (h : Alike s s') (va : Word) (b : Byte) :
    (s.storeByte va b).Related Alike (s'.storeByte va b) := by
  refine (Action.Related.of_eq (h.translate .data va .store)).bind ?_
  rintro a _ rfl
  exact h.physWrite a b

theorem storeWord (h : Alike s s') (va v : Word) : (s.storeWord va v).Related Alike (s'.storeWord va v) := by
  unfold State.storeWord
  split
  · rfl
  · refine (Action.Related.of_eq (h.translate .data va .store)).bind ?_
    rintro a _ rfl
    exact (h.physWrite a (lowByte v)).bind fun t t' ht => ht.physWrite (a + 1#24) (highByte v)

/-! ### Special registers -/

theorem sprNumber (h : Alike s s') (k : Word) : s'.sprNumber k = s.sprNumber k := by
  simp only [State.sprNumber, h.view.mode]

/-- FLAGS as user mode reads it shows neither T nor IE (`10_state.md` R125). -/
theorem readMixed_flags (h : Alike s s') :
    mixBits s'.flagsMask s'.flagsWord s'.free = mixBits s.flagsMask s.flagsWord s.free := by
  have hmask (f : Flags) (ie t : Bool) :
      (0#6 ++ BitVec.ofBool ie ++ BitVec.ofBool t ++ 0#4 ++ f.toBits : Word) &&& 0x000F = 0#12 ++ f.toBits := by
    obtain ⟨c, z, n, v⟩ := f
    revert c z n v ie t
    decide
  simp only [mixBits, State.flagsMask, h.user, h.user', State.flagsWord, hmask, h.flags, h.free]

theorem sprRead (h : Alike s s') (k : Word) :
    (s.sprRead k).Related (fun x y => x.1 = y.1 ∧ Alike x.2 y.2) (s'.sprRead k) := by
  unfold State.sprRead
  rw [h.sprNumber]
  cases hr : s.sprNumber k with
  | trap c => rfl
  | stuck f => rfl
  | ok r =>
    rcases State.user_sprNumber h.user hr with rfl | rfl | rfl | rfl | rfl
    · exact ⟨h.link.symm, h⟩
    · exact ⟨h.readMixed_flags.symm, h.drawn⟩
    · exact ⟨h.free.symm, h.drawn⟩
    · exact ⟨congrArg (BitVec.extractLsb' 0 16) h.view.cyc.symm, h⟩
    · exact ⟨congrArg (BitVec.extractLsb' 16 16) h.view.cyc.symm, h⟩

theorem writeSpr (h : Alike s s') {k : Word} {r : Spr} (hr : s.sprNumber k = .ok r) (v : Word) :
    (s.writeSpr r v).Related Alike (s'.writeSpr r v) := by
  rcases State.user_sprNumber h.user hr with rfl | rfl | rfl | rfl | rfl
  · exact h.setLink v
  · show Alike (s.writeFlags v) (s'.writeFlags v)
    simp only [State.writeFlags, h.user, h.user']
    exact h.setFlags _
  · exact h
  · exact h
  · exact h

theorem sprWrite (h : Alike s s') (k v : Word) : (s.sprWrite k v).Related Alike (s'.sprWrite k v) := by
  unfold State.sprWrite
  rw [h.sprNumber]
  cases hr : s.sprNumber k with
  | trap c => rfl
  | stuck f => rfl
  | ok r => exact h.writeSpr hr v

theorem afterFaultingRead {r r' : State} (h : Alike s s') (hr : Alike r r') :
    Alike (s.afterFaultingRead r) (s'.afterFaultingRead r') := by
  unfold State.afterFaultingRead
  rw [h.view.draws, hr.view.draws]
  split
  · exact hr.draws _
  · exact h.draws _

/-! ### Instructions -/

theorem privileged (h : Alike s s') (x y : Action State) : SameOut (s.privileged x) (s'.privileged y) := by
  rw [State.privileged_of_user h.user, State.privileged_of_user h.user']
  exact h.raise_sameOut _

theorem writeSum (h : Alike s s') (rA : RegField) (f : AddResult) : Alike (s.writeSum rA f) (s'.writeSum rA f) :=
  ((h.setReg rA f.r).setFlags f.flags).advance

theorem logic (h : Alike s s') (op : LogicOp) (rA rB rC : RegField) :
    Alike (s.logic op rA rB rC) (s'.logic op rA rB rC) := by
  simp only [State.logic, h.reg, h.flags]
  exact ((h.setReg rA _).setFlags _).advance

theorem zop (h : Alike s s') (op : ZopOp) (rA : RegField) : Alike (s.zop op rA) (s'.zop op rA) := by
  simp only [State.zop, h.reg, h.flags]
  exact ((h.setReg rA _).setFlags _).advance

/-- A read into a register: the two find the same. -/
theorem finish_load (h : Alike s s') {α : Type} {x y : Action α} (hxy : y = x) (rA : RegField) (f : α → Word) :
    SameOut (s.finish (x.bind fun v => .ok (s.setReg rA (f v)).advance))
      (s'.finish (y.bind fun v => .ok (s'.setReg rA (f v)).advance)) := by
  refine h.finish ((Action.Related.of_eq hxy).bind ?_)
  rintro v _ rfl
  exact (h.setReg rA (f v)).advance

/-- A write that leaves the two alike, and then the next instruction. -/
theorem finish_advance (h : Alike s s') {x y : Action State} (hxy : x.Related Alike y) :
    SameOut (s.finish (x.bind fun t => .ok t.advance)) (s'.finish (y.bind fun t => .ok t.advance)) :=
  h.finish (hxy.bind fun _ _ ht => ht.advance)

theorem execLsp (h : Alike s s') (rA rB : RegField) : SameOut (exec (.lsp rA rB) s) (exec (.lsp rA rB) s') := by
  simp only [exec, Machine.execLsp, h.reg]
  refine h.finish ((h.sprRead (s.reg rB)).bind ?_)
  rintro ⟨v, r⟩ ⟨_, r'⟩ ⟨rfl, hr⟩
  exact (hr.setReg rA v).advance

theorem execLsi (h : Alike s s') (rA rB : RegField) : SameOut (exec (.lsi rA rB) s) (exec (.lsi rA rB) s') := by
  have hread := h.sprRead (s.reg rB)
  simp only [exec, Machine.execLsi, h.reg]
  cases hx : s.sprRead (s.reg rB) <;> cases hy : s'.sprRead (s.reg rB) <;> rw [hx, hy] at hread
  case ok.ok x y =>
    obtain ⟨v, r⟩ := x
    obtain ⟨v', r'⟩ := y
    obtain ⟨hv, hr⟩ := hread
    cases (hv : v = v')
    have hstore := Alike.storeWord hr (s.reg rA) v
    simp only
    cases hw : r.storeWord (s.reg rA) v <;> cases hw' : r'.storeWord (s.reg rA) v <;> rw [hw, hw'] at hstore
    case ok.ok t t' => exact (Alike.advance hstore).sameOut
    case trap.trap c d => cases (hstore : c = d); exact (h.afterFaultingRead hr).raise_sameOut c
    case stuck.stuck f g => cases (hstore : f = g); exact .inr ⟨f, rfl, rfl⟩
    all_goals exact hstore.elim
  case trap.trap c d => cases (hread : c = d); exact h.raise_sameOut c
  case stuck.stuck f g => cases (hread : f = g); exact .inr ⟨f, rfl, rfl⟩
  all_goals exact hread.elim

theorem execSsi (h : Alike s s') (rA rB : RegField) : SameOut (exec (.ssi rA rB) s) (exec (.ssi rA rB) s') := by
  simp only [exec, Machine.execSsi, h.reg, h.sprNumber, h.loadWord]
  refine h.finish ?_
  cases hr : s.sprNumber (s.reg rA) with
  | trap c => rfl
  | stuck f => rfl
  | ok r =>
    simp only [Action.bind_ok]
    refine (Action.Related.of_eq rfl).bind ?_
    rintro v _ rfl
    exact (h.writeSpr hr v).bind fun _ _ ht => ht.advance

theorem execBrk (h : Alike s s') : SameOut (exec .brk s) (exec .brk s') := by
  simp only [exec, Machine.execBrk, h.view.platform]
  cases s.platform.brk with
  | emulator =>
    have hadv := h.advance
    exact Alike.sameOut ⟨hadv.user, { hadv.view with }⟩
  | notGiven => exact .inr ⟨_, rfl, rfl⟩

theorem execJal (h : Alike s s') (rA rB : RegField) (imm6 : BitVec 6) :
    SameOut (exec (.jal rA rB imm6) s) (exec (.jal rA rB imm6) s') := by
  simp only [exec, Machine.execJal, h.view.pc, h.regL]
  exact ((h.setRegL rA _).pc _).sameOut

/-- Every instruction, by what it does: a memory access, a change of registers and pc, or an entry into the kernel. -/
theorem exec (h : Alike s s') (i : Instr) : SameOut (Machine.exec i s) (Machine.exec i s') := by
  cases i
  case ldw rA rB imm7 =>
    simp only [Machine.exec, execLdw, h.effectiveAddress]
    exact h.finish_load (h.loadWord _ _ _) rA _
  case ldb rA rB imm7 =>
    simp only [Machine.exec, execLdb, h.effectiveAddress]
    exact h.finish_load (h.loadByte _) rA _
  case lcw rA rB =>
    simp only [Machine.exec, execLcw, h.reg]
    exact h.finish_load (h.loadWord _ _ _) rA id
  case stw rA rB imm7 =>
    simp only [Machine.exec, execStw, h.effectiveAddress, h.reg]
    exact h.finish_advance (h.storeWord _ _)
  case stb rA rB imm7 =>
    simp only [Machine.exec, execStb, h.effectiveAddress, h.reg]
    exact h.finish_advance (h.storeByte _ _)
  case ssp rA rB =>
    simp only [Machine.exec, execSsp, h.reg]
    exact h.finish_advance (h.sprWrite _ _)
  case lsp rA rB => exact h.execLsp rA rB
  case lsi rA rB => exact h.execLsi rA rB
  case ssi rA rB => exact h.execSsi rA rB
  case brk => exact h.execBrk
  case jal rA rB imm6 => exact h.execJal rA rB imm6
  case adi rA rB imm7 =>
    simp only [Machine.exec, execAdi, h.reg]
    exact (((h.setRegL rA _).setFlags _).advance).sameOut
  case lui rA imm10 => exact ((h.setRegL rA _).advance).sameOut
  case ji rA =>
    simp only [Machine.exec, execJi, h.regL]
    exact (h.pc _).sameOut
  case br imm10 => exact (h.branchIf true imm10).sameOut
  case brl imm10 =>
    simp only [Machine.exec, execBrl, h.view.pc]
    exact ((h.setLink _).branchIf true imm10).sameOut
  case brz | brnz | brc | brnc | brsge | brslt =>
    simp only [Machine.exec, execBrz, execBrnz, execBrc, execBrnc, execBrsge, execBrslt, h.flags]
    exact (h.branchIf _ _).sameOut
  case sbb | adc | sub | add =>
    simp only [Machine.exec, execSbb, execAdc, execSub, execAdd, h.reg, h.flags]
    exact (h.writeSum _ _).sameOut
  case xor | or | and => exact (h.logic _ _ _ _).sameOut
  case not | neg | dub | sxt | sra | srl => exact (h.zop _ _).sameOut
  case tst =>
    simp only [Machine.exec, execTst, h.reg]
    exact ((h.setFlags _).advance).sameOut
  case ccf | scf =>
    simp only [Machine.exec, execCcf, execScf, h.flags]
    exact ((h.setFlags _).advance).sameOut
  case di | ei | hlt | rti => exact h.privileged _ _
  case sys | die | illegalZero | illegalSysRb => exact h.raise_sameOut _

end Alike

/-- Settles O58: the two machines are alike before the instruction, and each operation an instruction is made of keeps
them alike or enters the kernel alike. -/
theorem userInstructionsSeeOnlyTheirContext : Obligations.UserInstructionsSeeOnlyTheirContext := by
  unfold Obligations.UserInstructionsSeeOnlyTheirContext
  intro i s s' hm hview
  have halike : Alike s s' := ⟨hm, hview⟩
  obtain ⟨t, t', ht, ht', hsame⟩ | ⟨f, hf, hf'⟩ := halike.exec i
  · rw [ht, ht']
    exact ⟨hsame.mode, hsame.user, hsame.kernel⟩
  · rw [hf, hf']

end Sys2Proof.Machine
